-- ==== Sys2Proof/Word.lean ====
section
/-! DEFINITION. The widths of the core: bytes, half-words, words (00_scope.md R7, R8). -/

namespace Sys2Proof

/-- 8 bits (R8). -/
abbrev Byte := BitVec 8

/-- 16 bits (R8): the width of an `ifkt` function code. -/
abbrev Half := BitVec 16

/-- 32 bits (R7 `XLEN`): registers, addresses, immediates. -/
abbrev Word := BitVec 32

end Sys2Proof
end

