-- ==== Sys2Proof/Machine/Flags.lean ====
section
/-! DEFINITION. The computations of the carry flag, the core's only flag (R28, R147). -/

namespace Sys2Proof.Machine

/-- The exact sum of R141, over the unbounded integers. -/
def exactSum (va vb : Word) : Nat := va.toNat + vb.toNat

/-- `sum[31:0]` (R141). -/
def addResult (va vb : Word) : Word := BitVec.ofNat 32 (exactSum va vb)

/-- `sum[32]`: 1 iff `va + vb >= 2^32` (R141). -/
def addCarry (va vb : Word) : Bool := decide (2 ^ 32 ≤ exactSum va vb)

/-- `(va - vb) mod 2^32` (R142). -/
def subResult (va vb : Word) : Word := va - vb

/-- The borrow: 1 if `vb > va`, unsigned (R142). -/
def subBorrow (va vb : Word) : Bool := decide (va.toNat < vb.toNat)

end Sys2Proof.Machine
end

