-- ==== Sys2Proof/Syntax.lean ====
section
/-! DEFINITION. The instructions of the core, one constructor per row of spec/opcode_table.json (30_encoding.md R90), and
their operand forms. -/

namespace Sys2Proof

/-- The eight registers, in index order 0 to 7 (R21). -/
inductive Reg where
  | ip | wp | rsp | dsp | acc1 | acc2 | ret | pc
  deriving DecidableEq, Repr

/-- An operand of a register move (R160): a register's value (mode bit 0) or the MAIN cell at the address the register
holds (mode bit 1). -/
inductive Operand where
  | direct (r : Reg)
  | indirect (r : Reg)
  deriving DecidableEq, Repr

/-- The four settings of the bits `D` and `P` of an adjusting move (R165). -/
inductive Adjust where
  /-- `[%p++]`: D = 0, P = 0 -/
  | postInc
  /-- `[++%p]`: D = 0, P = 1 -/
  | preInc
  /-- `[%p--]`: D = 1, P = 0 -/
  | postDec
  /-- `[--%p]`: D = 1, P = 1 -/
  | preDec
  deriving DecidableEq, Repr

/-- One constructor per mapped opcode value (R90). Operands stand in the order of the assembly text (R301): target first. -/
inductive Instr where
  /-- 0x00 `nop` (R123) -/
  | nop
  /-- 0x20 `mov.w T, S` (R161) -/
  | movrW (t s : Operand)
  /-- 0x21 `mov.b T, S` (R162) -/
  | movrB (t s : Operand)
  /-- 0x22 `mov.w [adj p], %v` (R166) -/
  | movsStW (m : Adjust) (p v : Reg)
  /-- 0x23 `mov.b [adj p], %v` (R167) -/
  | movsStB (m : Adjust) (p v : Reg)
  /-- 0x24 `mov.w %v, [adj p]` (R168) -/
  | movsLdW (v : Reg) (m : Adjust) (p : Reg)
  /-- 0x25 `mov.b %v, [adj p]` (R169) -/
  | movsLdB (v : Reg) (m : Adjust) (p : Reg)
  /-- 0x26 `movi %acc1, imm32` (R172) -/
  | moviAcc1 (imm : Word)
  /-- 0x27 `movi %acc2, imm32` (R173) -/
  | moviAcc2 (imm : Word)
  /-- 0x30 `add.w %t, %a, %b` (R141) -/
  | addW (t a b : Reg)
  /-- 0x31 `sub.w %t, %a, %b` (R142) -/
  | subW (t a b : Reg)
  /-- 0x32 `or.w %t, %a, %b` (R143) -/
  | orW (t a b : Reg)
  /-- 0x33 `and.w %t, %a, %b` (R144) -/
  | andW (t a b : Reg)
  /-- 0x34 `xor.w %t, %a, %b` (R145) -/
  | xorW (t a b : Reg)
  /-- 0x35 `sra.w %r, n` (R146). The amount is a count; that it is at most 31 is `Instr.wf`. -/
  | sraW (r : Reg) (n : Nat)
  /-- 0x60 `jmp [%ip]` (R191) -/
  | jmpiIp
  /-- 0x61 `jmp [%wp]` (R192) -/
  | jmpiWp
  /-- 0x62 `jmp [%rsp]` (R193) -/
  | jmpiRsp
  /-- 0x63 `jmp [%dsp]` (R194) -/
  | jmpiDsp
  /-- 0x64 `jmp [%acc1]` (R195) -/
  | jmpiAcc1
  /-- 0x65 `jmp [%acc2]` (R196) -/
  | jmpiAcc2
  /-- 0x66 `jmp [%ret]` (R197) -/
  | jmpiRet
  /-- 0x67 `jmp [%pc]` (R198) -/
  | jmpiPc
  /-- 0x68 `jmp %ip` (R200) -/
  | jmpdIp
  /-- 0x69 `jmp %wp` (R201) -/
  | jmpdWp
  /-- 0x6a `jmp %rsp` (R202) -/
  | jmpdRsp
  /-- 0x6b `jmp %dsp` (R203) -/
  | jmpdDsp
  /-- 0x6c `jmp %acc1` (R204) -/
  | jmpdAcc1
  /-- 0x6d `jmp %acc2` (R205) -/
  | jmpdAcc2
  /-- 0x6e `jmp %ret` (R206) -/
  | jmpdRet
  /-- 0x6f `jmp %pc` (R207) -/
  | jmpdPc
  /-- 0x70 `jmp imm32` (R208) -/
  | jmp (imm : Word)
  /-- 0x71 `jz imm32` (R209) -/
  | jz (imm : Word)
  /-- 0x72 `jc imm32` (R210) -/
  | jc (imm : Word)
  /-- 0x73 `call imm32` (R211) -/
  | call (imm : Word)
  /-- 0x80 `dpush %ip` (R234) -/
  | dpushIp
  /-- 0x81 `dpush %wp` (R235) -/
  | dpushWp
  /-- 0x82 `dpush %rsp` (R236) -/
  | dpushRsp
  /-- 0x83 `dpush %dsp` (R237) -/
  | dpushDsp
  /-- 0x84 `dpush %acc1` (R238) -/
  | dpushAcc1
  /-- 0x85 `dpush %acc2` (R239) -/
  | dpushAcc2
  /-- 0x86 `dpush %ret` (R240) -/
  | dpushRet
  /-- 0x87 `dpush %pc` (R241) -/
  | dpushPc
  /-- 0x88 `dpop %ip` (R242) -/
  | dpopIp
  /-- 0x89 `dpop %wp` (R243) -/
  | dpopWp
  /-- 0x8a `dpop %rsp` (R244) -/
  | dpopRsp
  /-- 0x8b `dpop %dsp` (R245) -/
  | dpopDsp
  /-- 0x8c `dpop %acc1` (R246) -/
  | dpopAcc1
  /-- 0x8d `dpop %acc2` (R247) -/
  | dpopAcc2
  /-- 0x8e `dpop %ret` (R248) -/
  | dpopRet
  /-- 0x8f `dpop %pc` (R249) -/
  | dpopPc
  /-- 0x90 `rpush %ip` (R250) -/
  | rpushIp
  /-- 0x91 `rpush %wp` (R251) -/
  | rpushWp
  /-- 0x92 `rpush %rsp` (R252) -/
  | rpushRsp
  /-- 0x93 `rpush %dsp` (R253) -/
  | rpushDsp
  /-- 0x94 `rpush %acc1` (R254) -/
  | rpushAcc1
  /-- 0x95 `rpush %acc2` (R255) -/
  | rpushAcc2
  /-- 0x96 `rpush %ret` (R256) -/
  | rpushRet
  /-- 0x97 `rpush %pc` (R257) -/
  | rpushPc
  /-- 0x98 `rpop %ip` (R258) -/
  | rpopIp
  /-- 0x99 `rpop %wp` (R259) -/
  | rpopWp
  /-- 0x9a `rpop %rsp` (R260) -/
  | rpopRsp
  /-- 0x9b `rpop %dsp` (R261) -/
  | rpopDsp
  /-- 0x9c `rpop %acc1` (R262) -/
  | rpopAcc1
  /-- 0x9d `rpop %acc2` (R263) -/
  | rpopAcc2
  /-- 0x9e `rpop %ret` (R264) -/
  | rpopRet
  /-- 0x9f `rpop %pc` (R265) -/
  | rpopPc
  /-- 0xfe `ifkt code16` (R280) -/
  | ifkt (code : Half)
  /-- 0xff `illegal` (R124) -/
  | illegal
  deriving DecidableEq, Repr

end Sys2Proof
end

