-- ==== Sys2Proof/WellFormed.lean ====
section
/-! DEFINITION. Which instruction terms the encoding admits. -/

namespace Sys2Proof

/-- Every register field takes all eight registers (R84) and immediates and codes are exact widths, so the one condition a
term can break is the range of the shift amount, a 5-bit field: 0 to 31 (R87). -/
def Instr.wf : Instr → Bool
  | .sraW _ n => decide (n ≤ 31)
  | _ => true

end Sys2Proof
end

