-- ==== Sys2Proof/Decode.lean ====
section
/-! DEFINITION. Byte order, field extraction, the opcode map, the decoder and the encoder (30_encoding.md R80 to R98). One
table, `opcodeMap`, is read by the engine's fetch, by `Decode(a)` of the disassembler and by `decode` (R14). -/

namespace Sys2Proof

/-! ## Byte order (R55) -/

/-- The number whose little-endian bytes are the list: the first byte is the least significant (R55). -/
def leNat : List Byte → Nat
  | [] => 0
  | b :: bs => b.toNat + 256 * leNat bs

/-- At most four bytes, little-endian, as an unsigned 32-bit value (R53, R55). -/
def leWord (bs : List Byte) : Word := BitVec.ofNat 32 (leNat bs)

/-- The low `n` bytes of a word, lowest address first (R54, R55). -/
def bytesLE : Nat → Word → List Byte
  | 0, _ => []
  | n + 1, v => v.setWidth 8 :: bytesLE n (v >>> 8)

/-! ## Fields -/

/-- The index of a register (R21, R84). -/
def Reg.index : Reg → BitVec 3
  | .ip => 0
  | .wp => 1
  | .rsp => 2
  | .dsp => 3
  | .acc1 => 4
  | .acc2 => 5
  | .ret => 6
  | .pc => 7

/-- The register of a 3-bit field; all eight values are legal (R84). -/
def Reg.ofIndex (x : BitVec 3) : Reg :=
  match x.toNat with
  | 0 => .ip
  | 1 => .wp
  | 2 => .rsp
  | 3 => .dsp
  | 4 => .acc1
  | 5 => .acc2
  | 6 => .ret
  | _ => .pc

/-- Register in bits 2 to 0 of the first operand byte: `a`, `s`, `v` (R85, R89, R91). -/
def fieldLow (k : Word) : Reg := Reg.ofIndex (k.extractLsb' 0 3)

/-- Register in bits 5 to 3 of the first operand byte: `t`, `p` (R85, R89, R91). -/
def fieldHigh (k : Word) : Reg := Reg.ofIndex (k.extractLsb' 3 3)

/-- Register in bits 2 to 0 of the second operand byte: `b` of format FA (R85). -/
def fieldSecond (k : Word) : Reg := Reg.ofIndex (k.extractLsb' 8 3)

/-- Register in bits 7 to 5 of the first operand byte: `r` of format FS (R87). -/
def fieldTop (k : Word) : Reg := Reg.ofIndex (k.extractLsb' 5 3)

/-- The shift amount of format FS, bits 4 to 0 (R87). -/
def fieldAmount (k : Word) : Nat := (k.extractLsb' 0 5).toNat

/-- The 16-bit function code of format FK (R93). -/
def fieldCode (k : Word) : Half := k.setWidth 16

/-- An operand of format FM from its mode bit and register (R89, R160). -/
def Operand.ofMode (indirect : Bool) (r : Reg) : Operand := if indirect then .indirect r else .direct r

/-- Target operand of format FM: `T` is bit 7 (R89). -/
def fieldTarget (k : Word) : Operand := Operand.ofMode (k.getLsbD 7) (fieldHigh k)

/-- Source operand of format FM: `S` is bit 6 (R89). -/
def fieldSource (k : Word) : Operand := Operand.ofMode (k.getLsbD 6) (fieldLow k)

/-- The setting of the bits `D` and `P` (R165). -/
def Adjust.ofBits (decrement pre : Bool) : Adjust :=
  if decrement then (if pre then .preDec else .postDec) else (if pre then .preInc else .postInc)

/-- `D` is bit 7 and `P` bit 6 of format FP (R91). -/
def fieldAdjust (k : Word) : Adjust := Adjust.ofBits (k.getLsbD 7) (k.getLsbD 6)

/-! ## Formats and the opcode map -/

/-- The eight formats (R82). -/
inductive Format where
  | F0 | FR | FA | FS | FM | FP | FI | FK
  deriving DecidableEq, Repr

/-- The operand accesses of a format in address order, each its size in bytes (R97, R122). -/
def Format.accesses : Format → List Nat
  | .F0 => []
  | .FR => []
  | .FA => [1, 1]
  | .FS => [1]
  | .FM => [1]
  | .FP => [1]
  | .FI => [4]
  | .FK => [2]

/-- How many operand bytes follow the opcode (R82). -/
def Format.operandLength (f : Format) : Nat := f.accesses.sum

/-- A row of the opcode map: the format, and the instruction read from the operand bytes (little-endian in one word, the
byte after the opcode in bits 7 to 0). -/
structure OpcodeRow where
  format : Format
  build : Word → Instr

/-- The complete opcode map (R90); `none` for the 187 unmapped values (R95). -/
def opcodeMap (op : Byte) : Option OpcodeRow :=
  match op.toNat with
  | 0x00 => some ⟨.F0, fun _ => .nop⟩
  | 0x20 => some ⟨.FM, fun k => .movrW (fieldTarget k) (fieldSource k)⟩
  | 0x21 => some ⟨.FM, fun k => .movrB (fieldTarget k) (fieldSource k)⟩
  | 0x22 => some ⟨.FP, fun k => .movsStW (fieldAdjust k) (fieldHigh k) (fieldLow k)⟩
  | 0x23 => some ⟨.FP, fun k => .movsStB (fieldAdjust k) (fieldHigh k) (fieldLow k)⟩
  | 0x24 => some ⟨.FP, fun k => .movsLdW (fieldLow k) (fieldAdjust k) (fieldHigh k)⟩
  | 0x25 => some ⟨.FP, fun k => .movsLdB (fieldLow k) (fieldAdjust k) (fieldHigh k)⟩
  | 0x26 => some ⟨.FI, fun k => .moviAcc1 k⟩
  | 0x27 => some ⟨.FI, fun k => .moviAcc2 k⟩
  | 0x30 => some ⟨.FA, fun k => .addW (fieldHigh k) (fieldLow k) (fieldSecond k)⟩
  | 0x31 => some ⟨.FA, fun k => .subW (fieldHigh k) (fieldLow k) (fieldSecond k)⟩
  | 0x32 => some ⟨.FA, fun k => .orW (fieldHigh k) (fieldLow k) (fieldSecond k)⟩
  | 0x33 => some ⟨.FA, fun k => .andW (fieldHigh k) (fieldLow k) (fieldSecond k)⟩
  | 0x34 => some ⟨.FA, fun k => .xorW (fieldHigh k) (fieldLow k) (fieldSecond k)⟩
  | 0x35 => some ⟨.FS, fun k => .sraW (fieldTop k) (fieldAmount k)⟩
  | 0x60 => some ⟨.FR, fun _ => .jmpiIp⟩
  | 0x61 => some ⟨.FR, fun _ => .jmpiWp⟩
  | 0x62 => some ⟨.FR, fun _ => .jmpiRsp⟩
  | 0x63 => some ⟨.FR, fun _ => .jmpiDsp⟩
  | 0x64 => some ⟨.FR, fun _ => .jmpiAcc1⟩
  | 0x65 => some ⟨.FR, fun _ => .jmpiAcc2⟩
  | 0x66 => some ⟨.FR, fun _ => .jmpiRet⟩
  | 0x67 => some ⟨.FR, fun _ => .jmpiPc⟩
  | 0x68 => some ⟨.FR, fun _ => .jmpdIp⟩
  | 0x69 => some ⟨.FR, fun _ => .jmpdWp⟩
  | 0x6a => some ⟨.FR, fun _ => .jmpdRsp⟩
  | 0x6b => some ⟨.FR, fun _ => .jmpdDsp⟩
  | 0x6c => some ⟨.FR, fun _ => .jmpdAcc1⟩
  | 0x6d => some ⟨.FR, fun _ => .jmpdAcc2⟩
  | 0x6e => some ⟨.FR, fun _ => .jmpdRet⟩
  | 0x6f => some ⟨.FR, fun _ => .jmpdPc⟩
  | 0x70 => some ⟨.FI, fun k => .jmp k⟩
  | 0x71 => some ⟨.FI, fun k => .jz k⟩
  | 0x72 => some ⟨.FI, fun k => .jc k⟩
  | 0x73 => some ⟨.FI, fun k => .call k⟩
  | 0x80 => some ⟨.FR, fun _ => .dpushIp⟩
  | 0x81 => some ⟨.FR, fun _ => .dpushWp⟩
  | 0x82 => some ⟨.FR, fun _ => .dpushRsp⟩
  | 0x83 => some ⟨.FR, fun _ => .dpushDsp⟩
  | 0x84 => some ⟨.FR, fun _ => .dpushAcc1⟩
  | 0x85 => some ⟨.FR, fun _ => .dpushAcc2⟩
  | 0x86 => some ⟨.FR, fun _ => .dpushRet⟩
  | 0x87 => some ⟨.FR, fun _ => .dpushPc⟩
  | 0x88 => some ⟨.FR, fun _ => .dpopIp⟩
  | 0x89 => some ⟨.FR, fun _ => .dpopWp⟩
  | 0x8a => some ⟨.FR, fun _ => .dpopRsp⟩
  | 0x8b => some ⟨.FR, fun _ => .dpopDsp⟩
  | 0x8c => some ⟨.FR, fun _ => .dpopAcc1⟩
  | 0x8d => some ⟨.FR, fun _ => .dpopAcc2⟩
  | 0x8e => some ⟨.FR, fun _ => .dpopRet⟩
  | 0x8f => some ⟨.FR, fun _ => .dpopPc⟩
  | 0x90 => some ⟨.FR, fun _ => .rpushIp⟩
  | 0x91 => some ⟨.FR, fun _ => .rpushWp⟩
  | 0x92 => some ⟨.FR, fun _ => .rpushRsp⟩
  | 0x93 => some ⟨.FR, fun _ => .rpushDsp⟩
  | 0x94 => some ⟨.FR, fun _ => .rpushAcc1⟩
  | 0x95 => some ⟨.FR, fun _ => .rpushAcc2⟩
  | 0x96 => some ⟨.FR, fun _ => .rpushRet⟩
  | 0x97 => some ⟨.FR, fun _ => .rpushPc⟩
  | 0x98 => some ⟨.FR, fun _ => .rpopIp⟩
  | 0x99 => some ⟨.FR, fun _ => .rpopWp⟩
  | 0x9a => some ⟨.FR, fun _ => .rpopRsp⟩
  | 0x9b => some ⟨.FR, fun _ => .rpopDsp⟩
  | 0x9c => some ⟨.FR, fun _ => .rpopAcc1⟩
  | 0x9d => some ⟨.FR, fun _ => .rpopAcc2⟩
  | 0x9e => some ⟨.FR, fun _ => .rpopRet⟩
  | 0x9f => some ⟨.FR, fun _ => .rpopPc⟩
  | 0xfe => some ⟨.FK, fun k => .ifkt (fieldCode k)⟩
  | 0xff => some ⟨.F0, fun _ => .illegal⟩
  | _ => none

/-! ## The decoder on a list of bytes -/

/-- What bytes decode to. -/
inductive Decoded where
  /-- a mapped instruction and the bytes after it -/
  | instr (i : Instr) (rest : List Byte)
  /-- an unmapped opcode byte (R95): one byte is consumed -/
  | unknown (op : Byte) (rest : List Byte)
  /-- a mapped opcode with fewer operand bytes than its format needs -/
  | truncated (op : Byte)
  /-- no byte at all -/
  | empty
  deriving DecidableEq, Repr

/-- `Decode` on a list of bytes (R97): total, and each rejection has its name. -/
def decode : List Byte → Decoded
  | [] => .empty
  | op :: rest =>
    match opcodeMap op with
    | none => .unknown op rest
    | some row =>
      if rest.length < row.format.operandLength then .truncated op
      else .instr (row.build (leWord (rest.take row.format.operandLength))) (rest.drop row.format.operandLength)

/-! ## The encoder (R98): canonical bytes, every ignored bit 0 -/

/-- The mode bit of an operand (R89). -/
def Operand.modeBit : Operand → BitVec 1
  | .direct _ => 0
  | .indirect _ => 1

/-- The register an operand names (R89). -/
def Operand.reg : Operand → Reg
  | .direct r => r
  | .indirect r => r

/-- The bits `D` and `P`, `D` the higher (R91). -/
def Adjust.bits : Adjust → BitVec 2
  | .postInc => 0b00
  | .preInc => 0b01
  | .postDec => 0b10
  | .preDec => 0b11

/-- Format FA after its opcode: `00 ttt aaa`, `00000 bbb` (R85, R88). -/
def encodeFA (t a b : Reg) : List Byte := [(0#2 ++ t.index) ++ a.index, 0#5 ++ b.index]

/-- Format FS after its opcode: `rrr nnnnn` (R87). -/
def encodeFS (r : Reg) (n : Nat) : List Byte := [r.index ++ BitVec.ofNat 5 n]

/-- Format FM after its opcode: `T S ttt sss` (R89). -/
def encodeFM (t s : Operand) : List Byte := [((t.modeBit ++ s.modeBit) ++ t.reg.index) ++ s.reg.index]

/-- Format FP after its opcode: `D P ppp vvv` (R91). -/
def encodeFP (m : Adjust) (p v : Reg) : List Byte := [(m.bits ++ p.index) ++ v.index]

/-- `Encode(i)`: the canonical bytes of an instruction in address order (R98). -/
def encode : Instr → List Byte
  | .nop => [0x00]
  | .movrW t s => 0x20 :: encodeFM t s
  | .movrB t s => 0x21 :: encodeFM t s
  | .movsStW m p v => 0x22 :: encodeFP m p v
  | .movsStB m p v => 0x23 :: encodeFP m p v
  | .movsLdW v m p => 0x24 :: encodeFP m p v
  | .movsLdB v m p => 0x25 :: encodeFP m p v
  | .moviAcc1 imm => 0x26 :: bytesLE 4 imm
  | .moviAcc2 imm => 0x27 :: bytesLE 4 imm
  | .addW t a b => 0x30 :: encodeFA t a b
  | .subW t a b => 0x31 :: encodeFA t a b
  | .orW t a b => 0x32 :: encodeFA t a b
  | .andW t a b => 0x33 :: encodeFA t a b
  | .xorW t a b => 0x34 :: encodeFA t a b
  | .sraW r n => 0x35 :: encodeFS r n
  | .jmpiIp => [0x60]
  | .jmpiWp => [0x61]
  | .jmpiRsp => [0x62]
  | .jmpiDsp => [0x63]
  | .jmpiAcc1 => [0x64]
  | .jmpiAcc2 => [0x65]
  | .jmpiRet => [0x66]
  | .jmpiPc => [0x67]
  | .jmpdIp => [0x68]
  | .jmpdWp => [0x69]
  | .jmpdRsp => [0x6a]
  | .jmpdDsp => [0x6b]
  | .jmpdAcc1 => [0x6c]
  | .jmpdAcc2 => [0x6d]
  | .jmpdRet => [0x6e]
  | .jmpdPc => [0x6f]
  | .jmp imm => 0x70 :: bytesLE 4 imm
  | .jz imm => 0x71 :: bytesLE 4 imm
  | .jc imm => 0x72 :: bytesLE 4 imm
  | .call imm => 0x73 :: bytesLE 4 imm
  | .dpushIp => [0x80]
  | .dpushWp => [0x81]
  | .dpushRsp => [0x82]
  | .dpushDsp => [0x83]
  | .dpushAcc1 => [0x84]
  | .dpushAcc2 => [0x85]
  | .dpushRet => [0x86]
  | .dpushPc => [0x87]
  | .dpopIp => [0x88]
  | .dpopWp => [0x89]
  | .dpopRsp => [0x8a]
  | .dpopDsp => [0x8b]
  | .dpopAcc1 => [0x8c]
  | .dpopAcc2 => [0x8d]
  | .dpopRet => [0x8e]
  | .dpopPc => [0x8f]
  | .rpushIp => [0x90]
  | .rpushWp => [0x91]
  | .rpushRsp => [0x92]
  | .rpushDsp => [0x93]
  | .rpushAcc1 => [0x94]
  | .rpushAcc2 => [0x95]
  | .rpushRet => [0x96]
  | .rpushPc => [0x97]
  | .rpopIp => [0x98]
  | .rpopWp => [0x99]
  | .rpopRsp => [0x9a]
  | .rpopDsp => [0x9b]
  | .rpopAcc1 => [0x9c]
  | .rpopAcc2 => [0x9d]
  | .rpopRet => [0x9e]
  | .rpopPc => [0x9f]
  | .ifkt code => 0xfe :: bytesLE 2 (code.setWidth 32)
  | .illegal => [0xff]

/-- The bytes with every ignored bit cleared: bits 7 and 6 of the first and bits 7 to 3 of the second operand byte of
format FA (R88). No other format has an ignored bit. -/
def clearIgnored : List Byte → List Byte
  | op :: b1 :: b2 :: rest =>
    if (opcodeMap op).map OpcodeRow.format = some .FA then op :: (b1 &&& 0x3f) :: (b2 &&& 0x07) :: rest
    else op :: b1 :: b2 :: rest
  | bs => bs

/-! ## One word of the opcode table -/

/-- The five bytes that hold the low `nbits` bits of `w` (bit 0 is the least significant bit of the first byte); every bit
above `nbits` is 0. Five bytes is the longest instruction (R7). -/
def tableBytes (nbits w : Nat) : List Byte :=
  [0, 8, 16, 24, 32].map fun k => BitVec.ofNat 8 ((w % 2 ^ nbits) >>> k)

/-- The instruction the decoder reads from a row of the opcode table. -/
def decodeTableWord (nbits w : Nat) : Option Instr :=
  match decode (tableBytes nbits w) with
  | .instr i _ => some i
  | _ => none

end Sys2Proof
end

