-- ==== Sys2Proof/Config.lean ====
section
/-! DEFINITION. The implementation parameters of R7 and the one input the core does not choose: the console's answers
(R281). -/

namespace Sys2Proof

/-- The host's answer to a `ConsoleIn` request (R281): one input byte, or `Interrupted`. -/
inductive ConsoleAnswer where
  | char (b : Byte)
  | interrupted
  deriving DecidableEq, Repr, Inhabited

/-- `MEM_CAP`, the capacity of region MAIN in bytes (R7). -/
def Config.memCap : Nat := 32768

/-- `DSTACK_CAP`, the capacity of region DSTACK in bytes (R7). -/
def Config.dstackCap : Nat := 32768

/-- `RSTACK_CAP`, the capacity of region RSTACK in bytes (R7). -/
def Config.rstackCap : Nat := 32768

/-- What a byte that is not listed in a region reads as. It is the representation's base value only: every `MEM_INIT`
(R7, open) is a list of cells over it, see `State.powerOn`. DESIGN CHOICE, unsafe for `State.reset`: log 3. -/
def Config.unlistedByte : Byte := 0

/-- FREE VALUE. The console's answer to the n-th request that finds no answer lined up by the host (R281: "a model takes
them as an oracle or an input stream"). It has no body, so nothing can be proved of a particular answer. DESIGN CHOICE
of the form, safe: log 5. -/
opaque Config.consoleAnswer : Nat → ConsoleAnswer

end Sys2Proof
end

