-- ==== Sys2Proof/Machine/State.lean ====
section
/-! DEFINITION. The state of the core as plain data (10_state.md), the outcomes of a step (60_exceptions.md), reset. -/

namespace Sys2Proof.Machine

/-- The three memories (R50): separate address spaces. -/
inductive Region where
  | main | dstack | rstack
  deriving DecidableEq, Repr

/-- The bytes of a region: cells with strictly rising addresses, none equal to what an unlisted address reads as
(`Memory.wf`). -/
abbrev Memory := List Host.Cell

/-- Text as the list of its characters (R300: a string of ASCII characters). -/
abbrev Text := List Char

/-- The five outcomes of a step (R350). The source gives no numeric codes, so there are none here. -/
inductive StepOutcome where
  /-- the instruction completed (R351) -/
  | success
  /-- the program ended itself with `ifkt 0x3` (R352) -/
  | finished
  /-- a defined instruction hit a runtime precondition violation (R353) -/
  | error
  /-- an opcode byte or `ifkt` code with no defined behaviour (R355) -/
  | illegalInstruction
  /-- an out-of-range access: its lowest address and the capacity of the region (R354) -/
  | memFault (addr : Word) (cap : Nat)
  deriving DecidableEq, Repr

/-- A record on the diagnostic port (R281). Its printed text is not specified and is not modelled: log 14. -/
inductive DiagRecord where
  /-- `DumpWord(addr, value)` of `ifkt 0x4` (R285) -/
  | dumpWord (addr value : Word)
  /-- `DumpRange(lo, hi, bytes)` of `ifkt 0x5` (R286) -/
  | dumpRange (lo hi : Word) (bytes : List Byte)
  /-- what `run(trace)` emits before a step: address, opcode byte, disassembly (R126) -/
  | trace (pc : Word) (op : Byte) (text : Text)
  deriving DecidableEq, Repr

/-- One thing the core hands to the host: a byte on `console_out` or a record on `diag` (R281). -/
inductive Emission where
  /-- `ConsoleOut(b)` -/
  | console (b : Byte)
  /-- `Diag(record)` -/
  | diag (d : DiagRecord)
  deriving DecidableEq, Repr

/-- The whole state: eight registers (R20, R21), the carry flag (R28), three regions (R35, R50), the streams of the ports
an `ifkt` step drives (R281), and the answer of the `step` port (R13). -/
structure State where
  /-- `x[0]` -/
  ip : Word
  /-- `x[1]` -/
  wp : Word
  /-- `x[2]`, the return-stack pointer -/
  rsp : Word
  /-- `x[3]`, the data-stack pointer -/
  dsp : Word
  /-- `x[4]` -/
  acc1 : Word
  /-- `x[5]` -/
  acc2 : Word
  /-- `x[6]`, written by `call` -/
  ret : Word
  /-- `x[7]`, the address of the next instruction to fetch (R25) -/
  pc : Word
  /-- the flag `C` (R28) -/
  carry : Bool
  /-- region MAIN -/
  main : Memory
  /-- region DSTACK -/
  dstack : Memory
  /-- region RSTACK -/
  rstack : Memory
  /-- the `console_in` answers the host has lined up, next first (R281) -/
  consoleIn : List ConsoleAnswer
  /-- MODEL's own: how many requests took a free answer, `Config.consoleAnswer`: log 5 -/
  consoleAsked : Nat
  /-- what was put on `console_out` and `diag`, one sequence in the order it was emitted, oldest first (R281, R389) -/
  emitted : List Emission
  /-- MODEL's own: what the last step answered on the `step` port; nothing reads it (R34, R361): log 2 -/
  outcome : StepOutcome
  deriving DecidableEq, Repr

/-- The one way the machine stops. -/
inductive Fault where
  /-- The memory-access fault (R354), raised by every access primitive (fetch, data, stack, dump) whose range exceeds the
  capacity of its region. It carries the lowest address of the access, the capacity, and the state the step left (R356):
  the writes before the access stand, `pc` is not rewound. Safe: it is the spec's own failure of the step, "a distinct
  failure condition (not folded into Error/IllegalInstruction)" (R350): log 1. -/
  | memFault (addr : Word) (cap : Nat) (left : State)
  deriving DecidableEq, Repr

/-- Why an instruction would have no meaning. No instruction of this model is refused. -/
inductive Refusal where
  /-- Raised by `exec` for an instruction that has no meaning yet; no arm raises it. Safe: the machine stops. -/
  | notModelled (mnemonic : String)
  deriving DecidableEq, Repr

/-- The state after reset (R36, R380): every register 0, `C` = 0, with `MEM_INIT` (open, R7) taken as all zero. DESIGN
CHOICE for the memory contents, unsafe: log 3; `State.powerOn` takes `MEM_INIT` as an argument. -/
def State.reset : State where
  ip := 0
  wp := 0
  rsp := 0
  dsp := 0
  acc1 := 0
  acc2 := 0
  ret := 0
  pc := 0
  carry := false
  main := []
  dstack := []
  rstack := []
  consoleIn := []
  consoleAsked := 0
  emitted := []
  outcome := .success

end Sys2Proof.Machine
end

