-- ==== Sys2Proof/Machine/Ops.lean ====
section
/-! DEFINITION. The named operations over memory, registers, ports and outcomes (R9). An operation that may raise the
memory-access fault takes the rest of the pseudocode as its last argument, so a meaning reads in the rule's line order:
lines before a fault have run, no later line runs (R9). -/

namespace Sys2Proof.Machine

/-- How a step, or the rest of one, ends. -/
abbrev Result := Host.Outcome State Fault Refusal

/-! ## One region -/

/-- The byte at an address of a region's cells. -/
def Memory.read : Memory → Nat → Byte
  | [], _ => Config.unlistedByte
  | (k, c) :: m, a => if a = k then c else Memory.read m a

/-- Put a cell at its place in the rising order. -/
def Memory.insert : Memory → Nat → Byte → Memory
  | [], a, b => [(a, b)]
  | (k, c) :: m, a, b =>
    if a < k then (a, b) :: (k, c) :: m
    else if a = k then (a, b) :: m
    else (k, c) :: Memory.insert m a b

/-- Write one byte, keeping the canonical form: the value an unlisted address reads as removes the cell. -/
def Memory.write (m : Memory) (a : Nat) (b : Byte) : Memory :=
  if b = Config.unlistedByte then m.filter (fun c => decide (c.1 ≠ a)) else Memory.insert m a b

/-- The `n` bytes from address `a` up (R53). -/
def Memory.readBytes (m : Memory) : Nat → Nat → List Byte
  | _, 0 => []
  | a, n + 1 => m.read a :: Memory.readBytes m (a + 1) n

/-- Write bytes from address `a` up (R54). -/
def Memory.writeBytes : Memory → Nat → List Byte → Memory
  | m, _, [] => m
  | m, a, b :: bs => Memory.writeBytes (m.write a b) (a + 1) bs

/-- The canonical form of cells whose addresses are at least `lo` and below `cap`: strictly rising, no cell equal to what
an unlisted address reads as. -/
def Memory.wfFrom (cap : Nat) : Nat → Memory → Bool
  | _, [] => true
  | lo, (k, c) :: m =>
    decide (lo ≤ k) && decide (k < cap) && decide (c ≠ Config.unlistedByte) && Memory.wfFrom cap (k + 1) m

/-- The canonical form of a region of capacity `cap`. -/
def Memory.wf (cap : Nat) (m : Memory) : Bool := Memory.wfFrom cap 0 m

/-! ## Regions of the state -/

/-- The capacity of a region (R7, R50). -/
def Region.cap : Region → Nat
  | .main => Config.memCap
  | .dstack => Config.dstackCap
  | .rstack => Config.rstackCap

/-- The cells of a region. -/
def State.region (s : State) : Region → Memory
  | .main => s.main
  | .dstack => s.dstack
  | .rstack => s.rstack

/-- The state with one region's cells replaced. -/
def State.setRegion (s : State) (g : Region) (m : Memory) : State :=
  match g with
  | .main => { s with main := m }
  | .dstack => { s with dstack := m }
  | .rstack => { s with rstack := m }

/-- The byte at an address of a region, the model's read of one byte. -/
def State.byteAt (s : State) (g : Region) (a : Nat) : Byte := (s.region g).read a

/-- The bounds check of R57, exact: no wrap. -/
def Region.fits (g : Region) (addr : Word) (n : Nat) : Bool := decide (addr.toNat + n ≤ g.cap)

/-- The `n`-byte little-endian value at an address of a region, zero-extended to 32 bits (R53); the range fits. -/
def State.valueAt (s : State) (g : Region) (addr : Word) (n : Nat) : Word :=
  leWord ((s.region g).readBytes addr.toNat n)

/-- Store the low `n` bytes of `v` little-endian at an address of a region (R54); the range fits. -/
def State.storeAt (s : State) (g : Region) (addr : Word) (n : Nat) (v : Word) : State :=
  s.setRegion g ((s.region g).writeBytes addr.toNat (bytesLE n v))

/-- Every region in its canonical form. -/
def State.wf (s : State) : Bool :=
  s.main.wf Config.memCap && s.dstack.wf Config.dstackCap && s.rstack.wf Config.rstackCap

/-! ## Registers and the flag -/

/-- `x[i]` (R9); `x[7]` is `pc` (R21). -/
def State.get (s : State) : Reg → Word
  | .ip => s.ip
  | .wp => s.wp
  | .rsp => s.rsp
  | .dsp => s.dsp
  | .acc1 => s.acc1
  | .acc2 => s.acc2
  | .ret => s.ret
  | .pc => s.pc

/-- `x[i] <- v` (R9); a write of `x[7]` is a jump (R25). No register is hardwired (R20). -/
def State.set (s : State) (r : Reg) (v : Word) : State :=
  match r with
  | .ip => { s with ip := v }
  | .wp => { s with wp := v }
  | .rsp => { s with rsp := v }
  | .dsp => { s with dsp := v }
  | .acc1 => { s with acc1 := v }
  | .acc2 => { s with acc2 := v }
  | .ret => { s with ret := v }
  | .pc => { s with pc := v }

/-- `C <- b` (R9, R28). -/
def State.setCarry (s : State) (b : Bool) : State := { s with carry := b }

/-! ## How a step ends (R350, R356) -/

/-- Record what the step answers on the `step` port (R13). -/
def State.setOutcome (s : State) (o : StepOutcome) : State := { s with outcome := o }

/-- End the step with one of the four values of `singleStep` (R350). Nothing is saved, no mode changes, control goes to no
guest address: the state is what the earlier lines left (R356). -/
def endStep (o : StepOutcome) (s : State) : Result := .next (s.setOutcome o)

/-- The end of a pseudocode that has no outcome line: `Success` (R9, R351). -/
def succeed (s : State) : Result := endStep .success s

/-- `raise MemFault(addr, cap)` (R9, R354), the core's one exceptional event that is not a value of `singleStep`. There is
no trap entry: the step ends with the address, the capacity and the state left (R356). There is no return from it
either (R358): a further step is an ordinary one from the state left (R361), see `Fault.left`. -/
def raiseMemFault (addr : Word) (cap : Nat) (s : State) : Result :=
  .fault (.memFault addr cap (s.setOutcome (.memFault addr cap)))

/-- The state a fault left behind, from which a further `step` request runs (R356, R361). -/
def Fault.left : Fault → State
  | .memFault _ _ s => s

/-! ## The access primitives (R53, R54, R57) -/

/-- `MemReadIn(G, addr, n)`, then the rest of the rule with the value read. -/
def memReadIn (g : Region) (addr : Word) (n : Nat) (s : State) (rest : Word → Result) : Result :=
  if g.fits addr n then rest (s.valueAt g addr n) else raiseMemFault addr g.cap s

/-- `MemWriteIn(G, addr, n, v)`, then the rest of the rule. The check is made on the whole range before any byte is
written. -/
def memWriteIn (g : Region) (addr : Word) (n : Nat) (v : Word) (s : State) (rest : State → Result) : Result :=
  if g.fits addr n then rest (s.storeAt g addr n v) else raiseMemFault addr g.cap s

/-! ## The ports of `ifkt` (R281) -/

/-- `ConsoleIn()`: the answer, and the state after the request. The answers the host has lined up come first, then free
ones. The wait itself changes no state (R281, R370): log 5. -/
def State.consoleAnswer (s : State) : ConsoleAnswer × State :=
  match s.consoleIn with
  | a :: rest => (a, { s with consoleIn := rest })
  | [] => (Config.consoleAnswer s.consoleAsked, { s with consoleAsked := s.consoleAsked + 1 })

/-- `ConsoleOut(b)`. -/
def State.emitByte (s : State) (b : Byte) : State := { s with emitted := s.emitted ++ [.console b] }

/-- `Diag(record)`. -/
def State.emitDiag (s : State) (d : DiagRecord) : State := { s with emitted := s.emitted ++ [.diag d] }

/-- The byte of an emission on `console_out`. -/
def Emission.byte? : Emission → Option Byte
  | .console b => some b
  | .diag _ => none

/-- The record of an emission on `diag`. -/
def Emission.record? : Emission → Option DiagRecord
  | .console _ => none
  | .diag d => some d

/-- The bytes put on `console_out`, in order (R281). -/
def State.consoleOut (s : State) : List Byte := s.emitted.filterMap Emission.byte?

/-- The records put on `diag`, in order (R281). -/
def State.diag (s : State) : List DiagRecord := s.emitted.filterMap Emission.record?

end Sys2Proof.Machine
end

