-- ==== Sys2Proof/Machine/Alu.lean ====
section
/-! DEFINITION. The ALU instructions (41_alu.md). `pc` has been advanced by the fetch, so a source `pc` reads as the next
instruction's address and a target `pc` is a jump (R140, R25). -/

namespace Sys2Proof.Machine

/-- The shape of `or.w`, `and.w`, `xor.w`: both sources read first, then the target written; `C` is left alone (R140). -/
def bitwise (f : Word → Word → Word) (t a b : Reg) (s : State) : Result :=
  succeed (s.set t (f (s.get a) (s.get b)))

/-- The shape of `add.w` and `sub.w`: as `bitwise`, and `C` written on every execution (R140). -/
def arithmetic (f : Word → Word → Word) (c : Word → Word → Bool) (t a b : Reg) (s : State) : Result :=
  succeed ((s.set t (f (s.get a) (s.get b))).setCarry (c (s.get a) (s.get b)))

/-- `(sext_64(v) >> n)[31:0]` (R146). -/
def shiftRightArithmetic (v : Word) (n : Nat) : Word := ((v.signExtend 64).sshiftRight n).setWidth 32

/-- ADD_W (R141). -/
def execAddW (t a b : Reg) (s : State) : Result := arithmetic addResult addCarry t a b s

/-- SUB_W (R142). -/
def execSubW (t a b : Reg) (s : State) : Result := arithmetic subResult subBorrow t a b s

/-- OR_W (R143). -/
def execOrW (t a b : Reg) (s : State) : Result := bitwise (fun va vb => va ||| vb) t a b s

/-- AND_W (R144). -/
def execAndW (t a b : Reg) (s : State) : Result := bitwise (fun va vb => va &&& vb) t a b s

/-- XOR_W (R145). -/
def execXorW (t a b : Reg) (s : State) : Result := bitwise (fun va vb => va ^^^ vb) t a b s

/-- SRA_W (R146). -/
def execSraW (r : Reg) (n : Nat) (s : State) : Result := succeed (s.set r (shiftRightArithmetic (s.get r) n))

end Sys2Proof.Machine
end

