-- ==== Sys2Proof/Machine/Control.lean ====
section
/-! DEFINITION. Control transfer (43_control.md). A target is an absolute address and is not checked when the jump
executes (R212). -/

namespace Sys2Proof.Machine

/-- `pc <- MemRead(x[r], 4)`, from MAIN whichever register is named (R190). -/
def jumpThrough (r : Reg) (s : State) : Result := memReadIn .main (s.get r) 4 s fun v => succeed (s.set .pc v)

/-- `pc <- x[r]` (R199). -/
def jumpTo (r : Reg) (s : State) : Result := succeed (s.set .pc (s.get r))

/-- JMPI_IP (R191). -/
def execJmpiIp (s : State) : Result := jumpThrough .ip s

/-- JMPI_WP (R192). -/
def execJmpiWp (s : State) : Result := jumpThrough .wp s

/-- JMPI_RSP (R193). -/
def execJmpiRsp (s : State) : Result := jumpThrough .rsp s

/-- JMPI_DSP (R194). -/
def execJmpiDsp (s : State) : Result := jumpThrough .dsp s

/-- JMPI_ACC1 (R195). -/
def execJmpiAcc1 (s : State) : Result := jumpThrough .acc1 s

/-- JMPI_ACC2 (R196). -/
def execJmpiAcc2 (s : State) : Result := jumpThrough .acc2 s

/-- JMPI_RET (R197). -/
def execJmpiRet (s : State) : Result := jumpThrough .ret s

/-- JMPI_PC (R198). -/
def execJmpiPc (s : State) : Result := jumpThrough .pc s

/-- JMPD_IP (R200). -/
def execJmpdIp (s : State) : Result := jumpTo .ip s

/-- JMPD_WP (R201). -/
def execJmpdWp (s : State) : Result := jumpTo .wp s

/-- JMPD_RSP (R202). -/
def execJmpdRsp (s : State) : Result := jumpTo .rsp s

/-- JMPD_DSP (R203). -/
def execJmpdDsp (s : State) : Result := jumpTo .dsp s

/-- JMPD_ACC1 (R204). -/
def execJmpdAcc1 (s : State) : Result := jumpTo .acc1 s

/-- JMPD_ACC2 (R205). -/
def execJmpdAcc2 (s : State) : Result := jumpTo .acc2 s

/-- JMPD_RET (R206). -/
def execJmpdRet (s : State) : Result := jumpTo .ret s

/-- JMPD_PC (R207). -/
def execJmpdPc (s : State) : Result := jumpTo .pc s

/-- JMP (R208). -/
def execJmp (imm : Word) (s : State) : Result := succeed (s.set .pc imm)

/-- JZ (R209): the test is on all 32 bits of `acc1`; not taken, `pc` stays after the instruction. -/
def execJz (imm : Word) (s : State) : Result := succeed (if s.acc1 = 0 then s.set .pc imm else s)

/-- JC (R210): `C` is read and not changed. -/
def execJc (imm : Word) (s : State) : Result := succeed (if s.carry then s.set .pc imm else s)

/-- CALL (R211): `pc` here is the address after the call. -/
def execCall (imm : Word) (s : State) : Result := succeed ((s.set .ret s.pc).set .pc imm)

end Sys2Proof.Machine
end

