-- ==== Sys2Proof/Machine/Ifkt.lean ====
section
/-! DEFINITION. `ifkt`, the host-interaction instruction (45_ifkt.md). -/

namespace Sys2Proof.Machine

/-- `ifkt 0x1`, character input (R282). -/
def ifktInput (s : State) : Result :=
  match s.consoleAnswer with
  | (.char b, s1) => succeed ((s1.set .acc1 (b.setWidth 32)).emitByte b)
  | (.interrupted, s1) => endStep .error s1

/-- `ifkt 0x2`, character output of the low byte of `acc1` (R283). -/
def ifktOutput (s : State) : Result := succeed (s.emitByte (s.acc1.setWidth 8))

/-- `ifkt 0x3`, terminate (R284). -/
def ifktTerminate (s : State) : Result := endStep .finished s

/-- `ifkt 0x4`, dump the word of MAIN at `dsp` (R285). -/
def ifktDumpWord (s : State) : Result :=
  memReadIn .main s.dsp 4 s fun w => succeed (s.emitDiag (.dumpWord s.dsp w))

/-- The loop of R286: read `count` bytes of MAIN one at a time from `addr` up, then the rest of the rule with all of them.
The first byte out of range raises the fault. -/
def readRange : (count : Nat) → (addr : Word) → State → (List Byte → Result) → Result
  | 0, _, _, rest => rest []
  | count + 1, addr, s, rest =>
    memReadIn .main addr 1 s fun v => readRange count (addr + 1) s fun bs => rest (v.setWidth 8 :: bs)

/-- `ifkt 0x5`, dump the bytes of MAIN from the smaller of `acc1` and `acc2` up to and without the larger, unsigned; the
registers are not swapped (R286). -/
def ifktDumpRange (s : State) : Result :=
  let lo := if s.acc1.toNat ≤ s.acc2.toNat then s.acc1 else s.acc2
  let hi := if s.acc1.toNat ≤ s.acc2.toNat then s.acc2 else s.acc1
  readRange (hi.toNat - lo.toNat) lo s fun bytes => succeed (s.emitDiag (.dumpRange lo hi bytes))

/-- IFKT (R280): dispatch on the code; an unrecognised code ends with `IllegalInstruction` (R287). -/
def execIfkt (code : Half) (s : State) : Result :=
  match code.toNat with
  | 1 => ifktInput s
  | 2 => ifktOutput s
  | 3 => ifktTerminate s
  | 4 => ifktDumpWord s
  | 5 => ifktDumpRange s
  | _ => endStep .illegalInstruction s

end Sys2Proof.Machine
end

