-- ==== Sys2Proof/Machine/Operands.lean ====
section
/-! DEFINITION. The operand forms: register-direct and register-indirect operands of the register move in both widths
(R160 to R162), and the adjusted pointer operand (R165). -/

namespace Sys2Proof.Machine

/-- The two access widths of the move instructions (R161, R162). -/
inductive Width where
  | byte | word
  deriving DecidableEq, Repr

/-- The number of bytes of an access, the `n` of R165. -/
def Width.bytes : Width → Nat
  | .byte => 1
  | .word => 4

/-- What a direct source contributes: the whole register, or its low byte zero-extended (R161, R162). -/
def Width.ofRegister : Width → Word → Word
  | .byte, v => (v.setWidth 8).setWidth 32
  | .word, v => v

/-- Obtain the source value (R160), then the rest of the rule. -/
def readOperand (w : Width) (o : Operand) (s : State) (rest : Word → Result) : Result :=
  match o with
  | .direct r => rest (w.ofRegister (s.get r))
  | .indirect r => memReadIn .main (s.get r) w.bytes s rest

/-- Write the target (R160) and end the instruction. -/
def writeOperand (w : Width) (o : Operand) (v : Word) (s : State) : Result :=
  match o with
  | .direct r => succeed (s.set r v)
  | .indirect r => memWriteIn .main (s.get r) w.bytes v s succeed

/-- The bit `P`: adjust before the access (R165). -/
def adjustsBefore : Adjust → Bool
  | .postInc => false
  | .preInc => true
  | .postDec => false
  | .preDec => true

/-- `delta` of R165, modulo 2^32: minus the width if `D` = 1, plus the width if `D` = 0. -/
def adjustDelta (w : Width) : Adjust → Word
  | .postInc => BitVec.ofNat 32 w.bytes
  | .preInc => BitVec.ofNat 32 w.bytes
  | .postDec => -BitVec.ofNat 32 w.bytes
  | .preDec => -BitVec.ofNat 32 w.bytes

/-- `x[p] <- x[p] + delta`, modulo 2^32 and unchecked (R165). -/
def adjustPointer (w : Width) (m : Adjust) (p : Reg) (s : State) : State := s.set p (s.get p + adjustDelta w m)

/-- The line `if P = 1: x[p] <- x[p] + delta` (R166). -/
def adjustPre (w : Width) (m : Adjust) (p : Reg) (s : State) : State :=
  if adjustsBefore m then adjustPointer w m p s else s

/-- The line `if P = 0: x[p] <- x[p] + delta` (R166). -/
def adjustPost (w : Width) (m : Adjust) (p : Reg) (s : State) : State :=
  if adjustsBefore m then s else adjustPointer w m p s

end Sys2Proof.Machine
end

