-- ==== Sys2Proof/Machine/Moves.lean ====
section
/-! DEFINITION. The move instructions (42_moves.md). Every memory access of the family goes to MAIN, and none touches `C`. -/

namespace Sys2Proof.Machine

/-- The register move: the source value first, then the target (R160). -/
def moveRegister (w : Width) (t src : Operand) (s : State) : Result :=
  readOperand w src s fun v => writeOperand w t v s

/-- The adjusting store, line by line (R166): the value register is read after a pre adjustment and before a post one. -/
def adjustingStore (w : Width) (m : Adjust) (p v : Reg) (s : State) : Result :=
  let s1 := adjustPre w m p s
  memWriteIn .main (s1.get p) w.bytes (s1.get v) s1 fun s2 => succeed (adjustPost w m p s2)

/-- The adjusting load, line by line (R168): a post adjustment comes after the value register is written. -/
def adjustingLoad (w : Width) (v : Reg) (m : Adjust) (p : Reg) (s : State) : Result :=
  let s1 := adjustPre w m p s
  memReadIn .main (s1.get p) w.bytes s1 fun x => succeed (adjustPost w m p (s1.set v x))

/-- MOVR_W (R161). -/
def execMovrW (t src : Operand) (s : State) : Result := moveRegister .word t src s

/-- MOVR_B (R162). -/
def execMovrB (t src : Operand) (s : State) : Result := moveRegister .byte t src s

/-- MOVS_ST_W (R166). -/
def execMovsStW (m : Adjust) (p v : Reg) (s : State) : Result := adjustingStore .word m p v s

/-- MOVS_ST_B (R167). -/
def execMovsStB (m : Adjust) (p v : Reg) (s : State) : Result := adjustingStore .byte m p v s

/-- MOVS_LD_W (R168). -/
def execMovsLdW (v : Reg) (m : Adjust) (p : Reg) (s : State) : Result := adjustingLoad .word v m p s

/-- MOVS_LD_B (R169). -/
def execMovsLdB (v : Reg) (m : Adjust) (p : Reg) (s : State) : Result := adjustingLoad .byte v m p s

/-- MOVI_ACC1 (R172). -/
def execMoviAcc1 (imm : Word) (s : State) : Result := succeed (s.set .acc1 imm)

/-- MOVI_ACC2 (R173). -/
def execMoviAcc2 (imm : Word) (s : State) : Result := succeed (s.set .acc2 imm)

end Sys2Proof.Machine
end

