-- ==== Sys2Proof/Machine/Stack.lean ====
section
/-! DEFINITION. Stack push and pop (44_stack.md). The pointer is the offset of the next free word (R69). -/

namespace Sys2Proof.Machine

/-- Push register `r` on the stack of region `g` whose pointer is `sp` (R230, R232): the value is read first, the word is
written at the pointer, then the pointer grows by 4. -/
def push (g : Region) (sp r : Reg) (s : State) : Result :=
  memWriteIn g (s.get sp) 4 (s.get r) s fun s1 => succeed (s1.set sp (s1.get sp + 4))

/-- Pop the stack of region `g` whose pointer is `sp` into register `r` (R231, R233): `Error` on an empty stack with no
access, else the pointer shrinks by 4, modulo 2^32, and the word there is read and written to `r`. -/
def pop (g : Region) (sp r : Reg) (s : State) : Result :=
  if s.get sp = 0 then endStep .error s
  else
    let s1 := s.set sp (s.get sp - 4)
    memReadIn g (s1.get sp) 4 s1 fun v => succeed (s1.set r v)

/-- DPUSH_IP (R234). -/
def execDpushIp (s : State) : Result := push .dstack .dsp .ip s

/-- DPUSH_WP (R235). -/
def execDpushWp (s : State) : Result := push .dstack .dsp .wp s

/-- DPUSH_RSP (R236). -/
def execDpushRsp (s : State) : Result := push .dstack .dsp .rsp s

/-- DPUSH_DSP (R237). -/
def execDpushDsp (s : State) : Result := push .dstack .dsp .dsp s

/-- DPUSH_ACC1 (R238). -/
def execDpushAcc1 (s : State) : Result := push .dstack .dsp .acc1 s

/-- DPUSH_ACC2 (R239). -/
def execDpushAcc2 (s : State) : Result := push .dstack .dsp .acc2 s

/-- DPUSH_RET (R240). -/
def execDpushRet (s : State) : Result := push .dstack .dsp .ret s

/-- DPUSH_PC (R241). -/
def execDpushPc (s : State) : Result := push .dstack .dsp .pc s

/-- DPOP_IP (R242). -/
def execDpopIp (s : State) : Result := pop .dstack .dsp .ip s

/-- DPOP_WP (R243). -/
def execDpopWp (s : State) : Result := pop .dstack .dsp .wp s

/-- DPOP_RSP (R244). -/
def execDpopRsp (s : State) : Result := pop .dstack .dsp .rsp s

/-- DPOP_DSP (R245). -/
def execDpopDsp (s : State) : Result := pop .dstack .dsp .dsp s

/-- DPOP_ACC1 (R246). -/
def execDpopAcc1 (s : State) : Result := pop .dstack .dsp .acc1 s

/-- DPOP_ACC2 (R247). -/
def execDpopAcc2 (s : State) : Result := pop .dstack .dsp .acc2 s

/-- DPOP_RET (R248). -/
def execDpopRet (s : State) : Result := pop .dstack .dsp .ret s

/-- DPOP_PC (R249). -/
def execDpopPc (s : State) : Result := pop .dstack .dsp .pc s

/-- RPUSH_IP (R250). -/
def execRpushIp (s : State) : Result := push .rstack .rsp .ip s

/-- RPUSH_WP (R251). -/
def execRpushWp (s : State) : Result := push .rstack .rsp .wp s

/-- RPUSH_RSP (R252). -/
def execRpushRsp (s : State) : Result := push .rstack .rsp .rsp s

/-- RPUSH_DSP (R253). -/
def execRpushDsp (s : State) : Result := push .rstack .rsp .dsp s

/-- RPUSH_ACC1 (R254). -/
def execRpushAcc1 (s : State) : Result := push .rstack .rsp .acc1 s

/-- RPUSH_ACC2 (R255). -/
def execRpushAcc2 (s : State) : Result := push .rstack .rsp .acc2 s

/-- RPUSH_RET (R256). -/
def execRpushRet (s : State) : Result := push .rstack .rsp .ret s

/-- RPUSH_PC (R257). -/
def execRpushPc (s : State) : Result := push .rstack .rsp .pc s

/-- RPOP_IP (R258). -/
def execRpopIp (s : State) : Result := pop .rstack .rsp .ip s

/-- RPOP_WP (R259). -/
def execRpopWp (s : State) : Result := pop .rstack .rsp .wp s

/-- RPOP_RSP (R260). -/
def execRpopRsp (s : State) : Result := pop .rstack .rsp .rsp s

/-- RPOP_DSP (R261). -/
def execRpopDsp (s : State) : Result := pop .rstack .rsp .dsp s

/-- RPOP_ACC1 (R262). -/
def execRpopAcc1 (s : State) : Result := pop .rstack .rsp .acc1 s

/-- RPOP_ACC2 (R263). -/
def execRpopAcc2 (s : State) : Result := pop .rstack .rsp .acc2 s

/-- RPOP_RET (R264). -/
def execRpopRet (s : State) : Result := pop .rstack .rsp .ret s

/-- RPOP_PC (R265). -/
def execRpopPc (s : State) : Result := pop .rstack .rsp .pc s

end Sys2Proof.Machine
end

