-- ==== Sys2Proof/Machine/System.lean ====
section
/-! DEFINITION. `nop`, `illegal` and the effect of an unmapped opcode (40_step_nop_illegal.md). -/

namespace Sys2Proof.Machine

/-- NOP (R123): nothing; the fetch has advanced `pc`. -/
def execNop (s : State) : Result := succeed s

/-- ILLEGAL (R124): the outcome `IllegalInstruction`, nothing else. -/
def execIllegal (s : State) : Result := endStep .illegalInstruction s

/-- An unmapped opcode byte (R125): its one byte has been fetched, and the step ends with `IllegalInstruction`. -/
def unmappedOpcode (s : State) : Result := endStep .illegalInstruction s

end Sys2Proof.Machine
end

