-- ==== Sys2Proof/Machine/Dispatch.lean ====
section
/-! DEFINITION. The meaning of each instruction, one arm per constructor. -/

namespace Sys2Proof.Machine

def exec (i : Instr) (s : State) : Host.Outcome State Fault Refusal :=
  match i with
  | .nop => Sys2Proof.Machine.execNop s
  | .movrW t src => Sys2Proof.Machine.execMovrW t src s
  | .movrB t src => Sys2Proof.Machine.execMovrB t src s
  | .movsStW m p v => Sys2Proof.Machine.execMovsStW m p v s
  | .movsStB m p v => Sys2Proof.Machine.execMovsStB m p v s
  | .movsLdW v m p => Sys2Proof.Machine.execMovsLdW v m p s
  | .movsLdB v m p => Sys2Proof.Machine.execMovsLdB v m p s
  | .moviAcc1 imm => Sys2Proof.Machine.execMoviAcc1 imm s
  | .moviAcc2 imm => Sys2Proof.Machine.execMoviAcc2 imm s
  | .addW t a b => Sys2Proof.Machine.execAddW t a b s
  | .subW t a b => Sys2Proof.Machine.execSubW t a b s
  | .orW t a b => Sys2Proof.Machine.execOrW t a b s
  | .andW t a b => Sys2Proof.Machine.execAndW t a b s
  | .xorW t a b => Sys2Proof.Machine.execXorW t a b s
  | .sraW r n => Sys2Proof.Machine.execSraW r n s
  | .jmpiIp => Sys2Proof.Machine.execJmpiIp s
  | .jmpiWp => Sys2Proof.Machine.execJmpiWp s
  | .jmpiRsp => Sys2Proof.Machine.execJmpiRsp s
  | .jmpiDsp => Sys2Proof.Machine.execJmpiDsp s
  | .jmpiAcc1 => Sys2Proof.Machine.execJmpiAcc1 s
  | .jmpiAcc2 => Sys2Proof.Machine.execJmpiAcc2 s
  | .jmpiRet => Sys2Proof.Machine.execJmpiRet s
  | .jmpiPc => Sys2Proof.Machine.execJmpiPc s
  | .jmpdIp => Sys2Proof.Machine.execJmpdIp s
  | .jmpdWp => Sys2Proof.Machine.execJmpdWp s
  | .jmpdRsp => Sys2Proof.Machine.execJmpdRsp s
  | .jmpdDsp => Sys2Proof.Machine.execJmpdDsp s
  | .jmpdAcc1 => Sys2Proof.Machine.execJmpdAcc1 s
  | .jmpdAcc2 => Sys2Proof.Machine.execJmpdAcc2 s
  | .jmpdRet => Sys2Proof.Machine.execJmpdRet s
  | .jmpdPc => Sys2Proof.Machine.execJmpdPc s
  | .jmp imm => Sys2Proof.Machine.execJmp imm s
  | .jz imm => Sys2Proof.Machine.execJz imm s
  | .jc imm => Sys2Proof.Machine.execJc imm s
  | .call imm => Sys2Proof.Machine.execCall imm s
  | .dpushIp => Sys2Proof.Machine.execDpushIp s
  | .dpushWp => Sys2Proof.Machine.execDpushWp s
  | .dpushRsp => Sys2Proof.Machine.execDpushRsp s
  | .dpushDsp => Sys2Proof.Machine.execDpushDsp s
  | .dpushAcc1 => Sys2Proof.Machine.execDpushAcc1 s
  | .dpushAcc2 => Sys2Proof.Machine.execDpushAcc2 s
  | .dpushRet => Sys2Proof.Machine.execDpushRet s
  | .dpushPc => Sys2Proof.Machine.execDpushPc s
  | .dpopIp => Sys2Proof.Machine.execDpopIp s
  | .dpopWp => Sys2Proof.Machine.execDpopWp s
  | .dpopRsp => Sys2Proof.Machine.execDpopRsp s
  | .dpopDsp => Sys2Proof.Machine.execDpopDsp s
  | .dpopAcc1 => Sys2Proof.Machine.execDpopAcc1 s
  | .dpopAcc2 => Sys2Proof.Machine.execDpopAcc2 s
  | .dpopRet => Sys2Proof.Machine.execDpopRet s
  | .dpopPc => Sys2Proof.Machine.execDpopPc s
  | .rpushIp => Sys2Proof.Machine.execRpushIp s
  | .rpushWp => Sys2Proof.Machine.execRpushWp s
  | .rpushRsp => Sys2Proof.Machine.execRpushRsp s
  | .rpushDsp => Sys2Proof.Machine.execRpushDsp s
  | .rpushAcc1 => Sys2Proof.Machine.execRpushAcc1 s
  | .rpushAcc2 => Sys2Proof.Machine.execRpushAcc2 s
  | .rpushRet => Sys2Proof.Machine.execRpushRet s
  | .rpushPc => Sys2Proof.Machine.execRpushPc s
  | .rpopIp => Sys2Proof.Machine.execRpopIp s
  | .rpopWp => Sys2Proof.Machine.execRpopWp s
  | .rpopRsp => Sys2Proof.Machine.execRpopRsp s
  | .rpopDsp => Sys2Proof.Machine.execRpopDsp s
  | .rpopAcc1 => Sys2Proof.Machine.execRpopAcc1 s
  | .rpopAcc2 => Sys2Proof.Machine.execRpopAcc2 s
  | .rpopRet => Sys2Proof.Machine.execRpopRet s
  | .rpopPc => Sys2Proof.Machine.execRpopPc s
  | .ifkt code => Sys2Proof.Machine.execIfkt code s
  | .illegal => Sys2Proof.Machine.execIllegal s

end Sys2Proof.Machine
end

