-- ==== Sys2Proof/Machine/Fetch.lean ====
section
/-! DEFINITION. The engine's fetch (40_step_nop_illegal.md R120 to R122) and `Decode(a)` (30_encoding.md R97). Both read the
accesses of a format and the fields of an instruction from `opcodeMap` (R14). -/

namespace Sys2Proof.Machine

/-- `Fetch8`, `Fetch16`, `Fetch32` (R121) as the bytes they read: read `n` bytes of MAIN at `pc`, then advance `pc`. A
fetch that faults does not advance `pc`, and the fault carries its address. -/
def fetchBytes (n : Nat) (s : State) (rest : List Byte → State → Result) : Result :=
  if Region.main.fits s.pc n then
    rest (s.main.readBytes s.pc.toNat n) (s.set .pc (s.pc + BitVec.ofNat 32 n))
  else raiseMemFault s.pc Region.main.cap s

/-- The operand fetches of an instruction in address order (R122). -/
def fetchOperands : List Nat → State → (List Byte → State → Result) → Result
  | [], s, rest => rest [] s
  | n :: ns, s, rest => fetchBytes n s fun bs s1 => fetchOperands ns s1 fun cs s2 => rest (bs ++ cs) s2

/-- Fetch one whole instruction, then run it; an unmapped opcode fetches nothing more (R122, R125). All fetches come
before the instruction does anything else (R25). -/
def fetchThen (run : Instr → State → Result) (s : State) : Result :=
  fetchBytes 1 s fun opBytes s1 =>
    match opcodeMap ((leWord opBytes).setWidth 8) with
    | none => unmappedOpcode s1
    | some row => fetchOperands row.format.accesses s1 fun bs s2 => run (row.build (leWord bs)) s2

/-- What `Decode(a)` returns (R97). -/
inductive DecodedAt where
  /-- a mapped instruction and its length in bytes -/
  | instr (i : Instr) (length : Nat)
  /-- an unmapped opcode byte, of length 1 -/
  | unknown (op : Byte)
  /-- a byte that is needed is out of range -/
  | memFault (addr : Word) (cap : Nat)
  deriving DecidableEq, Repr

/-- The operand accesses of `Decode(a)` from address `a` up, in ascending order (R97): the bytes, or the address of the
first access that does not fit. -/
def readAccesses (m : Memory) : List Nat → Word → Except Word (List Byte)
  | [], _ => .ok []
  | n :: ns, a =>
    if Region.main.fits a n then
      match readAccesses m ns (a + BitVec.ofNat 32 n) with
      | .ok cs => .ok (m.readBytes a.toNat n ++ cs)
      | .error e => .error e
    else .error a

/-- `Decode(a)` (R97) on the cells of MAIN: total, and it changes nothing. -/
def decodeAt (m : Memory) (a : Word) : DecodedAt :=
  if Region.main.fits a 1 then
    match opcodeMap (m.read a.toNat) with
    | none => .unknown (m.read a.toNat)
    | some row =>
      match readAccesses m row.format.accesses (a + 1) with
      | .ok bs => .instr (row.build (leWord bs)) (1 + row.format.operandLength)
      | .error e => .memFault e Region.main.cap
  else .memFault a Region.main.cap

end Sys2Proof.Machine
end

