-- ==== Sys2Proof/Machine/Step.lean ====
section
/-! DEFINITION. One step (R120), and the host's aid that stores one instruction where the step fetches it. -/

namespace Sys2Proof.Machine

/-- A step: fetch one whole instruction, then perform its rule (R120). -/
def step (s : State) : Host.Outcome State Fault Refusal := fetchThen exec s

/-- `s` with the instruction of one opcode-table word stored in MAIN where the next step fetches: its five bytes, those
above `nbits` zero, from `pc` up. Where five bytes from `pc` would not lie in MAIN, `pc` is set to 0 first: log 13. It
stands for the host's `load_image` (R383): log 12. -/
def State.withFetchWord (s : State) (nbits w : Nat) : State :=
  let a := if s.pc.toNat + 5 ≤ Config.memCap then s.pc else 0
  { s with pc := a, main := s.main.writeBytes a.toNat (tableBytes nbits w) }

end Sys2Proof.Machine
end

