-- ==== Sys2Proof/Machine/Disassembler.lean ====
section
/-! DEFINITION. The disassembler (46_disassembler.md). It renders what `decodeAt` returns and reads no bit a second way
(R14, R328). -/

namespace Sys2Proof.Machine

/-! ## Text conventions (R301) -/

/-- The name of a register with its sigil (R301). -/
def regText : Reg → Text
  | .ip => "%ip".toList
  | .wp => "%wp".toList
  | .rsp => "%rsp".toList
  | .dsp => "%dsp".toList
  | .acc1 => "%acc1".toList
  | .acc2 => "%acc2".toList
  | .ret => "%ret".toList
  | .pc => "%pc".toList

/-- An indirect operand: the register in square brackets (R301). -/
def bracketed (r : Reg) : Text := '[' :: regText r ++ [']']

/-- A hexadecimal digit in lower case; the argument is below 16. -/
def hexDigit (n : Nat) : Char := "0123456789abcdef".toList.getD n '0'

/-- The hexadecimal digits of a number with no leading zero and at least one digit, at most `fuel + 1` of them. -/
def hexDigits : (fuel : Nat) → Nat → Text
  | 0, v => [hexDigit (v % 16)]
  | fuel + 1, v => if v < 16 then [hexDigit v] else hexDigits fuel (v / 16) ++ [hexDigit (v % 16)]

/-- `Hex(v)` (R301) of a number below 2^32. -/
def hexText (v : Nat) : Text := '0' :: 'x' :: hexDigits 7 v

/-- An operand of the register move (R305). -/
def operandText : Operand → Text
  | .direct r => regText r
  | .indirect r => bracketed r

/-- `Adj(D, P, p)` (R306). -/
def adjustText (m : Adjust) (p : Reg) : Text :=
  match m with
  | .postInc => '[' :: regText p ++ "++]".toList
  | .preInc => "[++".toList ++ regText p ++ [']']
  | .postDec => '[' :: regText p ++ "--]".toList
  | .preDec => "[--".toList ++ regText p ++ [']']

/-- A mnemonic and one operand (R301). -/
def line1 (mnemonic : String) (x : Text) : Text := mnemonic.toList ++ ' ' :: x

/-- A mnemonic and two operands, separated by a comma and one space (R301). -/
def line2 (mnemonic : String) (x y : Text) : Text := mnemonic.toList ++ ' ' :: (x ++ ',' :: ' ' :: y)

/-- A mnemonic and three operands (R301). -/
def line3 (mnemonic : String) (x y z : Text) : Text :=
  mnemonic.toList ++ ' ' :: (x ++ ',' :: ' ' :: (y ++ ',' :: ' ' :: z))

/-! ## The text of each instruction -/

/-- `Text(d)` of a mapped instruction (R302 to R326). -/
def instrText : Instr → Text
  | .nop => "nop".toList
  | .movrW t s => line2 "mov.w" (operandText t) (operandText s)
  | .movrB t s => line2 "mov.b" (operandText t) (operandText s)
  | .movsStW m p v => line2 "mov.w" (adjustText m p) (regText v)
  | .movsStB m p v => line2 "mov.b" (adjustText m p) (regText v)
  | .movsLdW v m p => line2 "mov.w" (regText v) (adjustText m p)
  | .movsLdB v m p => line2 "mov.b" (regText v) (adjustText m p)
  | .moviAcc1 imm => line2 "movi" (regText .acc1) (hexText imm.toNat)
  | .moviAcc2 imm => line2 "movi" (regText .acc2) (hexText imm.toNat)
  | .addW t a b => line3 "add.w" (regText t) (regText a) (regText b)
  | .subW t a b => line3 "sub.w" (regText t) (regText a) (regText b)
  | .orW t a b => line3 "or.w" (regText t) (regText a) (regText b)
  | .andW t a b => line3 "and.w" (regText t) (regText a) (regText b)
  | .xorW t a b => line3 "xor.w" (regText t) (regText a) (regText b)
  | .sraW r n => line2 "sra.w" (regText r) (hexText n)
  | .jmpiIp => line1 "jmp" (bracketed .ip)
  | .jmpiWp => line1 "jmp" (bracketed .wp)
  | .jmpiRsp => line1 "jmp" (bracketed .rsp)
  | .jmpiDsp => line1 "jmp" (bracketed .dsp)
  | .jmpiAcc1 => line1 "jmp" (bracketed .acc1)
  | .jmpiAcc2 => line1 "jmp" (bracketed .acc2)
  | .jmpiRet => line1 "jmp" (bracketed .ret)
  | .jmpiPc => line1 "jmp" (bracketed .pc)
  | .jmpdIp => line1 "jmp" (regText .ip)
  | .jmpdWp => line1 "jmp" (regText .wp)
  | .jmpdRsp => line1 "jmp" (regText .rsp)
  | .jmpdDsp => line1 "jmp" (regText .dsp)
  | .jmpdAcc1 => line1 "jmp" (regText .acc1)
  | .jmpdAcc2 => line1 "jmp" (regText .acc2)
  | .jmpdRet => line1 "jmp" (regText .ret)
  | .jmpdPc => line1 "jmp" (regText .pc)
  | .jmp imm => line1 "jmp" (hexText imm.toNat)
  | .jz imm => line1 "jz" (hexText imm.toNat)
  | .jc imm => line1 "jc" (hexText imm.toNat)
  | .call imm => line1 "call" (hexText imm.toNat)
  | .dpushIp => line1 "dpush" (regText .ip)
  | .dpushWp => line1 "dpush" (regText .wp)
  | .dpushRsp => line1 "dpush" (regText .rsp)
  | .dpushDsp => line1 "dpush" (regText .dsp)
  | .dpushAcc1 => line1 "dpush" (regText .acc1)
  | .dpushAcc2 => line1 "dpush" (regText .acc2)
  | .dpushRet => line1 "dpush" (regText .ret)
  | .dpushPc => line1 "dpush" (regText .pc)
  | .dpopIp => line1 "dpop" (regText .ip)
  | .dpopWp => line1 "dpop" (regText .wp)
  | .dpopRsp => line1 "dpop" (regText .rsp)
  | .dpopDsp => line1 "dpop" (regText .dsp)
  | .dpopAcc1 => line1 "dpop" (regText .acc1)
  | .dpopAcc2 => line1 "dpop" (regText .acc2)
  | .dpopRet => line1 "dpop" (regText .ret)
  | .dpopPc => line1 "dpop" (regText .pc)
  | .rpushIp => line1 "rpush" (regText .ip)
  | .rpushWp => line1 "rpush" (regText .wp)
  | .rpushRsp => line1 "rpush" (regText .rsp)
  | .rpushDsp => line1 "rpush" (regText .dsp)
  | .rpushAcc1 => line1 "rpush" (regText .acc1)
  | .rpushAcc2 => line1 "rpush" (regText .acc2)
  | .rpushRet => line1 "rpush" (regText .ret)
  | .rpushPc => line1 "rpush" (regText .pc)
  | .rpopIp => line1 "rpop" (regText .ip)
  | .rpopWp => line1 "rpop" (regText .wp)
  | .rpopRsp => line1 "rpop" (regText .rsp)
  | .rpopDsp => line1 "rpop" (regText .dsp)
  | .rpopAcc1 => line1 "rpop" (regText .acc1)
  | .rpopAcc2 => line1 "rpop" (regText .acc2)
  | .rpopRet => line1 "rpop" (regText .ret)
  | .rpopPc => line1 "rpop" (regText .pc)
  | .ifkt code => line1 "ifkt" (hexText code.toNat)
  | .illegal => "illegal".toList

/-- The text of an unmapped opcode byte: `<unknown XX>`, always two digits (R303). -/
def unknownText (op : Byte) : Text :=
  "<unknown ".toList ++ [hexDigit (op.toNat / 16), hexDigit (op.toNat % 16), '>']

/-- What `disasm` returns (R300): a line of text, or the memory-access fault of the bounds-checked accessor. -/
inductive Disassembly where
  | text (t : Text)
  | memFault (addr : Word) (cap : Nat)
  deriving DecidableEq, Repr

/-- `Text(d)` (R300). -/
def decodedText : DecodedAt → Disassembly
  | .instr i _ => .text (instrText i)
  | .unknown op => .text (unknownText op)
  | .memFault addr cap => .memFault addr cap

/-- `disasm(a)` (R300): it reads MAIN only and changes nothing. -/
def disasm (a : Word) (s : State) : Disassembly := decodedText (decodeAt s.main a)

/-- The source's `disassembleAtPc()` is `disasm(pc)` (R300). -/
def disassembleAtPc (s : State) : Disassembly := disasm s.pc s

end Sys2Proof.Machine
end

