-- ==== Sys2Proof/Machine/Assembler.lean ====
section
/-! DEFINITION. The assembly syntax (46_disassembler.md R330): exactly the strings the disassembler prints, mapped back to
instructions; `encode` gives the canonical bytes (R98). -/

namespace Sys2Proof.Machine

/-- An operand of a line: `reg`, `[reg]`, `adj` or `num` of the grammar (R330). -/
inductive Token where
  | reg (r : Reg)
  | cell (r : Reg)
  | adj (m : Adjust) (r : Reg)
  | num (n : Nat)
  deriving DecidableEq, Repr

/-- The text of a token. -/
def tokenText : Token → Text
  | .reg r => regText r
  | .cell r => bracketed r
  | .adj m r => adjustText m r
  | .num n => hexText n

/-- Every token that names the register `r`. -/
def tokensOf (r : Reg) : List Token :=
  [.reg r, .cell r, .adj .postInc r, .adj .preInc r, .adj .postDec r, .adj .preDec r]

/-- Every token but the numbers. -/
def registerTokens : List Token :=
  tokensOf .ip ++ tokensOf .wp ++ tokensOf .rsp ++ tokensOf .dsp ++ tokensOf .acc1 ++ tokensOf .acc2 ++ tokensOf .ret ++
    tokensOf .pc

/-- The value of a hexadecimal digit in lower case. -/
def hexDigitValue (c : Char) : Option Nat := "0123456789abcdef".toList.findIdx? (fun d => decide (d = c))

/-- The value of hexadecimal digits, most significant first, after those that gave `acc`. -/
def hexValue : (acc : Nat) → Text → Option Nat
  | acc, [] => some acc
  | acc, c :: cs =>
    match hexDigitValue c with
    | some d => hexValue (16 * acc + d) cs
    | none => none

/-- Read one operand. -/
def parseToken (t : Text) : Option Token :=
  match registerTokens.find? (fun k => decide (tokenText k = t)) with
  | some k => some k
  | none =>
    match t with
    | '0' :: 'x' :: ds => (hexValue 0 ds).map Token.num
    | _ => none

/-- The mnemonic, and what stands after the first space if there is one. -/
def splitMnemonic : Text → Text × Option Text
  | [] => ([], none)
  | c :: cs => if c = ' ' then ([], some cs) else (c :: (splitMnemonic cs).1, (splitMnemonic cs).2)

/-- The operands, separated by a comma and one space. -/
def splitOperands : Text → List Text
  | [] => [[]]
  | c :: cs =>
    match splitOperands cs with
    | [] => [[c]]
    | t :: ts => if c = ',' ∧ t.head? = some ' ' then [] :: t.tail :: ts else (c :: t) :: ts

/-- Read all operands. -/
def parseTokens : List Text → Option (List Token)
  | [] => some []
  | t :: ts =>
    match parseToken t, parseTokens ts with
    | some k, some ks => some (k :: ks)
    | _, _ => none

/-- The operands of a line; a line without a space has none. -/
def lineTokens : Option Text → Option (List Token)
  | none => some []
  | some t => parseTokens (splitOperands t)

/-- The instruction `jmp [%r]` of a register. -/
def jmpiOf : Reg → Instr
  | .ip => .jmpiIp
  | .wp => .jmpiWp
  | .rsp => .jmpiRsp
  | .dsp => .jmpiDsp
  | .acc1 => .jmpiAcc1
  | .acc2 => .jmpiAcc2
  | .ret => .jmpiRet
  | .pc => .jmpiPc

/-- The instruction `jmp %r` of a register. -/
def jmpdOf : Reg → Instr
  | .ip => .jmpdIp
  | .wp => .jmpdWp
  | .rsp => .jmpdRsp
  | .dsp => .jmpdDsp
  | .acc1 => .jmpdAcc1
  | .acc2 => .jmpdAcc2
  | .ret => .jmpdRet
  | .pc => .jmpdPc

/-- The instruction `dpush %r` of a register. -/
def dpushOf : Reg → Instr
  | .ip => .dpushIp
  | .wp => .dpushWp
  | .rsp => .dpushRsp
  | .dsp => .dpushDsp
  | .acc1 => .dpushAcc1
  | .acc2 => .dpushAcc2
  | .ret => .dpushRet
  | .pc => .dpushPc

/-- The instruction `dpop %r` of a register. -/
def dpopOf : Reg → Instr
  | .ip => .dpopIp
  | .wp => .dpopWp
  | .rsp => .dpopRsp
  | .dsp => .dpopDsp
  | .acc1 => .dpopAcc1
  | .acc2 => .dpopAcc2
  | .ret => .dpopRet
  | .pc => .dpopPc

/-- The instruction `rpush %r` of a register. -/
def rpushOf : Reg → Instr
  | .ip => .rpushIp
  | .wp => .rpushWp
  | .rsp => .rpushRsp
  | .dsp => .rpushDsp
  | .acc1 => .rpushAcc1
  | .acc2 => .rpushAcc2
  | .ret => .rpushRet
  | .pc => .rpushPc

/-- The instruction `rpop %r` of a register. -/
def rpopOf : Reg → Instr
  | .ip => .rpopIp
  | .wp => .rpopWp
  | .rsp => .rpopRsp
  | .dsp => .rpopDsp
  | .acc1 => .rpopAcc1
  | .acc2 => .rpopAcc2
  | .ret => .rpopRet
  | .pc => .rpopPc

/-- `mop` operands of a register move (R330). -/
def Token.toOperand : Token → Option Operand
  | .reg r => some (.direct r)
  | .cell r => some (.indirect r)
  | _ => none

/-- The `mov` lines of the grammar: the register move, the adjusting store, the adjusting load (R330). -/
def buildMov (move : Operand → Operand → Instr) (store : Adjust → Reg → Reg → Instr) (load : Reg → Adjust → Reg → Instr) :
    List Token → Option Instr
  | [.adj m p, .reg v] => some (store m p v)
  | [.reg v, .adj m p] => some (load v m p)
  | [x, y] =>
    match x.toOperand, y.toOperand with
    | some t, some s => some (move t s)
    | _, _ => none
  | _ => none

/-- The three-register lines of the grammar (R330). -/
def buildAlu (f : Reg → Reg → Reg → Instr) : List Token → Option Instr
  | [.reg t, .reg a, .reg b] => some (f t a b)
  | _ => none

/-- The lines with one number, a 32-bit target (R330). -/
def buildTarget (f : Word → Instr) : List Token → Option Instr
  | [.num n] => some (f (BitVec.ofNat 32 n))
  | _ => none

/-- The lines with one register (R330). -/
def buildStack (f : Reg → Instr) : List Token → Option Instr
  | [.reg r] => some (f r)
  | _ => none

/-- The `movi` lines: only `acc1` and `acc2` (R330). -/
def buildMovi : List Token → Option Instr
  | [.reg .acc1, .num n] => some (.moviAcc1 (BitVec.ofNat 32 n))
  | [.reg .acc2, .num n] => some (.moviAcc2 (BitVec.ofNat 32 n))
  | _ => none

/-- The `sra.w` lines (R330). -/
def buildSra : List Token → Option Instr
  | [.reg r, .num n] => some (.sraW r n)
  | _ => none

/-- The three forms of `jmp`, told apart by their operand (R314). -/
def buildJmp : List Token → Option Instr
  | [.cell r] => some (jmpiOf r)
  | [.reg r] => some (jmpdOf r)
  | [.num n] => some (.jmp (BitVec.ofNat 32 n))
  | _ => none

/-- The `ifkt` lines (R330). -/
def buildIfkt : List Token → Option Instr
  | [.num n] => some (.ifkt (BitVec.ofNat 16 n))
  | _ => none

/-- A line without operands (R330). -/
def buildPlain (i : Instr) : List Token → Option Instr
  | [] => some i
  | _ => none

/-- The instruction a mnemonic and its operands stand for. -/
def buildInstr (m : Text) (ts : List Token) : Option Instr :=
  if m = "nop".toList then buildPlain .nop ts
  else if m = "illegal".toList then buildPlain .illegal ts
  else if m = "mov.w".toList then buildMov .movrW .movsStW .movsLdW ts
  else if m = "mov.b".toList then buildMov .movrB .movsStB .movsLdB ts
  else if m = "movi".toList then buildMovi ts
  else if m = "add.w".toList then buildAlu .addW ts
  else if m = "sub.w".toList then buildAlu .subW ts
  else if m = "or.w".toList then buildAlu .orW ts
  else if m = "and.w".toList then buildAlu .andW ts
  else if m = "xor.w".toList then buildAlu .xorW ts
  else if m = "sra.w".toList then buildSra ts
  else if m = "jmp".toList then buildJmp ts
  else if m = "jz".toList then buildTarget .jz ts
  else if m = "jc".toList then buildTarget .jc ts
  else if m = "call".toList then buildTarget .call ts
  else if m = "dpush".toList then buildStack dpushOf ts
  else if m = "dpop".toList then buildStack dpopOf ts
  else if m = "rpush".toList then buildStack rpushOf ts
  else if m = "rpop".toList then buildStack rpopOf ts
  else if m = "ifkt".toList then buildIfkt ts
  else none

/-- Read a line of the grammar, ranges and spelling not yet checked. -/
def parseLine (t : Text) : Option Instr :=
  match lineTokens (splitMnemonic t).2 with
  | some ts => buildInstr (splitMnemonic t).1 ts
  | none => none

/-- The instruction of a line: exactly the disassembly texts are lines (R330), so a number out of its field's range or with
a leading zero is none. DESIGN CHOICE to accept no more, safe: log 16. -/
def assemble (t : Text) : Option Instr :=
  match parseLine t with
  | some i => if i.wf = true ∧ instrText i = t then some i else none
  | none => none

/-- The canonical bytes of a line (R330, R98). -/
def assembleBytes (t : Text) : Option (List Byte) := (assemble t).map encode

end Sys2Proof.Machine
end

