-- ==== Sys2Proof/Machine/HostPorts.lean ====
section
/-! DEFINITION. The host's ports other than `step` and `run`: the snapshot, `peek`, `load_image` (R13, R30, R31, R62, R383),
and construction with an explicit `MEM_INIT` (R36, R380). All act between steps (R12). -/

namespace Sys2Proof.Machine

/-- The snapshot: the eight register values and the carry flag; memory is no part of it (R30). -/
structure Snapshot where
  ip : Word
  wp : Word
  rsp : Word
  dsp : Word
  acc1 : Word
  acc2 : Word
  ret : Word
  pc : Word
  carry : Bool
  deriving DecidableEq, Repr

/-- `get_state` (R30). -/
def getState (s : State) : Snapshot where
  ip := s.ip
  wp := s.wp
  rsp := s.rsp
  dsp := s.dsp
  acc1 := s.acc1
  acc2 := s.acc2
  ret := s.ret
  pc := s.pc
  carry := s.carry

/-- `set_state`: any nine values are accepted, memory is not touched (R31). -/
def setState (p : Snapshot) (s : State) : State :=
  { s with
    ip := p.ip, wp := p.wp, rsp := p.rsp, dsp := p.dsp, acc1 := p.acc1, acc2 := p.acc2, ret := p.ret, pc := p.pc,
    carry := p.carry }

/-- What `peek` answers (R62). -/
inductive Peek where
  | byte (b : Byte)
  | memFault (addr : Word) (cap : Nat)
  deriving DecidableEq, Repr

/-- `peek(G, addr)`: one byte of a region, bounds-checked, no effect (R62). -/
def peek (g : Region) (addr : Word) (s : State) : Peek :=
  if g.fits addr 1 then .byte (s.byteAt g addr.toNat) else .memFault addr g.cap

/-- What `load_image` reports (R383); it is no step outcome. -/
inductive LoadReport where
  | loaded
  | imageTooLarge
  deriving DecidableEq, Repr

/-- `load_image(bytes)`: the bytes over MAIN from address 0, or nothing at all if they do not fit (R383). -/
def loadImage (image : List Byte) (s : State) : LoadReport × State :=
  if image.length ≤ Config.memCap then (.loaded, { s with main := s.main.writeBytes 0 image })
  else (.imageTooLarge, s)

/-- The cells of a region of capacity `cap` that holds `f a` at each address `a`. -/
def Memory.ofBytes (cap : Nat) (f : Nat → Byte) : Memory :=
  (List.range cap).filterMap fun a => if f a = Config.unlistedByte then none else some (a, f a)

/-- The state after construction for a given `MEM_INIT`, the byte each region holds at each address before the image is
loaded (R7, R36, R380). -/
def State.powerOn (memInit : Region → Nat → Byte) : State :=
  { State.reset with
    main := Memory.ofBytes Config.memCap (memInit .main)
    dstack := Memory.ofBytes Config.dstackCap (memInit .dstack)
    rstack := Memory.ofBytes Config.rstackCap (memInit .rstack) }

/-- The host lines up one more answer for `console_in` (R281). -/
def offerAnswer (a : ConsoleAnswer) (s : State) : State := { s with consoleIn := s.consoleIn ++ [a] }

end Sys2Proof.Machine
end

