-- ==== Sys2Proof/Machine/Run.lean ====
section
/-! DEFINITION. `run(trace)` (R126, R127, R389): steps until an outcome other than `Success`. -/

namespace Sys2Proof.Machine

/-- What is known of a run after at most a given number of steps. -/
inductive RunResult where
  /-- every step so far answered `Success`; the run has not ended -/
  | running (s : State)
  /-- the first outcome that is not `Success`, and the state it left (R389) -/
  | ended (o : StepOutcome) (s : State)
  /-- an instruction without a meaning; no step answers so -/
  | refused (r : Refusal)
  deriving DecidableEq, Repr

/-- What `run` emits before a step when tracing (R126): the address, the opcode byte and the disassembly. Where its own
reads meet the bounds check nothing is emitted, and the step that follows raises the same fault (R127): log 9. -/
def emitTrace (s : State) : State :=
  match disasm s.pc s with
  | .text t => s.emitDiag (.trace s.pc (s.byteAt .main s.pc.toNat) t)
  | .memFault _ _ => s

/-- `run(trace)`, at most `fuel` steps of it (R126): the hardware has no step limit, and a longer run is a run with more
fuel. -/
def run (trace : Bool) : (fuel : Nat) → State → RunResult
  | 0, s => .running s
  | fuel + 1, s =>
    match step (if trace then emitTrace s else s) with
    | .next t => if t.outcome = .success then run trace fuel t else .ended t.outcome t
    | .fault (.memFault addr cap left) => .ended (.memFault addr cap) left
    | .refused r => .refused r

/-- The sequence of console bytes and diagnostic records a run from `start` emitted, in order (R389): what stands in the
state it left after what stood in `start`. -/
def RunResult.emittedSince (start : State) : RunResult → List Emission
  | .running s => s.emitted.drop start.emitted.length
  | .ended _ s => s.emitted.drop start.emitted.length
  | .refused _ => []

end Sys2Proof.Machine
end

