-- ==== Sys2Proof/Safety.lean ====
section
/-! DEFINITION. What a step or a run owes its caller, in the terms claims use (R126, R350, R361). -/

namespace Sys2Proof.Safety

open Sys2Proof.Machine

/-- The outcomes that end a run (R350, R126): every one but `Success`. -/
def terminal (o : StepOutcome) : Bool := decide (o ≠ .success)

/-- The outcomes of a run that has "gone wrong" (R361): `MemFault`, `Error`, `IllegalInstruction`. -/
def goneWrong : StepOutcome → Bool
  | .success => false
  | .finished => false
  | .error => true
  | .illegalInstruction => true
  | .memFault _ _ => true

/-- A step that completed its instruction: outcome `Success` (R351). -/
def Completes (s : State) : Prop := ∃ t, step s = .next t ∧ t.outcome = .success

/-- A step from `s` that reports nothing wrong: it completes, or it is the program's own end (R352). -/
def SafeStep (s : State) : Prop := ∃ t, step s = .next t ∧ goneWrong t.outcome = false

end Sys2Proof.Safety
end

