-- ==== Sys2Proof/Certificates/Slice0/Obligations.lean ====
section
/-! DEFINITION. The statements for the provers, and the vocabulary they are written in. -/

open Sys2Proof Sys2Proof.Machine

/-! ## Vocabulary -/

namespace Sys2Proof.Claims

/-- The 32-bit value in the four bytes from address `a` of a region: the byte at the lowest address is the least
significant (R55). -/
def word32 (s : State) (g : Region) (a : Nat) : Word :=
  s.byteAt g (a + 3) ++ s.byteAt g (a + 2) ++ s.byteAt g (a + 1) ++ s.byteAt g a

/-- From `s` to `t`, the `n` bytes from address `a` of region `g` became the low `n` bytes of `v`, little-endian, and every
other byte of every region reads as before. -/
def Stored (s t : State) (g : Region) (a n : Nat) (v : Word) : Prop :=
  (∀ k, k < n → t.byteAt g (a + k) = v.extractLsb' (8 * k) 8) ∧
  ∀ h x, ¬ (h = g ∧ a ≤ x ∧ x < a + n) → t.byteAt h x = s.byteAt h x

/-- `t` is `s` but for the bytes of the regions: every register, `C`, every port stream and the outcome agree. -/
def SameButMemory (s t : State) : Prop := t = { s with main := t.main, dstack := t.dstack, rstack := t.rstack }

/-- The memory-access fault for an access at `addr` of a region of capacity `cap`, with `s` the state left but for the
outcome. -/
def faultAt (addr : Word) (cap : Nat) (s : State) : Result :=
  .fault (.memFault addr cap { s with outcome := .memFault addr cap })

/-- Where the operand fetch of a format fails, for an instruction at address `a` whose operand bytes leave MAIN: the one
access of FI and FK at `a + 1`, the single bytes of the other formats at the capacity (R122). -/
def operandFault (f : Format) (a : Word) : Word :=
  match f with
  | .FI => a + 1
  | .FK => a + 1
  | _ => 0x8000

/-- The encoding and the fetch of an instruction: its canonical bytes start with opcode `op`, the opcode's format is `f`,
there are `len` of them; a step that finds them whole in MAIN runs the instruction with `pc` advanced by `len`; a step
that finds its opcode where the operand bytes leave MAIN faults and does nothing else. -/
def EncodedAs (i : Instr) (op : Byte) (f : Format) (len : Nat) : Prop :=
  (encode i).head? = some op ∧ (opcodeMap op).map OpcodeRow.format = some f ∧ (encode i).length = len ∧
  (∀ s : State, s.pc.toNat + len ≤ 32768 →
    (∀ k, k < len → (encode i)[k]? = some (s.byteAt .main (s.pc.toNat + k))) →
    step s = exec i { s with pc := s.pc + BitVec.ofNat 32 len }) ∧
  (∀ s : State, s.pc.toNat < 32768 → 32768 < s.pc.toNat + len → s.byteAt .main s.pc.toNat = op →
    step s = faultAt (operandFault f s.pc) 32768 { s with pc := operandFault f s.pc })

/-- The step completed with `Success`, leaving `s` but for the outcome. -/
def success (s : State) : Result := .next { s with outcome := .success }

/-- The pointer of an adjusting move of `n` bytes after its adjustment (R165). -/
def adjusted (n : Word) (m : Adjust) (x : Word) : Word :=
  match m with
  | .postInc => x + n
  | .preInc => x + n
  | .postDec => x - n
  | .preDec => x - n

/-- The address an adjusting move of `n` bytes accesses, from the pointer's old value (R165). -/
def accessed (n : Word) (m : Adjust) (x : Word) : Word :=
  match m with
  | .postInc => x
  | .preInc => x + n
  | .postDec => x
  | .preDec => x - n

/-- The state when an adjusting move makes its access: the pointer is adjusted in the pre modes only. -/
def atAccess (n : Word) (m : Adjust) (p : Reg) (s : State) : State := s.set p (accessed n m (s.get p))

/-- The state after the value register of an adjusting load has been written with `x` and the post adjustment is made. -/
def afterLoad (n : Word) (m : Adjust) (p v : Reg) (x : Word) (s : State) : State :=
  match m with
  | .postInc => (s.set v x).set p ((s.set v x).get p + n)
  | .preInc => (s.set p (s.get p + n)).set v x
  | .postDec => (s.set v x).set p ((s.set v x).get p - n)
  | .preDec => (s.set p (s.get p - n)).set v x

/-- The eight `jmp [%r]` instructions, each with the register its opcode names. -/
def jmpiRows : List (Instr × Reg) :=
  [(.jmpiIp, .ip), (.jmpiWp, .wp), (.jmpiRsp, .rsp), (.jmpiDsp, .dsp),
   (.jmpiAcc1, .acc1), (.jmpiAcc2, .acc2), (.jmpiRet, .ret), (.jmpiPc, .pc)]

/-- The eight `jmp %r` instructions, each with the register its opcode names. -/
def jmpdRows : List (Instr × Reg) :=
  [(.jmpdIp, .ip), (.jmpdWp, .wp), (.jmpdRsp, .rsp), (.jmpdDsp, .dsp),
   (.jmpdAcc1, .acc1), (.jmpdAcc2, .acc2), (.jmpdRet, .ret), (.jmpdPc, .pc)]

/-- The eight `dpush %r` instructions, each with the register its opcode names. -/
def dpushRows : List (Instr × Reg) :=
  [(.dpushIp, .ip), (.dpushWp, .wp), (.dpushRsp, .rsp), (.dpushDsp, .dsp),
   (.dpushAcc1, .acc1), (.dpushAcc2, .acc2), (.dpushRet, .ret), (.dpushPc, .pc)]

/-- The eight `dpop %r` instructions, each with the register its opcode names. -/
def dpopRows : List (Instr × Reg) :=
  [(.dpopIp, .ip), (.dpopWp, .wp), (.dpopRsp, .rsp), (.dpopDsp, .dsp),
   (.dpopAcc1, .acc1), (.dpopAcc2, .acc2), (.dpopRet, .ret), (.dpopPc, .pc)]

/-- The eight `rpush %r` instructions, each with the register its opcode names. -/
def rpushRows : List (Instr × Reg) :=
  [(.rpushIp, .ip), (.rpushWp, .wp), (.rpushRsp, .rsp), (.rpushDsp, .dsp),
   (.rpushAcc1, .acc1), (.rpushAcc2, .acc2), (.rpushRet, .ret), (.rpushPc, .pc)]

/-- The eight `rpop %r` instructions, each with the register its opcode names. -/
def rpopRows : List (Instr × Reg) :=
  [(.rpopIp, .ip), (.rpopWp, .wp), (.rpopRsp, .rsp), (.rpopDsp, .dsp),
   (.rpopAcc1, .acc1), (.rpopAcc2, .acc2), (.rpopRet, .ret), (.rpopPc, .pc)]

/-- The length of an instruction by its opcode byte, as the table of R81 lists it; `none` for an unmapped opcode (R95). -/
def tableLength (op : Nat) : Option Nat :=
  if op = 0x00 then some 1
  else if 0x20 ≤ op ∧ op ≤ 0x25 then some 2
  else if op = 0x26 ∨ op = 0x27 then some 5
  else if 0x30 ≤ op ∧ op ≤ 0x34 then some 3
  else if op = 0x35 then some 2
  else if 0x60 ≤ op ∧ op ≤ 0x6f then some 1
  else if 0x70 ≤ op ∧ op ≤ 0x73 then some 5
  else if 0x80 ≤ op ∧ op ≤ 0x9f then some 1
  else if op = 0xfe then some 3
  else if op = 0xff then some 1
  else none

/-- The unmapped opcode values, as R95 lists them. -/
def unmapped (op : Nat) : Prop :=
  (0x01 ≤ op ∧ op ≤ 0x1f) ∨ (0x28 ≤ op ∧ op ≤ 0x2f) ∨ (0x36 ≤ op ∧ op ≤ 0x5f) ∨ (0x74 ≤ op ∧ op ≤ 0x7f) ∨
    (0xa0 ≤ op ∧ op ≤ 0xfd)

/-- The instruction is a jump or call that is taken in `s`, or names `pc` as a register it writes (R26). -/
def redirectsPc (i : Instr) (s : State) : Prop :=
  match i with
  | .movrW t _ => t = .direct .pc
  | .movrB t _ => t = .direct .pc
  | .movsStW _ p _ => p = .pc
  | .movsStB _ p _ => p = .pc
  | .movsLdW v _ p => v = .pc ∨ p = .pc
  | .movsLdB v _ p => v = .pc ∨ p = .pc
  | .addW t _ _ => t = .pc
  | .subW t _ _ => t = .pc
  | .orW t _ _ => t = .pc
  | .andW t _ _ => t = .pc
  | .xorW t _ _ => t = .pc
  | .sraW r _ => r = .pc
  | .jmp _ => True
  | .call _ => True
  | .jz _ => s.acc1 = 0
  | .jc _ => s.carry = true
  | .dpopPc => True
  | .rpopPc => True
  | i => i ∈ (jmpiRows ++ jmpdRows).map Prod.fst

/-- The pointer an instruction changes before its access, and by how much (R166 to R169, R231, R233). -/
def changedBeforeAccess : Instr → Option (Reg × Word)
  | .movsStW .preInc p _ => some (p, 4)
  | .movsStW .preDec p _ => some (p, -4)
  | .movsStB .preInc p _ => some (p, 1)
  | .movsStB .preDec p _ => some (p, -1)
  | .movsLdW _ .preInc p => some (p, 4)
  | .movsLdW _ .preDec p => some (p, -4)
  | .movsLdB _ .preInc p => some (p, 1)
  | .movsLdB _ .preDec p => some (p, -1)
  | i =>
    if i ∈ dpopRows.map Prod.fst then some (.dsp, -4)
    else if i ∈ rpopRows.map Prod.fst then some (.rsp, -4)
    else none

/-- The state with the pointer an instruction changes before its access already changed. -/
def whenAccessFaults (i : Instr) (s : State) : State :=
  match changedBeforeAccess i with
  | some (p, d) => s.set p (s.get p + d)
  | none => s

/-- `add.w` and `sub.w`, the instructions that write `C` (R29). -/
def writesCarry : Instr → Bool
  | .addW _ _ _ => true
  | .subW _ _ _ => true
  | _ => false

/-- `jc`, the instruction that reads `C` (R29). -/
def readsCarry : Instr → Bool
  | .jc _ => true
  | _ => false

/-- The instructions that may write a byte of MAIN: an indirect target, an adjusting store (R51, R59). -/
def storesToMain : Instr → Bool
  | .movrW (.indirect _) _ => true
  | .movrB (.indirect _) _ => true
  | .movsStW _ _ _ => true
  | .movsStB _ _ _ => true
  | _ => false

/-- A result with a function applied to the state it leaves. -/
def mapState (f : State → State) : Result → Result
  | .next s => .next (f s)
  | .fault (.memFault addr cap s) => .fault (.memFault addr cap (f s))
  | .refused r => .refused r

/-- The state a result leaves, if there is one. -/
def stateLeft : Result → Option State
  | .next s => some s
  | .fault (.memFault _ _ s) => some s
  | .refused _ => none

/-- `k` steps from `s`, each with the outcome `Success`, lead to `t`. -/
def succeeds : Nat → State → State → Prop
  | 0, s, t => t = s
  | k + 1, s, t => ∃ u, step s = .next u ∧ u.outcome = .success ∧ succeeds k u t

/-- The step from `s` ends with outcome `o` and leaves `t`. -/
def EndsWith (s : State) (o : StepOutcome) (t : State) : Prop :=
  (step s = .next t ∧ t.outcome = o) ∨ ∃ addr cap, step s = .fault (.memFault addr cap t) ∧ o = .memFault addr cap

/-- The emission is a trace record of `run(trace)` (R126), not a console byte and not a dump. -/
def isTrace : Emission → Bool
  | .diag (.trace _ _ _) => true
  | _ => false

/-- The state without the trace records it emitted; console bytes and dumps keep their order. -/
def dropTrace (s : State) : State := { s with emitted := s.emitted.filter (fun e => !isTrace e) }

/-- A run's result without the trace records. -/
def forgetTrace : RunResult → RunResult
  | .running s => .running (dropTrace s)
  | .ended o s => .ended o (dropTrace s)
  | .refused r => .refused r

/-- The lower of the two bounds of `ifkt 0x5`, unsigned (R286). -/
def lowBound (s : State) : Word := if s.acc2.toNat < s.acc1.toNat then s.acc2 else s.acc1

/-- The higher of the two bounds of `ifkt 0x5`, unsigned (R286). -/
def highBound (s : State) : Word := if s.acc2.toNat < s.acc1.toNat then s.acc1 else s.acc2

end Sys2Proof.Claims

open Sys2Proof.Claims

/-! ## Encoding -/

/-- R98: `Decode` of `Encode(i)` is `i`, whatever follows; and the bytes that decode to a mapped instruction, their
ignored bits cleared, are its encoding. The spec marks R98 as its own derivation; opcode values and fields are its
decisions D3, D4, D5: log 6. -/
def Obligations.EncodeAndDecodeAreInverse : Prop :=
  (∀ i rest, i.wf = true → decode (encode i ++ rest) = .instr i rest) ∧
  (∀ bs i rest, decode bs = .instr i rest → i.wf = true ∧ ∃ used, bs = used ++ rest ∧ encode i = clearIgnored used)

/-- R81: the opcode byte alone decides how many bytes an instruction takes, as the table lists it; an unmapped opcode takes
its one byte, and a mapped one with too few bytes is no instruction. -/
def Obligations.OpcodeDecidesLength : Prop :=
  ∀ (op : Byte) (bs : List Byte),
    (tableLength op.toNat = none → decode (op :: bs) = .unknown op bs) ∧
    (∀ n, tableLength op.toNat = some n →
      (n ≤ bs.length + 1 → ∃ i, decode (op :: bs) = .instr i ((op :: bs).drop n) ∧ (encode i).length = n) ∧
      (bs.length + 1 < n → decode (op :: bs) = .truncated op))

/-- Words written out from the spec's encodings (and its examples) decode to the instructions they stand for. Opcode
values and fields are the spec's decisions D3, D4: log 6. -/
def Obligations.SampleWordsDecode : Prop :=
  decode [0x26, 0x10, 0x41, 0x32, 0x22] = .instr (.moviAcc1 0x22324110) [] ∧
  decode [0x30, 0x01, 0x04] = .instr (.addW .ip .wp .acc1) [] ∧
  decode [0x35, 0x85] = .instr (.sraW .acc1 5) [] ∧
  decode [0x20, 0x8c] = .instr (.movrW (.indirect .wp) (.direct .acc1)) [] ∧
  decode [0x22, 0xcc] = .instr (.movsStW .preDec .wp .acc1) [] ∧
  decode [0x25, 0x84] = .instr (.movsLdB .acc1 .postDec .ip) [] ∧
  decode [0x73, 0x15, 0x00, 0x00, 0x00] = .instr (.call 0x15) [] ∧
  decode [0x9f] = .instr .rpopPc [] ∧
  decode [0xfe, 0x34, 0x12] = .instr (.ifkt 0x1234) []

/-- R330: a line of the assembly syntax is exactly the disassembly text of an instruction the encoding admits, and
stands for that instruction. The syntax is the spec's decision D26: log 16. -/
def Obligations.AssemblyIsDisassemblyText : Prop :=
  ∀ t i, assemble t = some i ↔ i.wf = true ∧ instrText i = t

/-- R327: the text depends only on the instruction's own bytes; two byte sequences of instructions give the same text
exactly when they differ only in the ignored bits of format FA; an unmapped byte's text is no instruction's and no
other byte's. The spec marks R327 as its own derivation; the texts are its decision D17: log 6. -/
def Obligations.TextDeterminesCanonicalBytes : Prop :=
  (∀ s s' a, (∀ k, k < 5 → s.byteAt .main (a.toNat + k) = s'.byteAt .main (a.toNat + k)) → disasm a s = disasm a s') ∧
  (∀ bs bs' i j, decode bs = .instr i [] → decode bs' = .instr j [] →
    (instrText i = instrText j ↔ clearIgnored bs = clearIgnored bs')) ∧
  (∀ op i, unknownText op ≠ instrText i) ∧
  (∀ op op', unknownText op = unknownText op' → op = op')

/-! ## The step -/

/-- A step runs the instruction that `Decode(pc)` returns, on the state with `pc` past its bytes; at an unmapped
opcode it ends with `IllegalInstruction` after one byte; where `Decode(pc)` faults, it faults alike with `pc` at the
failing access (R97, R120, R121). Where `pc` stands at a fault is the spec's decision D9: log 7. -/
def Obligations.StepRunsDecodedInstruction : Prop :=
  ∀ s : State,
    (∀ i len, decodeAt s.main s.pc = .instr i len → step s = exec i { s with pc := s.pc + BitVec.ofNat 32 len }) ∧
    (∀ op, decodeAt s.main s.pc = .unknown op →
      step s = .next { s with pc := s.pc + 1, outcome := .illegalInstruction }) ∧
    (∀ addr cap, decodeAt s.main s.pc = .memFault addr cap → step s = faultAt addr cap { s with pc := addr })

/-- Where the bytes at `pc` are the encoding of a well-formed instruction and lie in MAIN, a step runs that
instruction on the state with `pc` past them (R98, R120). Rests on the spec's decisions D3 and D4: log 6. -/
def Obligations.StepRunsEncodedInstruction : Prop :=
  ∀ (s : State) (i : Instr), i.wf = true → s.pc.toNat + (encode i).length ≤ 32768 →
    (∀ k, k < (encode i).length → (encode i)[k]? = some (s.byteAt .main (s.pc.toNat + k))) →
    step s = exec i { s with pc := s.pc + BitVec.ofNat 32 (encode i).length }

/-- The fetch that does not fit raises the fault at its own address, with every earlier fetch done and nothing else
changed: the opcode's at `pc`, one operand access of 4 or 2 bytes at `pc + 1`, single operand bytes one at a time
(R121, R122). The operand is fetched whether or not a jump is taken. The spec's decisions D9 and D13: log 7. -/
def Obligations.TruncatedFetchFaults : Prop :=
  ∀ s : State,
    (32768 ≤ s.pc.toNat → step s = faultAt s.pc 32768 s) ∧
    (∀ row, s.pc.toNat < 32768 → opcodeMap (s.byteAt .main s.pc.toNat) = some row →
      ((row.format = .FI ∧ 32768 < s.pc.toNat + 5) ∨ (row.format = .FK ∧ 32768 < s.pc.toNat + 3) ∨
        (row.format ∈ [Format.FA, .FS, .FM, .FP] ∧ s.pc.toNat = 32767) →
          step s = faultAt (s.pc + 1) 32768 { s with pc := s.pc + 1 }) ∧
      (row.format = .FA ∧ s.pc.toNat = 32766 → step s = faultAt (s.pc + 2) 32768 { s with pc := s.pc + 2 }))

/-- R26: an instruction that is not a taken jump or call and does not name `pc` as a target leaves `pc` at its own address
plus its length, which is 1, 2, 3 or 5. -/
def Obligations.PcAdvancesByLength : Prop :=
  ∀ s i len t, decodeAt s.main s.pc = .instr i len → ¬ redirectsPc i s → step s = .next t →
    t.pc = s.pc + BitVec.ofNat 32 len ∧ len = (encode i).length ∧ len ∈ [1, 2, 3, 5]

/-- Nothing latches: a step does not depend on how the last one ended, so a step after a terminal outcome is an
ordinary step from the current `pc` (R34, R361). The field `outcome` is the model's own (log 2). The spec's decision
D21: log 7. -/
def Obligations.StepIgnoresLastOutcome : Prop := ∀ s o, step { s with outcome := o } = step s

/-- R350: a step ends in exactly one of five ways: a next state with one of the four values of `singleStep`, or the
memory-access fault, which the state left records too. No instruction is refused. Five constructors are the spec's
decision D23, their form here is the model's: log 1. -/
def Obligations.StepEndsInOneOfFiveWays : Prop :=
  ∀ s, (∃ t, step s = .next t ∧ t.outcome ∈ [StepOutcome.success, .finished, .error, .illegalInstruction]) ∨
    (∃ addr cap t, step s = .fault (.memFault addr cap t) ∧ t.outcome = .memFault addr cap)

/-- R352: `Finished` is raised only by `ifkt 0x3`, and by it always. -/
def Obligations.FinishedOnlyByTerminate : Prop :=
  ∀ s, (∃ t, step s = .next t ∧ t.outcome = .finished) ↔ decodeAt s.main s.pc = .instr (.ifkt 3) 3

/-- R353: `Error` has three causes: a pop of an empty data stack, a pop of an empty return stack, interrupted console
input. The third cause is the spec's decision D15: log 6. -/
def Obligations.ErrorHasThreeCauses : Prop :=
  ∀ s, (∃ t, step s = .next t ∧ t.outcome = .error) ↔
    ∃ i len, decodeAt s.main s.pc = .instr i len ∧
      ((i ∈ dpopRows.map Prod.fst ∧ s.dsp = 0) ∨ (i ∈ rpopRows.map Prod.fst ∧ s.rsp = 0) ∨
        (i = .ifkt 1 ∧ s.consoleAnswer.1 = .interrupted))

/-- R355: `IllegalInstruction` has three causes: the ILLEGAL instruction, an unmapped opcode, an `ifkt` with an unrecognised
code; `pc` is then past the opcode, or past the code. -/
def Obligations.IllegalHasThreeCauses : Prop :=
  ∀ s,
    ((∃ t, step s = .next t ∧ t.outcome = .illegalInstruction) ↔
      (decodeAt s.main s.pc = .instr .illegal 1 ∨ (∃ op, decodeAt s.main s.pc = .unknown op) ∨
        ∃ code, decodeAt s.main s.pc = .instr (.ifkt code) 3 ∧ (code.toNat = 0 ∨ 5 < code.toNat))) ∧
    (∀ t, step s = .next t → t.outcome = .illegalInstruction →
      ((∃ code, decodeAt s.main s.pc = .instr (.ifkt code) 3) → t.pc = s.pc + 3) ∧
      ((¬ ∃ code, decodeAt s.main s.pc = .instr (.ifkt code) 3) → t.pc = s.pc + 1))

/-- R356: what a terminal outcome leaves. `Finished`, `Error` and `IllegalInstruction` leave everything but `pc`,
which the fetches have advanced (and the console answers an interrupted input took). A fault on a fetch leaves `pc` at
the failed fetch; a fault on an access leaves `pc` past the instruction and the pointer adjusted where the rule
adjusts it first; no byte, no target register, no flag, no port has changed. The spec's decision D9: log 7. -/
def Obligations.TerminalOutcomesLeaveState : Prop :=
  (∀ s t i len, decodeAt s.main s.pc = .instr i len → step s = .next t → t.outcome ≠ .success →
    t = { s with
          pc := s.pc + BitVec.ofNat 32 len, outcome := t.outcome, consoleIn := t.consoleIn,
          consoleAsked := t.consoleAsked } ∧
    (i ≠ .ifkt 1 → t.consoleIn = s.consoleIn ∧ t.consoleAsked = s.consoleAsked)) ∧
  (∀ s t op, decodeAt s.main s.pc = .unknown op → step s = .next t →
    t = { s with pc := s.pc + 1, outcome := .illegalInstruction }) ∧
  (∀ s addr cap left, decodeAt s.main s.pc = .memFault addr cap → step s = .fault left →
    left = .memFault addr cap { s with pc := addr, outcome := .memFault addr cap }) ∧
  (∀ s i len addr cap left, decodeAt s.main s.pc = .instr i len → step s = .fault (.memFault addr cap left) →
    left = { whenAccessFaults i { s with pc := s.pc + BitVec.ofNat 32 len } with outcome := .memFault addr cap })

/-- Every fault of a step carries the capacity of a region and an address from which 1, 2 or 4 bytes exceed it, the
sum taken exactly (R57, R354). The address carried is the spec's decision D7: log 6. -/
def Obligations.FaultCarriesOutOfRangeAccess : Prop :=
  ∀ s addr cap left, step s = .fault (.memFault addr cap left) →
    ∃ g n, cap = Region.cap g ∧ n ∈ [1, 2, 4] ∧ cap < addr.toNat + n

/-! ## Reset and the host's ports -/

/-- R380: after construction every register and `C` are 0 and every region holds `MEM_INIT`, whatever it is. The
values are the spec's decisions D19 and D20: logs 3 and 4. -/
def Obligations.PowerOnState : Prop :=
  ∀ (memInit : Region → Nat → Byte) (g : Region) (a : Nat) (r : Reg), a < g.cap →
    (State.powerOn memInit).get r = 0 ∧ (State.powerOn memInit).carry = false ∧
    (State.powerOn memInit).byteAt g a = memInit g a

/-- The model's choice (log 3): the fixed reset state is construction with `MEM_INIT` all zero. -/
def Obligations.ResetIsPowerOnWithZeroMemory : Prop := State.powerOn (fun _ _ => 0) = State.reset

/-- The canonical form of memory holds after construction, for every `MEM_INIT`, and at reset (log 3). -/
def Obligations.ResetMemoryIsCanonical : Prop :=
  State.reset.wf = true ∧ ∀ memInit, (State.powerOn memInit).wf = true

/-- R383: an image that fits is copied over MAIN from address 0 and nothing else changes; one that does not is rejected whole
and reported. -/
def Obligations.LoadImageIsAllOrNothing : Prop :=
  ∀ (image : List Byte) (s : State),
    (image.length ≤ 32768 → ∃ t, loadImage image s = (.loaded, t) ∧ SameButMemory s t ∧
      (∀ k, k < image.length → image[k]? = some (t.byteAt .main k)) ∧
      (∀ x, image.length ≤ x → t.byteAt .main x = s.byteAt .main x) ∧
      ∀ g x, g ≠ .main → t.byteAt g x = s.byteAt g x) ∧
    (32768 < image.length → loadImage image s = (.imageTooLarge, s))

/-- R30, R31, R62: `set_state` then `get_state` gives the snapshot back and touches nothing else; the snapshot is the
eight registers and `C`; `peek` is the bounds-checked read of one byte. That `set_state` checks nothing is the spec's
decision D28: log 6. -/
def Obligations.SnapshotAndPeekPorts : Prop :=
  (∀ p s, getState (setState p s) = p ∧
    setState p s = { s with
      ip := p.ip, wp := p.wp, rsp := p.rsp, dsp := p.dsp, acc1 := p.acc1, acc2 := p.acc2, ret := p.ret, pc := p.pc,
      carry := p.carry }) ∧
  (∀ s, getState s = ⟨s.get .ip, s.get .wp, s.get .rsp, s.get .dsp, s.get .acc1, s.get .acc2, s.get .ret, s.get .pc,
    s.carry⟩) ∧
  (∀ g addr s, (addr.toNat < g.cap → peek g addr s = .byte (s.byteAt g addr.toNat)) ∧
    (g.cap ≤ addr.toNat → peek g addr s = .memFault addr g.cap))

/-- A run ends at the first step whose outcome is not `Success` and returns it with the state that step left; until
then it is still running; what it emitted, console bytes and diagnostic records in one sequence, stands after what was
emitted before it (R126, R389). `n` bounds the steps looked at: log 10. -/
def Obligations.RunEndsAtFirstTerminalOutcome : Prop :=
  ∀ n s,
    (∀ t, run false n s = .running t ↔ succeeds n s t) ∧
    (∀ o t, run false n s = .ended o t ↔
      ∃ k u, k < n ∧ succeeds k s u ∧ EndsWith u o t ∧ o ≠ .success) ∧
    (∀ trace t, (run trace n s = .running t ∨ ∃ o, run trace n s = .ended o t) →
      t.emitted = s.emitted ++ (run trace n s).emittedSince s)

/-- The trace changes no architectural state: a step does the same, and emits the same, whatever was emitted before it,
and a traced run and an untraced one end alike, with the same registers, flag and memory and the same sequence of console
bytes and dumps, but for the trace records (R127). The spec's decision D30: log 9. -/
def Obligations.TracedRunAgreesWithUntraced : Prop :=
  (∀ (s : State) (l : List Emission), step { s with emitted := l } =
    mapState (fun t : State => { t with emitted := l ++ t.emitted }) (step { s with emitted := [] })) ∧
  ∀ n s, forgetTrace (run true n s) = forgetTrace (run false n s)

/-! ## Memory -/

/-- Every step keeps every region's canonical form (strictly rising addresses below the capacity, no cell equal to what an
unlisted address reads as), whether it answers a next state or a fault (R35, R57; log 3). -/
def Obligations.StepKeepsMemoryCanonical : Prop :=
  ∀ s t, s.wf = true → stateLeft (step s) = some t → t.wf = true

/-- R53: a read in range gives the bytes, the lowest address least significant, zero-extended, and changes nothing; a read
out of range raises the fault. -/
def Obligations.MemReadInIsLittleEndian : Prop :=
  ∀ (g : Region) (addr : Word) (s : State) (rest : Word → Result),
    (addr.toNat + 1 ≤ 32768 → memReadIn g addr 1 s rest = rest ((s.byteAt g addr.toNat).setWidth 32)) ∧
    (addr.toNat + 2 ≤ 32768 →
      memReadIn g addr 2 s rest = rest ((s.byteAt g (addr.toNat + 1) ++ s.byteAt g addr.toNat).setWidth 32)) ∧
    (addr.toNat + 4 ≤ 32768 → memReadIn g addr 4 s rest = rest (word32 s g addr.toNat)) ∧
    (∀ n, n ∈ [1, 2, 4] → 32768 < addr.toNat + n → memReadIn g addr n s rest = faultAt addr 32768 s)

/-- R54: a write in range stores the low bytes little-endian and changes nothing else, and a word written is read back
whole; a write out of range raises the fault and stores nothing. -/
def Obligations.MemWriteInStoresLittleEndian : Prop :=
  ∀ (g : Region) (addr : Word) (n : Nat) (v : Word) (s : State) (rest : State → Result), n = 1 ∨ n = 4 →
    (addr.toNat + n ≤ 32768 → ∃ t, memWriteIn g addr n v s rest = rest t ∧ Stored s t g addr.toNat n v ∧
      SameButMemory s t ∧ (n = 4 → ∀ rest', memReadIn g addr 4 t rest' = rest' v)) ∧
    (32768 < addr.toNat + n → memWriteIn g addr n v s rest = faultAt addr 32768 s)

/-- R56: after a word store a byte read of `a + k` gives byte `k` and a 16-bit read of `a` the low half; after a byte
store to `a + k` a word read of `a` gives the old word with byte `k` replaced. R56 is derived from R55. -/
def Obligations.NarrowAccessesSeeWordBytes : Prop :=
  ∀ (g : Region) (addr v : Word) (s : State) (k : Nat), addr.toNat + 4 ≤ 32768 → k < 4 →
    (s.storeAt g addr 4 v).valueAt g (addr + BitVec.ofNat 32 k) 1 = (v.extractLsb' (8 * k) 8).setWidth 32 ∧
    (s.storeAt g addr 4 v).valueAt g addr 2 = (v.extractLsb' 0 16).setWidth 32 ∧
    (∀ j, j < 4 → ((s.storeAt g (addr + BitVec.ofNat 32 k) 1 v).valueAt g addr 4).extractLsb' (8 * j) 8 =
      if j = k then v.extractLsb' 0 8 else (s.valueAt g addr 4).extractLsb' (8 * j) 8)

/-- A byte of a region changes only by the instructions that R51 and R59 give that region: MAIN by an indirect target
or an adjusting store, DSTACK by `dpush`, RSTACK by `rpush`. That there are three regions so used is the spec's
decision D6: log 6. -/
def Obligations.RegionsChangeOnlyByTheirInstructions : Prop :=
  ∀ i s t, stateLeft (exec i s) = some t →
    (storesToMain i = false → t.main = s.main) ∧
    (i ∉ dpushRows.map Prod.fst → t.dstack = s.dstack) ∧
    (i ∉ rpushRows.map Prod.fst → t.rstack = s.rstack)

/-! ## `nop`, `illegal`, unmapped opcodes -/

/-- R123: `nop` changes nothing beyond the fetch. -/
def Obligations.NopOnlyAdvances : Prop :=
  EncodedAs .nop 0x00 .F0 1 ∧ instrText .nop = "nop".toList ∧ ∀ s, exec .nop s = success s

/-- `illegal` ends the step with `IllegalInstruction` and changes nothing else; `pc` stays past its byte (R124, which rests
on the spec's decision D9 that nothing is rolled back: logs 6 and 7). -/
def Obligations.IllegalEndsStep : Prop :=
  EncodedAs .illegal 0xff .F0 1 ∧ instrText .illegal = "illegal".toList ∧
  ∀ s, exec .illegal s = .next { s with outcome := .illegalInstruction }

/-- R95: a step at an unmapped opcode consumes its one byte and ends with `IllegalInstruction`; the byte `ff` does the same;
the two differ only in what the disassembler prints. -/
def Obligations.UnmappedOpcodeIsIllegal : Prop :=
  ∀ s : State, s.pc.toNat < 32768 →
    (unmapped (s.byteAt .main s.pc.toNat).toNat →
      opcodeMap (s.byteAt .main s.pc.toNat) = none ∧
      step s = .next { s with pc := s.pc + 1, outcome := .illegalInstruction } ∧
      disasm s.pc s = .text (unknownText (s.byteAt .main s.pc.toNat))) ∧
    (s.byteAt .main s.pc.toNat = 0xff →
      step s = .next { s with pc := s.pc + 1, outcome := .illegalInstruction } ∧
      disasm s.pc s = .text "illegal".toList) ∧
    (opcodeMap (s.byteAt .main s.pc.toNat) = none → unmapped (s.byteAt .main s.pc.toNat).toNat)

/-! ## ALU -/

/-- R141: `add.w` writes the sum modulo 2^32 and sets `C` exactly when the sum reaches 2^32; nothing else changes. -/
def Obligations.AddWritesSumAndCarry : Prop :=
  ∀ t a b s, EncodedAs (.addW t a b) 0x30 .FA 3 ∧
    exec (.addW t a b) s =
      success { s.set t (s.get a + s.get b) with carry := decide (2 ^ 32 ≤ (s.get a).toNat + (s.get b).toNat) }

/-- R142: `sub.w` writes the difference modulo 2^32 and sets `C` exactly when the subtrahend exceeds the minuend; nothing
else changes. -/
def Obligations.SubWritesDifferenceAndBorrow : Prop :=
  ∀ t a b s, EncodedAs (.subW t a b) 0x31 .FA 3 ∧
    exec (.subW t a b) s =
      success { s.set t (s.get a - s.get b) with carry := decide ((s.get a).toNat < (s.get b).toNat) }

/-- R143, R144, R145: `or.w`, `and.w`, `xor.w` write the bitwise result of the sources' values before the write; `C` and
everything else keep their values. -/
def Obligations.BitwiseInstructionsWriteTarget : Prop :=
  ∀ t a b s,
    (EncodedAs (.orW t a b) 0x32 .FA 3 ∧ exec (.orW t a b) s = success (s.set t (s.get a ||| s.get b))) ∧
    (EncodedAs (.andW t a b) 0x33 .FA 3 ∧ exec (.andW t a b) s = success (s.set t (s.get a &&& s.get b))) ∧
    (EncodedAs (.xorW t a b) 0x34 .FA 3 ∧ exec (.xorW t a b) s = success (s.set t (s.get a ^^^ s.get b)))

/-- R146: `sra.w` moves bits `31..n` down by `n` and fills the top `n` bits with copies of bit 31; nothing else changes. -/
def Obligations.SraShiftsInSignCopies : Prop :=
  ∀ r n s, n ≤ 31 → EncodedAs (.sraW r n) 0x35 .FS 2 ∧
    ∃ v : Word, exec (.sraW r n) s = success (s.set r v) ∧
      (∀ j, j + n ≤ 31 → v.getLsbD j = (s.get r).getLsbD (j + n)) ∧
      (∀ j, 31 < j + n → j ≤ 31 → v.getLsbD j = (s.get r).getLsbD 31)

/-- R29: `add.w` and `sub.w` write `C` on every execution, whatever it was, and `set_state` does; `jc` and `get_state` read
it; no other instruction writes it or depends on it. -/
def Obligations.CarryWrittenByAddSubReadByJc : Prop :=
  (∀ t a b (s : State) c, ∃ u v, exec (.addW t a b) (s.setCarry c) = success u ∧ exec (.subW t a b) (s.setCarry c) = success v ∧
    u.carry = decide (2 ^ 32 ≤ (s.get a).toNat + (s.get b).toNat) ∧ v.carry = decide ((s.get a).toNat < (s.get b).toNat)) ∧
  (∀ p s, (setState p s).carry = p.carry ∧ (getState s).carry = s.carry) ∧
  (∀ imm (s : State), ∃ u v, exec (.jc imm) (s.setCarry true) = success u ∧ exec (.jc imm) (s.setCarry false) = success v ∧
    u.pc = imm ∧ v.pc = s.pc) ∧
  (∀ i s t, writesCarry i = false → stateLeft (exec i s) = some t → t.carry = s.carry) ∧
  (∀ i s c, readsCarry i = false →
    exec i (s.setCarry c) = mapState (fun t => if writesCarry i then t else t.setCarry c) (exec i s))

/-! ## Moves -/

/-- R161: `mov.w` in its four sub-modes: the value of the source, a register or a little-endian word of MAIN, to the target;
no other register and no other byte changes. The source read is tried before the target write, and a fault changes
nothing. -/
def Obligations.MovWordFourModes : Prop :=
  (∀ t src, EncodedAs (.movrW t src) 0x20 .FM 2) ∧
  (∀ s t r, exec (.movrW (.direct t) (.direct r)) s = success (s.set t (s.get r))) ∧
  (∀ s t r, (s.get r).toNat + 4 ≤ 32768 →
    exec (.movrW (.direct t) (.indirect r)) s = success (s.set t (word32 s .main (s.get r).toNat))) ∧
  (∀ s t r, (s.get t).toNat + 4 ≤ 32768 → ∃ u, exec (.movrW (.indirect t) (.direct r)) s = .next u ∧
    Stored s u .main (s.get t).toNat 4 (s.get r) ∧ SameButMemory { s with outcome := .success } u) ∧
  (∀ s t r, (s.get r).toNat + 4 ≤ 32768 → (s.get t).toNat + 4 ≤ 32768 →
    ∃ u, exec (.movrW (.indirect t) (.indirect r)) s = .next u ∧
      Stored s u .main (s.get t).toNat 4 (word32 s .main (s.get r).toNat) ∧
      SameButMemory { s with outcome := .success } u) ∧
  (∀ s o r, 32768 < (s.get r).toNat + 4 → exec (.movrW o (.indirect r)) s = faultAt (s.get r) 32768 s) ∧
  (∀ s t r, 32768 < (s.get t).toNat + 4 → exec (.movrW (.indirect t) (.direct r)) s = faultAt (s.get t) 32768 s) ∧
  (∀ s t r, (s.get r).toNat + 4 ≤ 32768 → 32768 < (s.get t).toNat + 4 →
    exec (.movrW (.indirect t) (.indirect r)) s = faultAt (s.get t) 32768 s)

/-- R162: `mov.b` in its four sub-modes: the value moved is 8 bits; a direct target receives it zero-extended, an
indirect target is one byte. Faults as `mov.w` with range length 1. The direct to direct form is the spec's decision
D11: log 6. -/
def Obligations.MovByteFourModes : Prop :=
  (∀ t src, EncodedAs (.movrB t src) 0x21 .FM 2) ∧
  (∀ s t r, exec (.movrB (.direct t) (.direct r)) s = success (s.set t (((s.get r).extractLsb' 0 8).setWidth 32))) ∧
  (∀ s t r, (s.get r).toNat < 32768 →
    exec (.movrB (.direct t) (.indirect r)) s = success (s.set t ((s.byteAt .main (s.get r).toNat).setWidth 32))) ∧
  (∀ s t r, (s.get t).toNat < 32768 → ∃ u, exec (.movrB (.indirect t) (.direct r)) s = .next u ∧
    Stored s u .main (s.get t).toNat 1 (s.get r) ∧ SameButMemory { s with outcome := .success } u) ∧
  (∀ s t r, (s.get r).toNat < 32768 → (s.get t).toNat < 32768 →
    ∃ u, exec (.movrB (.indirect t) (.indirect r)) s = .next u ∧
      Stored s u .main (s.get t).toNat 1 ((s.byteAt .main (s.get r).toNat).setWidth 32) ∧
      SameButMemory { s with outcome := .success } u) ∧
  (∀ s o r, 32768 ≤ (s.get r).toNat → exec (.movrB o (.indirect r)) s = faultAt (s.get r) 32768 s) ∧
  (∀ s t r, 32768 ≤ (s.get t).toNat → exec (.movrB (.indirect t) (.direct r)) s = faultAt (s.get t) 32768 s) ∧
  (∀ s t r, (s.get r).toNat < 32768 → 32768 ≤ (s.get t).toNat →
    exec (.movrB (.indirect t) (.indirect r)) s = faultAt (s.get t) 32768 s)

/-- R166: the adjusting word store writes the value register's word, read after a pre and before a post adjustment, at
the address accessed, and leaves the pointer adjusted; no other register and no other byte changes. On a fault the
pointer is adjusted in the pre modes only. The faulting pointer and equal registers are the spec's decisions D9 and
D12: logs 6 and 7. -/
def Obligations.AdjustingWordStore : Prop :=
  ∀ m p v s, EncodedAs (.movsStW m p v) 0x22 .FP 2 ∧
    ((accessed 4 m (s.get p)).toNat + 4 ≤ 32768 → ∃ u, exec (.movsStW m p v) s = .next u ∧
      Stored s u .main (accessed 4 m (s.get p)).toNat 4 ((atAccess 4 m p s).get v) ∧
      SameButMemory { s.set p (adjusted 4 m (s.get p)) with outcome := .success } u) ∧
    (32768 < (accessed 4 m (s.get p)).toNat + 4 →
      exec (.movsStW m p v) s = faultAt (accessed 4 m (s.get p)) 32768 (atAccess 4 m p s))

/-- R167: the adjusting byte store writes the value register's low byte, read after a pre and before a post
adjustment, at the address accessed, and leaves the pointer adjusted; no other register and no other byte changes. On
a fault the pointer is adjusted in the pre modes only. The faulting pointer and equal registers are the spec's
decisions D9 and D12: logs 6 and 7. -/
def Obligations.AdjustingByteStore : Prop :=
  ∀ m p v s, EncodedAs (.movsStB m p v) 0x23 .FP 2 ∧
    ((accessed 1 m (s.get p)).toNat + 1 ≤ 32768 → ∃ u, exec (.movsStB m p v) s = .next u ∧
      Stored s u .main (accessed 1 m (s.get p)).toNat 1 ((atAccess 1 m p s).get v) ∧
      SameButMemory { s.set p (adjusted 1 m (s.get p)) with outcome := .success } u) ∧
    (32768 < (accessed 1 m (s.get p)).toNat + 1 →
      exec (.movsStB m p v) s = faultAt (accessed 1 m (s.get p)) 32768 (atAccess 1 m p s))

/-- R168: the adjusting load writes the word at the address accessed to the value register, before a post and after a
pre adjustment of the pointer; no other register and no byte changes. On a fault the value register is not written and
the pointer is adjusted in the pre modes only. The faulting pointer and equal registers are the spec's decisions D9
and D12: logs 6 and 7. -/
def Obligations.AdjustingWordLoad : Prop :=
  ∀ v m p s, EncodedAs (.movsLdW v m p) 0x24 .FP 2 ∧
    ((accessed 4 m (s.get p)).toNat + 4 ≤ 32768 →
      exec (.movsLdW v m p) s =
        success (afterLoad 4 m p v (word32 s .main (accessed 4 m (s.get p)).toNat) s)) ∧
    (32768 < (accessed 4 m (s.get p)).toNat + 4 →
      exec (.movsLdW v m p) s = faultAt (accessed 4 m (s.get p)) 32768 (atAccess 4 m p s))

/-- R169: the adjusting load writes the byte, zero-extended, at the address accessed to the value register, before a
post and after a pre adjustment of the pointer; no other register and no byte changes. On a fault the value register
is not written and the pointer is adjusted in the pre modes only. The faulting pointer and equal registers are the
spec's decisions D9 and D12: logs 6 and 7. -/
def Obligations.AdjustingByteLoad : Prop :=
  ∀ v m p s, EncodedAs (.movsLdB v m p) 0x25 .FP 2 ∧
    ((accessed 1 m (s.get p)).toNat + 1 ≤ 32768 →
      exec (.movsLdB v m p) s =
        success (afterLoad 1 m p v ((s.byteAt .main (accessed 1 m (s.get p)).toNat).setWidth 32) s)) ∧
    (32768 < (accessed 1 m (s.get p)).toNat + 1 →
      exec (.movsLdB v m p) s = faultAt (accessed 1 m (s.get p)) 32768 (atAccess 1 m p s))

/-- Writing a word through `[reg++]` and reading it back from the pre-increment address yields the written value, and the
pointer ends at base + 4; pre-decrement ends at base - 4 and stores at the decremented address, from where `[reg++]` loads
it back and restores the pointer (R165). -/
def Obligations.AdjustingMovesRoundTrip : Prop :=
  ∀ (p v q : Reg) (s : State), p ≠ v → p ≠ q →
    ((s.get p).toNat + 4 ≤ 32768 → ∃ u w, exec (.movsStW .postInc p v) s = .next u ∧ u.get p = s.get p + 4 ∧
      exec (.movsLdW q .preDec p) u = .next w ∧ w.get q = s.get v ∧ w.get p = s.get p) ∧
    ((s.get p - 4).toNat + 4 ≤ 32768 → ∃ u w, exec (.movsStW .preDec p v) s = .next u ∧ u.get p = s.get p - 4 ∧
      word32 u .main (s.get p - 4).toNat = s.get v ∧
      exec (.movsLdW q .postInc p) u = .next w ∧ w.get q = s.get v ∧ w.get p = s.get p)

/-- R172, R173: `movi` writes the raw literal to `acc1` or `acc2`; nothing else changes. Which opcode loads which
accumulator is the spec's decision D22: log 6. -/
def Obligations.MoviLoadsLiteral : Prop :=
  ∀ imm s,
    (EncodedAs (.moviAcc1 imm) 0x26 .FI 5 ∧ exec (.moviAcc1 imm) s = success { s with acc1 := imm }) ∧
    (EncodedAs (.moviAcc2 imm) 0x27 .FI 5 ∧ exec (.moviAcc2 imm) s = success { s with acc2 := imm })

/-! ## Control transfer -/

/-- R190 to R198: each `jmp [%r]` sets `pc` to the word of MAIN at the register's value and changes nothing else; it faults
where that word does not fit, `pc` staying past the opcode. -/
def Obligations.IndirectJumpsReadTheirCell : Prop :=
  ∀ i r, (i, r) ∈ jmpiRows → EncodedAs i (0x60 + r.index.setWidth 8) .FR 1 ∧ ∀ s,
    ((s.get r).toNat + 4 ≤ 32768 → exec i s = success { s with pc := word32 s .main (s.get r).toNat }) ∧
    (32768 < (s.get r).toNat + 4 → exec i s = faultAt (s.get r) 32768 s)

/-- R199 to R207: each `jmp %r` sets `pc` to the register's value and changes nothing else. -/
def Obligations.DirectJumpsTakeRegister : Prop :=
  ∀ i r, (i, r) ∈ jmpdRows → EncodedAs i (0x68 + r.index.setWidth 8) .FR 1 ∧
    ∀ s, exec i s = success { s with pc := s.get r }

/-- R198: `67 i0 i1 i2 i3` behaves exactly as `jmp imm32` (`70 i0 i1 i2 i3`): a step at either sets `pc` to the word in the
four bytes after the opcode, and where they do not fit it faults alike. The disassembler prints `67` as `jmp [%pc]`. -/
def Obligations.JumpThroughPcIsJumpImmediate : Prop :=
  EncodedAs .jmpiPc 0x67 .FR 1 ∧ instrText .jmpiPc = "jmp [%pc]".toList ∧
  ∀ s : State, s.pc.toNat < 32768 →
    s.byteAt .main s.pc.toNat = 0x67 ∨ s.byteAt .main s.pc.toNat = 0x70 →
    (s.pc.toNat + 5 ≤ 32768 → step s = success { s with pc := word32 s .main (s.pc.toNat + 1) }) ∧
    (32768 < s.pc.toNat + 5 → step s = faultAt (s.pc + 1) 32768 { s with pc := s.pc + 1 })

/-- R208, R209, R210: `jmp` takes its target, `jz` takes it exactly when all 32 bits of `acc1` are zero, `jc` exactly when
`C` is 1; nothing else changes. -/
def Obligations.ImmediateJumps : Prop :=
  ∀ imm s,
    (EncodedAs (.jmp imm) 0x70 .FI 5 ∧ exec (.jmp imm) s = success { s with pc := imm }) ∧
    (EncodedAs (.jz imm) 0x71 .FI 5 ∧
      exec (.jz imm) s = success { s with pc := if s.acc1 = 0 then imm else s.pc }) ∧
    (EncodedAs (.jc imm) 0x72 .FI 5 ∧
      exec (.jc imm) s = success { s with pc := if s.carry = true then imm else s.pc })

/-- R211: `call` saves the address after it in `ret` and jumps to its target; no stack and no memory is touched. A step at a
`call` in MAIN saves its address plus 5. -/
def Obligations.CallSavesReturnAddress : Prop :=
  (∀ imm s, EncodedAs (.call imm) 0x73 .FI 5 ∧ instrText (.call imm) = "call ".toList ++ hexText imm.toNat ∧
    exec (.call imm) s = success { s with ret := s.pc, pc := imm }) ∧
  (∀ s : State, s.pc.toNat + 5 ≤ 32768 → s.byteAt .main s.pc.toNat = 0x73 →
    step s = success { s with ret := s.pc + 5, pc := word32 s .main (s.pc.toNat + 1) })

/-! ## Stacks -/

/-- R230, R234 to R241: each `dpush %r` writes the register's value, read first, at the offset `dsp` of DSTACK and then adds
4 to `dsp`; no other register and no other byte changes. Where the word does not fit it faults and changes nothing. -/
def Obligations.DataPushes : Prop :=
  ∀ i r, (i, r) ∈ dpushRows → EncodedAs i (0x80 + r.index.setWidth 8) .FR 1 ∧ ∀ s,
    (s.dsp.toNat + 4 ≤ 32768 → ∃ u, exec i s = .next u ∧ Stored s u .dstack s.dsp.toNat 4 (s.get r) ∧
      SameButMemory { s with dsp := s.dsp + 4, outcome := .success } u) ∧
    (32768 < s.dsp.toNat + 4 → exec i s = faultAt s.dsp 32768 s)

/-- R231, R242 to R249: each `dpop %r` on an empty stack ends with `Error` and changes nothing else; otherwise it subtracts 4
from `dsp` and writes the word of DSTACK there to the register; no other register and no byte changes. Where the word does
not fit it faults with `dsp` already decremented, which is the spec's decision D9: log 7; the stack discipline is its
decision D8: log 6. -/
def Obligations.DataPops : Prop :=
  ∀ i r, (i, r) ∈ dpopRows → EncodedAs i (0x88 + r.index.setWidth 8) .FR 1 ∧ ∀ s,
    (s.dsp = 0 → exec i s = .next { s with outcome := .error }) ∧
    (s.dsp ≠ 0 → (s.dsp - 4).toNat + 4 ≤ 32768 →
      exec i s = success (({ s with dsp := s.dsp - 4 } : State).set r (word32 s .dstack (s.dsp - 4).toNat))) ∧
    (s.dsp ≠ 0 → 32768 < (s.dsp - 4).toNat + 4 →
      exec i s = faultAt (s.dsp - 4) 32768 { s with dsp := s.dsp - 4 })

/-- R232, R250 to R257: each `rpush %r` writes the register's value, read first, at the offset `rsp` of RSTACK and then adds
4 to `rsp`; no other register and no other byte changes. Where the word does not fit it faults and changes nothing. -/
def Obligations.ReturnPushes : Prop :=
  ∀ i r, (i, r) ∈ rpushRows → EncodedAs i (0x90 + r.index.setWidth 8) .FR 1 ∧ ∀ s,
    (s.rsp.toNat + 4 ≤ 32768 → ∃ u, exec i s = .next u ∧ Stored s u .rstack s.rsp.toNat 4 (s.get r) ∧
      SameButMemory { s with rsp := s.rsp + 4, outcome := .success } u) ∧
    (32768 < s.rsp.toNat + 4 → exec i s = faultAt s.rsp 32768 s)

/-- R233, R258 to R265: each `rpop %r` on an empty stack ends with `Error` and changes nothing else; otherwise it subtracts 4
from `rsp` and writes the word of RSTACK there to the register; no other register and no byte changes. Where the word does
not fit it faults with `rsp` already decremented, which is the spec's decision D9: log 7; the stack discipline is its
decision D8: log 6. -/
def Obligations.ReturnPops : Prop :=
  ∀ i r, (i, r) ∈ rpopRows → EncodedAs i (0x98 + r.index.setWidth 8) .FR 1 ∧ ∀ s,
    (s.rsp = 0 → exec i s = .next { s with outcome := .error }) ∧
    (s.rsp ≠ 0 → (s.rsp - 4).toNat + 4 ≤ 32768 →
      exec i s = success (({ s with rsp := s.rsp - 4 } : State).set r (word32 s .rstack (s.rsp - 4).toNat))) ∧
    (s.rsp ≠ 0 → 32768 < (s.rsp - 4).toNat + 4 →
      exec i s = faultAt (s.rsp - 4) 32768 { s with rsp := s.rsp - 4 })

/-- A word pushed and then popped comes back unchanged in the register popped, and, where that is not the pointer
itself, leaves the pointer where it was; on either stack, for every pair of registers (R266). The spec marks R266 as
its own derivation; it rests on D8: log 6. -/
def Obligations.PushThenPopReturnsWord : Prop :=
  (∀ i r j q, (i, r) ∈ dpushRows → (j, q) ∈ dpopRows → ∀ s, s.dsp.toNat + 4 ≤ 32768 →
    ∃ u w, exec i s = .next u ∧ exec j u = success w ∧ w.get q = s.get r ∧ (q ≠ .dsp → w.dsp = s.dsp)) ∧
  (∀ i r j q, (i, r) ∈ rpushRows → (j, q) ∈ rpopRows → ∀ s, s.rsp.toNat + 4 ≤ 32768 →
    ∃ u w, exec i s = .next u ∧ exec j u = success w ∧ w.get q = s.get r ∧ (q ≠ .rsp → w.rsp = s.rsp))

/-- The two stacks are independent: `dpush` and `dpop` leave `rsp` (unless the pop names it), RSTACK and MAIN as they
were, `rpush` and `rpop` leave `dsp` (unless the pop names it), DSTACK and MAIN, however they end (R266). The spec
marks R266 as its own derivation; it rests on D6 and D8: log 6. -/
def Obligations.StacksAreIndependent : Prop :=
  ∀ i s t, stateLeft (exec i s) = some t →
    (i ∈ (dpushRows ++ dpopRows).map Prod.fst →
      (i ≠ .dpopRsp → t.rsp = s.rsp) ∧ t.rstack = s.rstack ∧ t.main = s.main) ∧
    (i ∈ (rpushRows ++ rpopRows).map Prod.fst →
      (i ≠ .rpopDsp → t.dsp = s.dsp) ∧ t.dstack = s.dstack ∧ t.main = s.main)

/-! ## `ifkt` -/

/-- R282: `ifkt 0x1` puts the answered byte zero-extended in `acc1` and echoes it once; an interrupted input ends with
`Error`, `acc1` unchanged and nothing echoed. With no answer lined up the same holds of the free answer (log 5). That
an interrupted input is an `Error` is the spec's decision D15: log 6. -/
def Obligations.IfktInputEchoesCharacter : Prop :=
  EncodedAs (.ifkt 1) 0xfe .FK 3 ∧
  (∀ s b rest, s.consoleIn = .char b :: rest →
    exec (.ifkt 1) s =
      success { s with acc1 := b.setWidth 32, consoleIn := rest, emitted := s.emitted ++ [.console b] }) ∧
  (∀ s rest, s.consoleIn = .interrupted :: rest →
    exec (.ifkt 1) s = .next { s with consoleIn := rest, outcome := .error }) ∧
  (∀ s, s.consoleIn = [] →
    exec (.ifkt 1) s =
      match Config.consoleAnswer s.consoleAsked with
      | .char b => success { s with
          acc1 := b.setWidth 32, consoleAsked := s.consoleAsked + 1, emitted := s.emitted ++ [.console b] }
      | .interrupted => .next { s with consoleAsked := s.consoleAsked + 1, outcome := .error })

/-- R283, R284: `ifkt 0x2` puts the low byte of `acc1` on the console and changes nothing else; `ifkt 0x3` ends with `Finished`
and changes nothing else. -/
def Obligations.IfktOutputAndTerminate : Prop :=
  (EncodedAs (.ifkt 2) 0xfe .FK 3 ∧
    ∀ s, exec (.ifkt 2) s = success { s with emitted := s.emitted ++ [.console (s.acc1.extractLsb' 0 8)] }) ∧
  (EncodedAs (.ifkt 3) 0xfe .FK 3 ∧ ∀ s, exec (.ifkt 3) s = .next { s with outcome := .finished })

/-- R285: `ifkt 0x4` emits the word of MAIN at `dsp` and changes nothing else; where it does not fit, the fault and no
record. That the word is read from MAIN is the spec's decision D16: log 6. -/
def Obligations.IfktDumpsWordAtDsp : Prop :=
  EncodedAs (.ifkt 4) 0xfe .FK 3 ∧
  ∀ s : State,
    (s.dsp.toNat + 4 ≤ 32768 →
      exec (.ifkt 4) s =
        success { s with emitted := s.emitted ++ [.diag (.dumpWord s.dsp (word32 s .main s.dsp.toNat))] }) ∧
    (32768 < s.dsp.toNat + 4 → exec (.ifkt 4) s = faultAt s.dsp 32768 s)

/-- R286: `ifkt 0x5` emits the bytes of MAIN from the smaller of `acc1` and `acc2` up to and without the larger, and
changes nothing else; a nonempty range that leaves MAIN faults at its first byte out of range and emits nothing. That
the range is half-open is the spec's decision D16: log 6. -/
def Obligations.IfktDumpsRange : Prop :=
  EncodedAs (.ifkt 5) 0xfe .FK 3 ∧
  ∀ s : State,
    (lowBound s = highBound s ∨ (highBound s).toNat ≤ 32768 →
      exec (.ifkt 5) s =
        success { s with
          emitted := s.emitted ++ [.diag (.dumpRange (lowBound s) (highBound s)
            ((List.range ((highBound s).toNat - (lowBound s).toNat)).map
              fun k => s.byteAt .main ((lowBound s).toNat + k)))] }) ∧
    (lowBound s ≠ highBound s → 32768 < (highBound s).toNat →
      exec (.ifkt 5) s = faultAt (if (lowBound s).toNat < 32768 then 0x8000 else lowBound s) 32768 s)

/-- R287: an `ifkt` with any other code ends with `IllegalInstruction` and changes nothing else; it is still printed as `ifkt`
with its code. -/
def Obligations.IfktUnrecognisedCodeIsIllegal : Prop :=
  ∀ code s, code.toNat = 0 ∨ 6 ≤ code.toNat → EncodedAs (.ifkt code) 0xfe .FK 3 ∧
    instrText (.ifkt code) = "ifkt ".toList ++ hexText code.toNat ∧
    exec (.ifkt code) s = .next { s with outcome := .illegalInstruction }
end

