-- ==== Sys2Proof/Laws/Decode.lean ====
section
/-! SUPPORT. The small lemmas of byte order and of the register fields. -/

namespace Sys2Proof

theorem leNat_lt (bs : List Byte) : leNat bs < 256 ^ bs.length := by
  induction bs with
  | nil => simp [leNat]
  | cons b bs ih => have := b.isLt; simp only [leNat, List.length_cons, pow_succ]; omega

@[simp] theorem length_bytesLE (n : Nat) (v : Word) : (bytesLE n v).length = n := by
  induction n generalizing v with
  | zero => rfl
  | succ n ih => simp [bytesLE, ih]

/-- The little-endian bytes of a word are its low bytes (R55). -/
theorem leNat_bytesLE (n : Nat) (v : Word) : leNat (bytesLE n v) = v.toNat % 256 ^ n := by
  induction n generalizing v with
  | zero => simp [bytesLE, leNat, Nat.mod_one]
  | succ n ih =>
    simp only [bytesLE, leNat, ih, BitVec.toNat_setWidth, BitVec.toNat_ushiftRight, Nat.shiftRight_eq_div_pow]
    rw [show (256 : Nat) ^ (n + 1) = 256 * 256 ^ n by rw [Nat.pow_succ, Nat.mul_comm], Nat.mod_mul]

/-- Byte `k` of the little-endian bytes of a word is bits `8k+7` to `8k` (R55). -/
theorem getElem?_bytesLE (n k : Nat) (v : Word) (h : k < n) :
    (bytesLE n v)[k]? = some (v.extractLsb' (8 * k) 8) := by
  induction n generalizing k v with
  | zero => omega
  | succ n ih =>
    cases k with
    | zero =>
      simp only [bytesLE, List.getElem?_cons_zero, Option.some.injEq]
      apply BitVec.eq_of_toNat_eq
      simp
    | succ k =>
      simp only [bytesLE, List.getElem?_cons_succ, ih k _ (by omega), Option.some.injEq]
      apply BitVec.eq_of_toNat_eq
      simp only [BitVec.extractLsb'_toNat, BitVec.toNat_ushiftRight, ← Nat.shiftRight_add]
      congr 2; omega

@[simp] theorem Reg.ofIndex_index (r : Reg) : Reg.ofIndex r.index = r := by cases r <;> rfl

@[simp] theorem Reg.index_ofIndex (x : BitVec 3) : (Reg.ofIndex x).index = x := by
  revert x; decide

@[simp] theorem Operand.ofMode_modeBit (o : Operand) : Operand.ofMode (decide (o.modeBit = 1)) o.reg = o := by
  cases o <;> rfl

end Sys2Proof
end

