-- ==== Sys2Proof/Laws/State.lean ====
section
/-! SUPPORT. The small lemmas of the state: one per field per update, and reads after writes of registers and regions. -/

namespace Sys2Proof.Machine

/-! ## Registers after a register write -/

@[simp] theorem State.set_ip_ip (s : State) (v : Word) : (s.set .ip v).ip = v := rfl
@[simp] theorem State.set_ip_wp (s : State) (v : Word) : (s.set .ip v).wp = s.wp := rfl
@[simp] theorem State.set_ip_rsp (s : State) (v : Word) : (s.set .ip v).rsp = s.rsp := rfl
@[simp] theorem State.set_ip_dsp (s : State) (v : Word) : (s.set .ip v).dsp = s.dsp := rfl
@[simp] theorem State.set_ip_acc1 (s : State) (v : Word) : (s.set .ip v).acc1 = s.acc1 := rfl
@[simp] theorem State.set_ip_acc2 (s : State) (v : Word) : (s.set .ip v).acc2 = s.acc2 := rfl
@[simp] theorem State.set_ip_ret (s : State) (v : Word) : (s.set .ip v).ret = s.ret := rfl
@[simp] theorem State.set_ip_pc (s : State) (v : Word) : (s.set .ip v).pc = s.pc := rfl
@[simp] theorem State.set_wp_ip (s : State) (v : Word) : (s.set .wp v).ip = s.ip := rfl
@[simp] theorem State.set_wp_wp (s : State) (v : Word) : (s.set .wp v).wp = v := rfl
@[simp] theorem State.set_wp_rsp (s : State) (v : Word) : (s.set .wp v).rsp = s.rsp := rfl
@[simp] theorem State.set_wp_dsp (s : State) (v : Word) : (s.set .wp v).dsp = s.dsp := rfl
@[simp] theorem State.set_wp_acc1 (s : State) (v : Word) : (s.set .wp v).acc1 = s.acc1 := rfl
@[simp] theorem State.set_wp_acc2 (s : State) (v : Word) : (s.set .wp v).acc2 = s.acc2 := rfl
@[simp] theorem State.set_wp_ret (s : State) (v : Word) : (s.set .wp v).ret = s.ret := rfl
@[simp] theorem State.set_wp_pc (s : State) (v : Word) : (s.set .wp v).pc = s.pc := rfl
@[simp] theorem State.set_rsp_ip (s : State) (v : Word) : (s.set .rsp v).ip = s.ip := rfl
@[simp] theorem State.set_rsp_wp (s : State) (v : Word) : (s.set .rsp v).wp = s.wp := rfl
@[simp] theorem State.set_rsp_rsp (s : State) (v : Word) : (s.set .rsp v).rsp = v := rfl
@[simp] theorem State.set_rsp_dsp (s : State) (v : Word) : (s.set .rsp v).dsp = s.dsp := rfl
@[simp] theorem State.set_rsp_acc1 (s : State) (v : Word) : (s.set .rsp v).acc1 = s.acc1 := rfl
@[simp] theorem State.set_rsp_acc2 (s : State) (v : Word) : (s.set .rsp v).acc2 = s.acc2 := rfl
@[simp] theorem State.set_rsp_ret (s : State) (v : Word) : (s.set .rsp v).ret = s.ret := rfl
@[simp] theorem State.set_rsp_pc (s : State) (v : Word) : (s.set .rsp v).pc = s.pc := rfl
@[simp] theorem State.set_dsp_ip (s : State) (v : Word) : (s.set .dsp v).ip = s.ip := rfl
@[simp] theorem State.set_dsp_wp (s : State) (v : Word) : (s.set .dsp v).wp = s.wp := rfl
@[simp] theorem State.set_dsp_rsp (s : State) (v : Word) : (s.set .dsp v).rsp = s.rsp := rfl
@[simp] theorem State.set_dsp_dsp (s : State) (v : Word) : (s.set .dsp v).dsp = v := rfl
@[simp] theorem State.set_dsp_acc1 (s : State) (v : Word) : (s.set .dsp v).acc1 = s.acc1 := rfl
@[simp] theorem State.set_dsp_acc2 (s : State) (v : Word) : (s.set .dsp v).acc2 = s.acc2 := rfl
@[simp] theorem State.set_dsp_ret (s : State) (v : Word) : (s.set .dsp v).ret = s.ret := rfl
@[simp] theorem State.set_dsp_pc (s : State) (v : Word) : (s.set .dsp v).pc = s.pc := rfl
@[simp] theorem State.set_acc1_ip (s : State) (v : Word) : (s.set .acc1 v).ip = s.ip := rfl
@[simp] theorem State.set_acc1_wp (s : State) (v : Word) : (s.set .acc1 v).wp = s.wp := rfl
@[simp] theorem State.set_acc1_rsp (s : State) (v : Word) : (s.set .acc1 v).rsp = s.rsp := rfl
@[simp] theorem State.set_acc1_dsp (s : State) (v : Word) : (s.set .acc1 v).dsp = s.dsp := rfl
@[simp] theorem State.set_acc1_acc1 (s : State) (v : Word) : (s.set .acc1 v).acc1 = v := rfl
@[simp] theorem State.set_acc1_acc2 (s : State) (v : Word) : (s.set .acc1 v).acc2 = s.acc2 := rfl
@[simp] theorem State.set_acc1_ret (s : State) (v : Word) : (s.set .acc1 v).ret = s.ret := rfl
@[simp] theorem State.set_acc1_pc (s : State) (v : Word) : (s.set .acc1 v).pc = s.pc := rfl
@[simp] theorem State.set_acc2_ip (s : State) (v : Word) : (s.set .acc2 v).ip = s.ip := rfl
@[simp] theorem State.set_acc2_wp (s : State) (v : Word) : (s.set .acc2 v).wp = s.wp := rfl
@[simp] theorem State.set_acc2_rsp (s : State) (v : Word) : (s.set .acc2 v).rsp = s.rsp := rfl
@[simp] theorem State.set_acc2_dsp (s : State) (v : Word) : (s.set .acc2 v).dsp = s.dsp := rfl
@[simp] theorem State.set_acc2_acc1 (s : State) (v : Word) : (s.set .acc2 v).acc1 = s.acc1 := rfl
@[simp] theorem State.set_acc2_acc2 (s : State) (v : Word) : (s.set .acc2 v).acc2 = v := rfl
@[simp] theorem State.set_acc2_ret (s : State) (v : Word) : (s.set .acc2 v).ret = s.ret := rfl
@[simp] theorem State.set_acc2_pc (s : State) (v : Word) : (s.set .acc2 v).pc = s.pc := rfl
@[simp] theorem State.set_ret_ip (s : State) (v : Word) : (s.set .ret v).ip = s.ip := rfl
@[simp] theorem State.set_ret_wp (s : State) (v : Word) : (s.set .ret v).wp = s.wp := rfl
@[simp] theorem State.set_ret_rsp (s : State) (v : Word) : (s.set .ret v).rsp = s.rsp := rfl
@[simp] theorem State.set_ret_dsp (s : State) (v : Word) : (s.set .ret v).dsp = s.dsp := rfl
@[simp] theorem State.set_ret_acc1 (s : State) (v : Word) : (s.set .ret v).acc1 = s.acc1 := rfl
@[simp] theorem State.set_ret_acc2 (s : State) (v : Word) : (s.set .ret v).acc2 = s.acc2 := rfl
@[simp] theorem State.set_ret_ret (s : State) (v : Word) : (s.set .ret v).ret = v := rfl
@[simp] theorem State.set_ret_pc (s : State) (v : Word) : (s.set .ret v).pc = s.pc := rfl
@[simp] theorem State.set_pc_ip (s : State) (v : Word) : (s.set .pc v).ip = s.ip := rfl
@[simp] theorem State.set_pc_wp (s : State) (v : Word) : (s.set .pc v).wp = s.wp := rfl
@[simp] theorem State.set_pc_rsp (s : State) (v : Word) : (s.set .pc v).rsp = s.rsp := rfl
@[simp] theorem State.set_pc_dsp (s : State) (v : Word) : (s.set .pc v).dsp = s.dsp := rfl
@[simp] theorem State.set_pc_acc1 (s : State) (v : Word) : (s.set .pc v).acc1 = s.acc1 := rfl
@[simp] theorem State.set_pc_acc2 (s : State) (v : Word) : (s.set .pc v).acc2 = s.acc2 := rfl
@[simp] theorem State.set_pc_ret (s : State) (v : Word) : (s.set .pc v).ret = s.ret := rfl
@[simp] theorem State.set_pc_pc (s : State) (v : Word) : (s.set .pc v).pc = v := rfl

/-- A read after a write of a register (R9). -/
theorem State.get_set (s : State) (r q : Reg) (v : Word) : (s.set r v).get q = if q = r then v else s.get q := by
  cases r <;> cases q <;> rfl

@[simp] theorem State.get_set_self (s : State) (r : Reg) (v : Word) : (s.set r v).get r = v := by
  cases r <;> rfl

theorem State.get_set_ne (s : State) {r q : Reg} (v : Word) (h : q ≠ r) : (s.set r v).get q = s.get q := by
  rw [State.get_set, if_neg h]

/-- Writing back what a register holds changes nothing. -/
@[simp] theorem State.set_get (s : State) (r : Reg) : s.set r (s.get r) = s := by
  cases r <;> rfl

/-! ## Every other field after a register write -/

@[simp] theorem State.set_carry (s : State) (r : Reg) (v : Word) : (s.set r v).carry = s.carry := by cases r <;> rfl
@[simp] theorem State.set_main (s : State) (r : Reg) (v : Word) : (s.set r v).main = s.main := by cases r <;> rfl
@[simp] theorem State.set_dstack (s : State) (r : Reg) (v : Word) : (s.set r v).dstack = s.dstack := by cases r <;> rfl
@[simp] theorem State.set_rstack (s : State) (r : Reg) (v : Word) : (s.set r v).rstack = s.rstack := by cases r <;> rfl
@[simp] theorem State.set_consoleIn (s : State) (r : Reg) (v : Word) : (s.set r v).consoleIn = s.consoleIn := by cases r <;> rfl
@[simp] theorem State.set_consoleAsked (s : State) (r : Reg) (v : Word) : (s.set r v).consoleAsked = s.consoleAsked := by cases r <;> rfl
@[simp] theorem State.set_emitted (s : State) (r : Reg) (v : Word) : (s.set r v).emitted = s.emitted := by cases r <;> rfl
@[simp] theorem State.set_outcome (s : State) (r : Reg) (v : Word) : (s.set r v).outcome = s.outcome := by cases r <;> rfl
@[simp] theorem State.set_region (s : State) (r : Reg) (v : Word) (g : Region) : (s.set r v).region g = s.region g := by
  cases r <;> cases g <;> rfl
@[simp] theorem State.set_byteAt (s : State) (r : Reg) (v : Word) (g : Region) (a : Nat) :
    (s.set r v).byteAt g a = s.byteAt g a := by simp [State.byteAt]
@[simp] theorem State.set_valueAt (s : State) (r : Reg) (v : Word) (g : Region) (a : Word) (n : Nat) :
    (s.set r v).valueAt g a n = s.valueAt g a n := by simp [State.valueAt]

/-! ## The named registers through `get` -/

theorem State.get_ip (s : State) : s.get .ip = s.ip := rfl
theorem State.get_wp (s : State) : s.get .wp = s.wp := rfl
theorem State.get_rsp (s : State) : s.get .rsp = s.rsp := rfl
theorem State.get_dsp (s : State) : s.get .dsp = s.dsp := rfl
theorem State.get_acc1 (s : State) : s.get .acc1 = s.acc1 := rfl
theorem State.get_acc2 (s : State) : s.get .acc2 = s.acc2 := rfl
theorem State.get_ret (s : State) : s.get .ret = s.ret := rfl
theorem State.get_pc (s : State) : s.get .pc = s.pc := rfl

/-! ## Every field after `setCarry` -/

@[simp] theorem State.setCarry_ip (s : State) (b : Bool) : (s.setCarry b).ip = s.ip := rfl
@[simp] theorem State.setCarry_wp (s : State) (b : Bool) : (s.setCarry b).wp = s.wp := rfl
@[simp] theorem State.setCarry_rsp (s : State) (b : Bool) : (s.setCarry b).rsp = s.rsp := rfl
@[simp] theorem State.setCarry_dsp (s : State) (b : Bool) : (s.setCarry b).dsp = s.dsp := rfl
@[simp] theorem State.setCarry_acc1 (s : State) (b : Bool) : (s.setCarry b).acc1 = s.acc1 := rfl
@[simp] theorem State.setCarry_acc2 (s : State) (b : Bool) : (s.setCarry b).acc2 = s.acc2 := rfl
@[simp] theorem State.setCarry_ret (s : State) (b : Bool) : (s.setCarry b).ret = s.ret := rfl
@[simp] theorem State.setCarry_pc (s : State) (b : Bool) : (s.setCarry b).pc = s.pc := rfl
@[simp] theorem State.setCarry_main (s : State) (b : Bool) : (s.setCarry b).main = s.main := rfl
@[simp] theorem State.setCarry_dstack (s : State) (b : Bool) : (s.setCarry b).dstack = s.dstack := rfl
@[simp] theorem State.setCarry_rstack (s : State) (b : Bool) : (s.setCarry b).rstack = s.rstack := rfl
@[simp] theorem State.setCarry_consoleIn (s : State) (b : Bool) : (s.setCarry b).consoleIn = s.consoleIn := rfl
@[simp] theorem State.setCarry_consoleAsked (s : State) (b : Bool) : (s.setCarry b).consoleAsked = s.consoleAsked := rfl
@[simp] theorem State.setCarry_emitted (s : State) (b : Bool) : (s.setCarry b).emitted = s.emitted := rfl
@[simp] theorem State.setCarry_outcome (s : State) (b : Bool) : (s.setCarry b).outcome = s.outcome := rfl
@[simp] theorem State.setCarry_get (s : State) (b : Bool) (r : Reg) : (s.setCarry b).get r = s.get r := by cases r <;> rfl
@[simp] theorem State.setCarry_region (s : State) (b : Bool) (g : Region) : (s.setCarry b).region g = s.region g := by cases g <;> rfl
@[simp] theorem State.setCarry_carry (s : State) (b : Bool) : (s.setCarry b).carry = b := rfl

/-! ## Every field after `emitByte` -/

@[simp] theorem State.emitByte_ip (s : State) (b : Byte) : (s.emitByte b).ip = s.ip := rfl
@[simp] theorem State.emitByte_wp (s : State) (b : Byte) : (s.emitByte b).wp = s.wp := rfl
@[simp] theorem State.emitByte_rsp (s : State) (b : Byte) : (s.emitByte b).rsp = s.rsp := rfl
@[simp] theorem State.emitByte_dsp (s : State) (b : Byte) : (s.emitByte b).dsp = s.dsp := rfl
@[simp] theorem State.emitByte_acc1 (s : State) (b : Byte) : (s.emitByte b).acc1 = s.acc1 := rfl
@[simp] theorem State.emitByte_acc2 (s : State) (b : Byte) : (s.emitByte b).acc2 = s.acc2 := rfl
@[simp] theorem State.emitByte_ret (s : State) (b : Byte) : (s.emitByte b).ret = s.ret := rfl
@[simp] theorem State.emitByte_pc (s : State) (b : Byte) : (s.emitByte b).pc = s.pc := rfl
@[simp] theorem State.emitByte_carry (s : State) (b : Byte) : (s.emitByte b).carry = s.carry := rfl
@[simp] theorem State.emitByte_main (s : State) (b : Byte) : (s.emitByte b).main = s.main := rfl
@[simp] theorem State.emitByte_dstack (s : State) (b : Byte) : (s.emitByte b).dstack = s.dstack := rfl
@[simp] theorem State.emitByte_rstack (s : State) (b : Byte) : (s.emitByte b).rstack = s.rstack := rfl
@[simp] theorem State.emitByte_consoleIn (s : State) (b : Byte) : (s.emitByte b).consoleIn = s.consoleIn := rfl
@[simp] theorem State.emitByte_consoleAsked (s : State) (b : Byte) : (s.emitByte b).consoleAsked = s.consoleAsked := rfl
@[simp] theorem State.emitByte_outcome (s : State) (b : Byte) : (s.emitByte b).outcome = s.outcome := rfl
@[simp] theorem State.emitByte_get (s : State) (b : Byte) (r : Reg) : (s.emitByte b).get r = s.get r := by cases r <;> rfl
@[simp] theorem State.emitByte_region (s : State) (b : Byte) (g : Region) : (s.emitByte b).region g = s.region g := by cases g <;> rfl
@[simp] theorem State.emitByte_emitted (s : State) (b : Byte) : (s.emitByte b).emitted = s.emitted ++ [.console b] := rfl

/-! ## Every field after `emitDiag` -/

@[simp] theorem State.emitDiag_ip (s : State) (d : DiagRecord) : (s.emitDiag d).ip = s.ip := rfl
@[simp] theorem State.emitDiag_wp (s : State) (d : DiagRecord) : (s.emitDiag d).wp = s.wp := rfl
@[simp] theorem State.emitDiag_rsp (s : State) (d : DiagRecord) : (s.emitDiag d).rsp = s.rsp := rfl
@[simp] theorem State.emitDiag_dsp (s : State) (d : DiagRecord) : (s.emitDiag d).dsp = s.dsp := rfl
@[simp] theorem State.emitDiag_acc1 (s : State) (d : DiagRecord) : (s.emitDiag d).acc1 = s.acc1 := rfl
@[simp] theorem State.emitDiag_acc2 (s : State) (d : DiagRecord) : (s.emitDiag d).acc2 = s.acc2 := rfl
@[simp] theorem State.emitDiag_ret (s : State) (d : DiagRecord) : (s.emitDiag d).ret = s.ret := rfl
@[simp] theorem State.emitDiag_pc (s : State) (d : DiagRecord) : (s.emitDiag d).pc = s.pc := rfl
@[simp] theorem State.emitDiag_carry (s : State) (d : DiagRecord) : (s.emitDiag d).carry = s.carry := rfl
@[simp] theorem State.emitDiag_main (s : State) (d : DiagRecord) : (s.emitDiag d).main = s.main := rfl
@[simp] theorem State.emitDiag_dstack (s : State) (d : DiagRecord) : (s.emitDiag d).dstack = s.dstack := rfl
@[simp] theorem State.emitDiag_rstack (s : State) (d : DiagRecord) : (s.emitDiag d).rstack = s.rstack := rfl
@[simp] theorem State.emitDiag_consoleIn (s : State) (d : DiagRecord) : (s.emitDiag d).consoleIn = s.consoleIn := rfl
@[simp] theorem State.emitDiag_consoleAsked (s : State) (d : DiagRecord) : (s.emitDiag d).consoleAsked = s.consoleAsked := rfl
@[simp] theorem State.emitDiag_outcome (s : State) (d : DiagRecord) : (s.emitDiag d).outcome = s.outcome := rfl
@[simp] theorem State.emitDiag_get (s : State) (d : DiagRecord) (r : Reg) : (s.emitDiag d).get r = s.get r := by cases r <;> rfl
@[simp] theorem State.emitDiag_region (s : State) (d : DiagRecord) (g : Region) : (s.emitDiag d).region g = s.region g := by cases g <;> rfl
@[simp] theorem State.emitDiag_emitted (s : State) (d : DiagRecord) : (s.emitDiag d).emitted = s.emitted ++ [.diag d] := rfl

/-! ## The two ports' own sequences after an emission -/

@[simp] theorem State.emitByte_consoleOut (s : State) (b : Byte) : (s.emitByte b).consoleOut = s.consoleOut ++ [b] := by
  simp [State.consoleOut, Emission.byte?]
@[simp] theorem State.emitByte_diag (s : State) (b : Byte) : (s.emitByte b).diag = s.diag := by
  simp [State.diag, Emission.record?]
@[simp] theorem State.emitDiag_consoleOut (s : State) (d : DiagRecord) : (s.emitDiag d).consoleOut = s.consoleOut := by
  simp [State.consoleOut, Emission.byte?]
@[simp] theorem State.emitDiag_diag (s : State) (d : DiagRecord) : (s.emitDiag d).diag = s.diag ++ [d] := by
  simp [State.diag, Emission.record?]

/-! ## Every field after `setOutcome` -/

@[simp] theorem State.setOutcome_ip (s : State) (o : StepOutcome) : (s.setOutcome o).ip = s.ip := rfl
@[simp] theorem State.setOutcome_wp (s : State) (o : StepOutcome) : (s.setOutcome o).wp = s.wp := rfl
@[simp] theorem State.setOutcome_rsp (s : State) (o : StepOutcome) : (s.setOutcome o).rsp = s.rsp := rfl
@[simp] theorem State.setOutcome_dsp (s : State) (o : StepOutcome) : (s.setOutcome o).dsp = s.dsp := rfl
@[simp] theorem State.setOutcome_acc1 (s : State) (o : StepOutcome) : (s.setOutcome o).acc1 = s.acc1 := rfl
@[simp] theorem State.setOutcome_acc2 (s : State) (o : StepOutcome) : (s.setOutcome o).acc2 = s.acc2 := rfl
@[simp] theorem State.setOutcome_ret (s : State) (o : StepOutcome) : (s.setOutcome o).ret = s.ret := rfl
@[simp] theorem State.setOutcome_pc (s : State) (o : StepOutcome) : (s.setOutcome o).pc = s.pc := rfl
@[simp] theorem State.setOutcome_carry (s : State) (o : StepOutcome) : (s.setOutcome o).carry = s.carry := rfl
@[simp] theorem State.setOutcome_main (s : State) (o : StepOutcome) : (s.setOutcome o).main = s.main := rfl
@[simp] theorem State.setOutcome_dstack (s : State) (o : StepOutcome) : (s.setOutcome o).dstack = s.dstack := rfl
@[simp] theorem State.setOutcome_rstack (s : State) (o : StepOutcome) : (s.setOutcome o).rstack = s.rstack := rfl
@[simp] theorem State.setOutcome_consoleIn (s : State) (o : StepOutcome) : (s.setOutcome o).consoleIn = s.consoleIn := rfl
@[simp] theorem State.setOutcome_consoleAsked (s : State) (o : StepOutcome) : (s.setOutcome o).consoleAsked = s.consoleAsked := rfl
@[simp] theorem State.setOutcome_emitted (s : State) (o : StepOutcome) : (s.setOutcome o).emitted = s.emitted := rfl
@[simp] theorem State.setOutcome_outcome (s : State) (o : StepOutcome) : (s.setOutcome o).outcome = o := rfl
@[simp] theorem State.setOutcome_get (s : State) (o : StepOutcome) (r : Reg) : (s.setOutcome o).get r = s.get r := by
  cases r <;> rfl
@[simp] theorem State.setOutcome_region (s : State) (o : StepOutcome) (g : Region) :
    (s.setOutcome o).region g = s.region g := by cases g <;> rfl
@[simp] theorem State.setOutcome_byteAt (s : State) (o : StepOutcome) (g : Region) (a : Nat) :
    (s.setOutcome o).byteAt g a = s.byteAt g a := by simp [State.byteAt]

/-! ## Every field after a region is replaced -/

@[simp] theorem State.setRegion_ip (s : State) (g : Region) (m : Memory) : (s.setRegion g m).ip = s.ip := by cases g <;> rfl
@[simp] theorem State.setRegion_wp (s : State) (g : Region) (m : Memory) : (s.setRegion g m).wp = s.wp := by cases g <;> rfl
@[simp] theorem State.setRegion_rsp (s : State) (g : Region) (m : Memory) : (s.setRegion g m).rsp = s.rsp := by cases g <;> rfl
@[simp] theorem State.setRegion_dsp (s : State) (g : Region) (m : Memory) : (s.setRegion g m).dsp = s.dsp := by cases g <;> rfl
@[simp] theorem State.setRegion_acc1 (s : State) (g : Region) (m : Memory) : (s.setRegion g m).acc1 = s.acc1 := by cases g <;> rfl
@[simp] theorem State.setRegion_acc2 (s : State) (g : Region) (m : Memory) : (s.setRegion g m).acc2 = s.acc2 := by cases g <;> rfl
@[simp] theorem State.setRegion_ret (s : State) (g : Region) (m : Memory) : (s.setRegion g m).ret = s.ret := by cases g <;> rfl
@[simp] theorem State.setRegion_pc (s : State) (g : Region) (m : Memory) : (s.setRegion g m).pc = s.pc := by cases g <;> rfl
@[simp] theorem State.setRegion_carry (s : State) (g : Region) (m : Memory) : (s.setRegion g m).carry = s.carry := by cases g <;> rfl
@[simp] theorem State.setRegion_consoleIn (s : State) (g : Region) (m : Memory) : (s.setRegion g m).consoleIn = s.consoleIn := by cases g <;> rfl
@[simp] theorem State.setRegion_consoleAsked (s : State) (g : Region) (m : Memory) : (s.setRegion g m).consoleAsked = s.consoleAsked := by cases g <;> rfl
@[simp] theorem State.setRegion_emitted (s : State) (g : Region) (m : Memory) : (s.setRegion g m).emitted = s.emitted := by cases g <;> rfl
@[simp] theorem State.setRegion_outcome (s : State) (g : Region) (m : Memory) : (s.setRegion g m).outcome = s.outcome := by cases g <;> rfl
@[simp] theorem State.setRegion_get (s : State) (g : Region) (m : Memory) (r : Reg) :
    (s.setRegion g m).get r = s.get r := by cases g <;> cases r <;> rfl

/-- The cells of a region after one region is replaced. -/
theorem State.region_setRegion (s : State) (g h : Region) (m : Memory) :
    (s.setRegion g m).region h = if h = g then m else s.region h := by
  cases g <;> cases h <;> rfl

@[simp] theorem State.region_setRegion_self (s : State) (g : Region) (m : Memory) :
    (s.setRegion g m).region g = m := by cases g <;> rfl

theorem State.region_setRegion_ne (s : State) {g h : Region} (m : Memory) (hne : h ≠ g) :
    (s.setRegion g m).region h = s.region h := by rw [State.region_setRegion, if_neg hne]

/-! ## Every field after a store -/

@[simp] theorem State.storeAt_ip (s : State) (g : Region) (a : Word) (n : Nat) (v : Word) : (s.storeAt g a n v).ip = s.ip := by
  simp [State.storeAt]
@[simp] theorem State.storeAt_wp (s : State) (g : Region) (a : Word) (n : Nat) (v : Word) : (s.storeAt g a n v).wp = s.wp := by
  simp [State.storeAt]
@[simp] theorem State.storeAt_rsp (s : State) (g : Region) (a : Word) (n : Nat) (v : Word) : (s.storeAt g a n v).rsp = s.rsp := by
  simp [State.storeAt]
@[simp] theorem State.storeAt_dsp (s : State) (g : Region) (a : Word) (n : Nat) (v : Word) : (s.storeAt g a n v).dsp = s.dsp := by
  simp [State.storeAt]
@[simp] theorem State.storeAt_acc1 (s : State) (g : Region) (a : Word) (n : Nat) (v : Word) : (s.storeAt g a n v).acc1 = s.acc1 := by
  simp [State.storeAt]
@[simp] theorem State.storeAt_acc2 (s : State) (g : Region) (a : Word) (n : Nat) (v : Word) : (s.storeAt g a n v).acc2 = s.acc2 := by
  simp [State.storeAt]
@[simp] theorem State.storeAt_ret (s : State) (g : Region) (a : Word) (n : Nat) (v : Word) : (s.storeAt g a n v).ret = s.ret := by
  simp [State.storeAt]
@[simp] theorem State.storeAt_pc (s : State) (g : Region) (a : Word) (n : Nat) (v : Word) : (s.storeAt g a n v).pc = s.pc := by
  simp [State.storeAt]
@[simp] theorem State.storeAt_carry (s : State) (g : Region) (a : Word) (n : Nat) (v : Word) : (s.storeAt g a n v).carry = s.carry := by
  simp [State.storeAt]
@[simp] theorem State.storeAt_consoleIn (s : State) (g : Region) (a : Word) (n : Nat) (v : Word) : (s.storeAt g a n v).consoleIn = s.consoleIn := by
  simp [State.storeAt]
@[simp] theorem State.storeAt_consoleAsked (s : State) (g : Region) (a : Word) (n : Nat) (v : Word) : (s.storeAt g a n v).consoleAsked = s.consoleAsked := by
  simp [State.storeAt]
@[simp] theorem State.storeAt_emitted (s : State) (g : Region) (a : Word) (n : Nat) (v : Word) : (s.storeAt g a n v).emitted = s.emitted := by
  simp [State.storeAt]
@[simp] theorem State.storeAt_outcome (s : State) (g : Region) (a : Word) (n : Nat) (v : Word) : (s.storeAt g a n v).outcome = s.outcome := by
  simp [State.storeAt]
@[simp] theorem State.storeAt_get (s : State) (g : Region) (a : Word) (n : Nat) (v : Word) (r : Reg) :
    (s.storeAt g a n v).get r = s.get r := by simp [State.storeAt]

end Sys2Proof.Machine
end

