-- ==== Sys2Proof/Laws/Memory.lean ====
section
/-! SUPPORT. The laws of a region's cells: a read after a write, the frame of a write, and the canonical form, which every
write keeps. -/

namespace Sys2Proof.Machine

/-! ## One byte -/

theorem Memory.read_insert (m : Memory) (a x : Nat) (b : Byte) :
    (Memory.insert m a b).read x = if x = a then b else m.read x := by
  induction m with
  | nil => simp [Memory.insert, Memory.read]
  | cons c m ih =>
    obtain ⟨k, d⟩ := c
    simp only [Memory.insert]
    split
    · simp [Memory.read]
    · split
      · rename_i h; subst h; by_cases hx : x = a <;> simp [Memory.read, hx]
      · rename_i h1 h2
        simp only [Memory.read, ih]
        by_cases hx : x = k
        · subst hx; simp [show ¬ x = a from fun h => h2 h.symm]
        · simp [hx]

theorem Memory.read_erase (m : Memory) (a x : Nat) :
    Memory.read (m.filter fun c => decide (c.1 ≠ a)) x = if x = a then Config.unlistedByte else m.read x := by
  induction m with
  | nil => simp [Memory.read]
  | cons c m ih =>
    obtain ⟨k, d⟩ := c
    by_cases hk : k = a
    · subst hk; simp only [List.filter_cons]; by_cases hx : x = k <;> simp_all [Memory.read]
    · by_cases hx : x = k
      · subst hx; simp [hk, Memory.read]
      · simp only [List.filter_cons]; simp_all [Memory.read]

/-- A read after a write of one byte, at every address. -/
theorem Memory.read_write (m : Memory) (a x : Nat) (b : Byte) :
    (m.write a b).read x = if x = a then b else m.read x := by
  unfold Memory.write
  split
  · rename_i h; rw [Memory.read_erase, h]
  · exact Memory.read_insert m a x b

/-! ## Several bytes -/

@[simp] theorem Memory.length_readBytes (m : Memory) (a n : Nat) : (m.readBytes a n).length = n := by
  induction n generalizing a with
  | zero => rfl
  | succ n ih => simp [Memory.readBytes, ih]

theorem Memory.readBytes_getElem? (m : Memory) (a n k : Nat) (h : k < n) :
    (m.readBytes a n)[k]? = some (m.read (a + k)) := by
  induction n generalizing a k with
  | zero => omega
  | succ n ih =>
    cases k with
    | zero => simp [Memory.readBytes]
    | succ k => simp only [Memory.readBytes, List.getElem?_cons_succ]; rw [ih _ _ (by omega)]; congr 2; omega

/-- Two memories that read alike on a range give the same bytes there. -/
theorem Memory.readBytes_congr (m m' : Memory) (a n : Nat) (h : ∀ x, a ≤ x → x < a + n → m.read x = m'.read x) :
    m.readBytes a n = m'.readBytes a n := by
  induction n generalizing a with
  | zero => rfl
  | succ n ih =>
    simp only [Memory.readBytes]
    rw [h a (by omega) (by omega), ih (a + 1) fun x h1 h2 => h x (by omega) (by omega)]

theorem Memory.readBytes_append (m : Memory) (a n k : Nat) :
    m.readBytes a (n + k) = m.readBytes a n ++ m.readBytes (a + n) k := by
  induction n generalizing a with
  | zero => simp [Memory.readBytes]
  | succ n ih =>
    rw [show n + 1 + k = (n + k) + 1 by omega]
    simp only [Memory.readBytes, List.cons_append, ih]
    congr 3; omega

/-- A read after a write of several bytes, at every address: inside the range the byte written, outside the old one. -/
theorem Memory.read_writeBytes (m : Memory) (a x : Nat) (bs : List Byte) :
    (m.writeBytes a bs).read x = if a ≤ x ∧ x < a + bs.length then bs.getD (x - a) 0 else m.read x := by
  induction bs generalizing m a with
  | nil => simp only [Memory.writeBytes, List.length_nil]; rw [if_neg (by omega)]
  | cons b bs ih =>
    simp only [Memory.writeBytes, List.length_cons, ih, Memory.read_write]
    by_cases hx : x = a
    · subst hx; simp
    · by_cases h : a + 1 ≤ x ∧ x < a + 1 + bs.length
      · rw [if_pos h, if_pos (by omega)]
        obtain ⟨j, hj⟩ : ∃ j, x - a = j + 1 := ⟨x - a - 1, by omega⟩
        rw [hj, List.getD_cons_succ, show x - (a + 1) = j by omega]
      · rw [if_neg h, if_neg hx, if_neg (by omega)]

/-- What was written is read back. -/
theorem Memory.readBytes_writeBytes_self (m : Memory) (a : Nat) (bs : List Byte) :
    (m.writeBytes a bs).readBytes a bs.length = bs := by
  apply List.ext_getElem? 
  intro k
  by_cases hk : k < bs.length
  · rw [Memory.readBytes_getElem? _ _ _ _ hk, Memory.read_writeBytes, if_pos (by omega)]
    simp [show a + k - a = k by omega, List.getD_eq_getElem?_getD, List.getElem?_eq_getElem hk]
  · rw [List.getElem?_eq_none (by simp; omega), List.getElem?_eq_none (by omega)]

/-! ## The canonical form -/

theorem Memory.wfFrom_mono {cap lo lo' : Nat} {m : Memory} (h : Memory.wfFrom cap lo m = true) (hl : lo' ≤ lo) :
    Memory.wfFrom cap lo' m = true := by
  cases m with
  | nil => rfl
  | cons c m =>
    obtain ⟨k, d⟩ := c
    simp only [Memory.wfFrom, Bool.and_eq_true, decide_eq_true_eq] at h ⊢
    exact ⟨⟨⟨by omega, h.1.1.2⟩, h.1.2⟩, h.2⟩

theorem Memory.wfFrom_insert {cap lo : Nat} {m : Memory} {a : Nat} {b : Byte} (h : Memory.wfFrom cap lo m = true)
    (hl : lo ≤ a) (ha : a < cap) (hb : b ≠ Config.unlistedByte) : Memory.wfFrom cap lo (Memory.insert m a b) = true := by
  induction m generalizing lo with
  | nil => simp [Memory.insert, Memory.wfFrom, hl, ha, hb]
  | cons c m ih =>
    obtain ⟨k, d⟩ := c
    simp only [Memory.wfFrom, Bool.and_eq_true, decide_eq_true_eq] at h
    simp only [Memory.insert]
    split
    · simp only [Memory.wfFrom, Bool.and_eq_true, decide_eq_true_eq]
      exact ⟨⟨⟨hl, ha⟩, hb⟩, ⟨⟨by omega, h.1.1.2⟩, h.1.2⟩, h.2⟩
    · split
      · rename_i _ h2; subst h2
        simp only [Memory.wfFrom, Bool.and_eq_true, decide_eq_true_eq]
        exact ⟨⟨⟨hl, ha⟩, hb⟩, h.2⟩
      · simp only [Memory.wfFrom, Bool.and_eq_true, decide_eq_true_eq]
        exact ⟨⟨⟨h.1.1.1, h.1.1.2⟩, h.1.2⟩, ih h.2 (by omega)⟩

theorem Memory.wfFrom_erase {cap lo : Nat} {m : Memory} (a : Nat) (h : Memory.wfFrom cap lo m = true) :
    Memory.wfFrom cap lo (m.filter fun c => decide (c.1 ≠ a)) = true := by
  induction m generalizing lo with
  | nil => rfl
  | cons c m ih =>
    obtain ⟨k, d⟩ := c
    simp only [Memory.wfFrom, Bool.and_eq_true, decide_eq_true_eq] at h
    simp only [List.filter_cons]
    split
    · simp only [Memory.wfFrom, Bool.and_eq_true, decide_eq_true_eq]
      exact ⟨h.1, ih h.2⟩
    · exact ih (Memory.wfFrom_mono h.2 (by omega))

/-- A write below the capacity keeps the canonical form. -/
theorem Memory.wf_write {cap : Nat} {m : Memory} {a : Nat} (b : Byte) (h : m.wf cap = true) (ha : a < cap) :
    (m.write a b).wf cap = true := by
  unfold Memory.write
  split
  · exact Memory.wfFrom_erase a h
  · exact Memory.wfFrom_insert h (Nat.zero_le _) ha ‹_›

/-- A write of several bytes below the capacity keeps the canonical form. -/
theorem Memory.wf_writeBytes {cap : Nat} {m : Memory} {a : Nat} (bs : List Byte) (h : m.wf cap = true)
    (ha : a + bs.length ≤ cap) : (m.writeBytes a bs).wf cap = true := by
  induction bs generalizing m a with
  | nil => exact h
  | cons b bs ih =>
    simp only [List.length_cons] at ha
    exact ih (Memory.wf_write b h (by omega)) (by omega)

/-- The memory after reset is canonical, in every region. -/
theorem State.wf_reset : State.reset.wf = true := by decide

/-- A region's canonical form, from that of the state. -/
theorem State.wf_region {s : State} (h : s.wf = true) (g : Region) : (s.region g).wf g.cap = true := by
  simp only [State.wf, Bool.and_eq_true] at h
  cases g
  · exact h.1.1
  · exact h.1.2
  · exact h.2

/-- Replacing one region by a canonical one keeps the canonical form of the state. -/
theorem State.wf_setRegion {s : State} {g : Region} {m : Memory} (h : s.wf = true) (hm : m.wf g.cap = true) :
    (s.setRegion g m).wf = true := by
  simp only [State.wf, Bool.and_eq_true] at h ⊢
  cases g <;> simp_all [State.setRegion, Region.cap]

end Sys2Proof.Machine
end

