-- ==== Sys2Proof/Laws/Ops.lean ====
section
/-! SUPPORT. For each shared operation, once, everything it can do. -/

namespace Sys2Proof.Machine

/-! ## Ends of a step -/

@[simp] theorem endStep_eq (o : StepOutcome) (s : State) : endStep o s = .next (s.setOutcome o) := rfl

@[simp] theorem succeed_eq (s : State) : succeed s = .next (s.setOutcome .success) := rfl

@[simp] theorem raiseMemFault_eq (addr : Word) (cap : Nat) (s : State) :
    raiseMemFault addr cap s = .fault (.memFault addr cap (s.setOutcome (.memFault addr cap))) := rfl

/-! ## The bounds check -/

theorem Region.fits_iff (g : Region) (addr : Word) (n : Nat) : g.fits addr n = true ↔ addr.toNat + n ≤ g.cap := by
  simp [Region.fits]

theorem Region.not_fits_iff (g : Region) (addr : Word) (n : Nat) : g.fits addr n = false ↔ g.cap < addr.toNat + n := by
  simp [Region.fits]

/-! ## The access primitives -/

theorem memReadIn_of_fits {g : Region} {addr : Word} {n : Nat} {s : State} {rest : Word → Result}
    (h : addr.toNat + n ≤ g.cap) : memReadIn g addr n s rest = rest (s.valueAt g addr n) := by
  unfold memReadIn; rw [if_pos ((g.fits_iff addr n).2 h)]

theorem memReadIn_of_not_fits {g : Region} {addr : Word} {n : Nat} {s : State} {rest : Word → Result}
    (h : g.cap < addr.toNat + n) : memReadIn g addr n s rest = raiseMemFault addr g.cap s := by
  unfold memReadIn; rw [if_neg (by simp [Region.fits]; omega)]

theorem memWriteIn_of_fits {g : Region} {addr : Word} {n : Nat} {v : Word} {s : State} {rest : State → Result}
    (h : addr.toNat + n ≤ g.cap) : memWriteIn g addr n v s rest = rest (s.storeAt g addr n v) := by
  unfold memWriteIn; rw [if_pos ((g.fits_iff addr n).2 h)]

theorem memWriteIn_of_not_fits {g : Region} {addr : Word} {n : Nat} {v : Word} {s : State} {rest : State → Result}
    (h : g.cap < addr.toNat + n) : memWriteIn g addr n v s rest = raiseMemFault addr g.cap s := by
  unfold memWriteIn; rw [if_neg (by simp [Region.fits]; omega)]

/-- A read fits and the rest runs on the value, or it raises the fault. -/
theorem memReadIn_cases (g : Region) (addr : Word) (n : Nat) (s : State) (rest : Word → Result) :
    (addr.toNat + n ≤ g.cap ∧ memReadIn g addr n s rest = rest (s.valueAt g addr n)) ∨
    (g.cap < addr.toNat + n ∧ memReadIn g addr n s rest = raiseMemFault addr g.cap s) := by
  rcases Nat.lt_or_ge g.cap (addr.toNat + n) with h | h
  · exact .inr ⟨h, memReadIn_of_not_fits h⟩
  · exact .inl ⟨h, memReadIn_of_fits h⟩

/-- A write fits and the rest runs on the state with the bytes stored, or it raises the fault and stores nothing. -/
theorem memWriteIn_cases (g : Region) (addr : Word) (n : Nat) (v : Word) (s : State) (rest : State → Result) :
    (addr.toNat + n ≤ g.cap ∧ memWriteIn g addr n v s rest = rest (s.storeAt g addr n v)) ∨
    (g.cap < addr.toNat + n ∧ memWriteIn g addr n v s rest = raiseMemFault addr g.cap s) := by
  rcases Nat.lt_or_ge g.cap (addr.toNat + n) with h | h
  · exact .inr ⟨h, memWriteIn_of_not_fits h⟩
  · exact .inl ⟨h, memWriteIn_of_fits h⟩

/-- If a read and the rest answer a next state, the range fits and the rest answered it. -/
theorem memReadIn_next {g : Region} {addr : Word} {n : Nat} {s t : State} {rest : Word → Result}
    (h : memReadIn g addr n s rest = .next t) : addr.toNat + n ≤ g.cap ∧ rest (s.valueAt g addr n) = .next t := by
  rcases memReadIn_cases g addr n s rest with ⟨hf, he⟩ | ⟨_, he⟩
  · exact ⟨hf, he ▸ h⟩
  · rw [he] at h; cases h

/-- If a write and the rest answer a next state, the range fits and the rest answered it. -/
theorem memWriteIn_next {g : Region} {addr : Word} {n : Nat} {v : Word} {s t : State} {rest : State → Result}
    (h : memWriteIn g addr n v s rest = .next t) : addr.toNat + n ≤ g.cap ∧ rest (s.storeAt g addr n v) = .next t := by
  rcases memWriteIn_cases g addr n v s rest with ⟨hf, he⟩ | ⟨_, he⟩
  · exact ⟨hf, he ▸ h⟩
  · rw [he] at h; cases h

/-! ## The bytes of a store -/

/-- Every byte of every region after a store: the stored bytes, and no other (R54). -/
theorem State.byteAt_storeAt (s : State) (g h : Region) (addr : Word) (n : Nat) (v : Word) (x : Nat) :
    (s.storeAt g addr n v).byteAt h x =
      if h = g ∧ addr.toNat ≤ x ∧ x < addr.toNat + n then (bytesLE n v).getD (x - addr.toNat) 0
      else s.byteAt h x := by
  have hlen : (bytesLE n v).length = n := by
    clear x addr
    induction n generalizing v with
    | zero => rfl
    | succ n ih => simp [bytesLE, ih]
  simp only [State.byteAt, State.storeAt, State.region_setRegion]
  by_cases hg : h = g
  · subst hg; simp only [if_true, Memory.read_writeBytes, hlen, true_and]
  · simp [hg]

/-- A store inside a region keeps the canonical form. -/
theorem State.wf_storeAt {s : State} {g : Region} {addr : Word} {n : Nat} (v : Word) (h : s.wf = true)
    (hf : addr.toNat + n ≤ g.cap) : (s.storeAt g addr n v).wf = true := by
  refine State.wf_setRegion h (Memory.wf_writeBytes _ (State.wf_region h g) ?_)
  have : (bytesLE n v).length = n := by
    clear hf
    induction n generalizing v with
    | zero => rfl
    | succ n ih => simp [bytesLE, ih]
  omega

/-- A register write keeps the canonical form. -/
@[simp] theorem State.wf_set (s : State) (r : Reg) (v : Word) : (s.set r v).wf = s.wf := by simp [State.wf]

@[simp] theorem State.wf_setOutcome (s : State) (o : StepOutcome) : (s.setOutcome o).wf = s.wf := rfl
@[simp] theorem State.wf_setCarry (s : State) (b : Bool) : (s.setCarry b).wf = s.wf := rfl
@[simp] theorem State.wf_emitByte (s : State) (b : Byte) : (s.emitByte b).wf = s.wf := rfl
@[simp] theorem State.wf_emitDiag (s : State) (d : DiagRecord) : (s.emitDiag d).wf = s.wf := rfl

/-! ## The console -/

/-- A request takes the host's next answer, or a free one; nothing but the streams' own bookkeeping changes. -/
theorem State.consoleAnswer_cases (s : State) :
    (∃ a rest, s.consoleIn = a :: rest ∧ s.consoleAnswer = (a, { s with consoleIn := rest })) ∨
    (s.consoleIn = [] ∧
      s.consoleAnswer = (Config.consoleAnswer s.consoleAsked, { s with consoleAsked := s.consoleAsked + 1 })) := by
  unfold State.consoleAnswer
  split
  · exact .inl ⟨_, _, ‹_›, rfl⟩
  · exact .inr ⟨‹_›, rfl⟩

/-! ## Operand forms -/

/-- A source operand gives its value, or its read raises the fault. -/
theorem readOperand_cases (w : Width) (o : Operand) (s : State) (rest : Word → Result) :
    (∃ r, o = .direct r ∧ readOperand w o s rest = rest (w.ofRegister (s.get r))) ∨
    (∃ r, o = .indirect r ∧ (s.get r).toNat + w.bytes ≤ Region.main.cap ∧
      readOperand w o s rest = rest (s.valueAt .main (s.get r) w.bytes)) ∨
    (∃ r, o = .indirect r ∧ Region.main.cap < (s.get r).toNat + w.bytes ∧
      readOperand w o s rest = raiseMemFault (s.get r) Region.main.cap s) := by
  cases o with
  | direct r => exact .inl ⟨r, rfl, rfl⟩
  | indirect r =>
    rcases memReadIn_cases .main (s.get r) w.bytes s rest with ⟨h, e⟩ | ⟨h, e⟩
    · exact .inr (.inl ⟨r, rfl, h, e⟩)
    · exact .inr (.inr ⟨r, rfl, h, e⟩)

/-- A target operand is written and the instruction completes, or its write raises the fault. -/
theorem writeOperand_cases (w : Width) (o : Operand) (v : Word) (s : State) :
    (∃ r, o = .direct r ∧ writeOperand w o v s = succeed (s.set r v)) ∨
    (∃ r, o = .indirect r ∧ (s.get r).toNat + w.bytes ≤ Region.main.cap ∧
      writeOperand w o v s = succeed (s.storeAt .main (s.get r) w.bytes v)) ∨
    (∃ r, o = .indirect r ∧ Region.main.cap < (s.get r).toNat + w.bytes ∧
      writeOperand w o v s = raiseMemFault (s.get r) Region.main.cap s) := by
  cases o with
  | direct r => exact .inl ⟨r, rfl, rfl⟩
  | indirect r =>
    rcases memWriteIn_cases .main (s.get r) w.bytes v s succeed with ⟨h, e⟩ | ⟨h, e⟩
    · exact .inr (.inl ⟨r, rfl, h, e⟩)
    · exact .inr (.inr ⟨r, rfl, h, e⟩)

@[simp] theorem adjustPointer_region (w : Width) (m : Adjust) (p : Reg) (s : State) (g : Region) :
    (adjustPointer w m p s).region g = s.region g := by simp [adjustPointer]

/-- The two adjustment lines together adjust the pointer exactly once. -/
theorem adjust_once (w : Width) (m : Adjust) (p : Reg) (s : State) :
    (adjustsBefore m = true ∧ adjustPre w m p s = adjustPointer w m p s ∧ ∀ t, adjustPost w m p t = t) ∨
    (adjustsBefore m = false ∧ adjustPre w m p s = s ∧ ∀ t, adjustPost w m p t = adjustPointer w m p t) := by
  cases h : adjustsBefore m
  · exact .inr ⟨rfl, by simp [adjustPre, h], fun t => by simp [adjustPost, h]⟩
  · exact .inl ⟨rfl, by simp [adjustPre, h], fun t => by simp [adjustPost, h]⟩

end Sys2Proof.Machine
end

