-- ==== Sys2Proof/Laws/Fetch.lean ====
section
/-! SUPPORT. What a fetch can do, once. -/

namespace Sys2Proof.Machine

/-- A fetch reads its bytes and advances `pc`, or raises the fault with `pc` where it was (R121). -/
theorem fetchBytes_cases (n : Nat) (s : State) (rest : List Byte → State → Result) :
    (s.pc.toNat + n ≤ Config.memCap ∧
      fetchBytes n s rest = rest (s.main.readBytes s.pc.toNat n) (s.set .pc (s.pc + BitVec.ofNat 32 n))) ∨
    (Config.memCap < s.pc.toNat + n ∧ fetchBytes n s rest = raiseMemFault s.pc Config.memCap s) := by
  unfold fetchBytes
  rcases Nat.lt_or_ge Config.memCap (s.pc.toNat + n) with h | h
  · exact .inr ⟨h, if_neg fun hf => absurd ((Region.fits_iff .main s.pc n).1 hf) (Nat.not_le.2 h)⟩
  · exact .inl ⟨h, if_pos ((Region.fits_iff .main s.pc n).2 h)⟩

@[simp] theorem fetchOperands_nil (s : State) (rest : List Byte → State → Result) : fetchOperands [] s rest = rest [] s :=
  rfl

theorem fetchOperands_cons (n : Nat) (ns : List Nat) (s : State) (rest : List Byte → State → Result) :
    fetchOperands (n :: ns) s rest =
      fetchBytes n s fun bs s1 => fetchOperands ns s1 fun cs s2 => rest (bs ++ cs) s2 := rfl

/-- The opcode fetch reads the byte at `pc`. -/
theorem leWord_readBytes_one (m : Memory) (a : Nat) : (leWord (m.readBytes a 1)).setWidth 8 = m.read a := by
  apply BitVec.eq_of_toNat_eq
  have := (m.read a).isLt
  simp [Memory.readBytes, leWord, leNat]

end Sys2Proof.Machine
end

