-- ==== Sys2Proof/Laws/PerInstr.lean ====
section
/-! SUPPORT. One lemma per instruction: its canonical encoding is a mapped opcode byte and exactly the operand bytes of that
opcode's format (R80, R81, R82). -/

namespace Sys2Proof.Laws.EncodeLength

/-- The encoding starts with a mapped opcode, followed by as many bytes as the opcode's format has. -/
def Statement (i : Instr) : Prop :=
  ∃ op rest, encode i = op :: rest ∧
    (opcodeMap op).map (fun row => row.format.operandLength) = some rest.length

theorem nop : Statement .nop := ⟨_, _, rfl, rfl⟩

theorem movrW (t s : Operand) : Statement (.movrW t s) := ⟨_, _, rfl, rfl⟩

theorem movrB (t s : Operand) : Statement (.movrB t s) := ⟨_, _, rfl, rfl⟩

theorem movsStW (m : Adjust) (p v : Reg) : Statement (.movsStW m p v) := ⟨_, _, rfl, rfl⟩

theorem movsStB (m : Adjust) (p v : Reg) : Statement (.movsStB m p v) := ⟨_, _, rfl, rfl⟩

theorem movsLdW (v : Reg) (m : Adjust) (p : Reg) : Statement (.movsLdW v m p) := ⟨_, _, rfl, rfl⟩

theorem movsLdB (v : Reg) (m : Adjust) (p : Reg) : Statement (.movsLdB v m p) := ⟨_, _, rfl, rfl⟩

theorem moviAcc1 (imm : Word) : Statement (.moviAcc1 imm) := ⟨_, _, rfl, rfl⟩

theorem moviAcc2 (imm : Word) : Statement (.moviAcc2 imm) := ⟨_, _, rfl, rfl⟩

theorem addW (t a b : Reg) : Statement (.addW t a b) := ⟨_, _, rfl, rfl⟩

theorem subW (t a b : Reg) : Statement (.subW t a b) := ⟨_, _, rfl, rfl⟩

theorem orW (t a b : Reg) : Statement (.orW t a b) := ⟨_, _, rfl, rfl⟩

theorem andW (t a b : Reg) : Statement (.andW t a b) := ⟨_, _, rfl, rfl⟩

theorem xorW (t a b : Reg) : Statement (.xorW t a b) := ⟨_, _, rfl, rfl⟩

theorem sraW (r : Reg) (n : Nat) : Statement (.sraW r n) := ⟨_, _, rfl, rfl⟩

theorem jmpiIp : Statement .jmpiIp := ⟨_, _, rfl, rfl⟩

theorem jmpiWp : Statement .jmpiWp := ⟨_, _, rfl, rfl⟩

theorem jmpiRsp : Statement .jmpiRsp := ⟨_, _, rfl, rfl⟩

theorem jmpiDsp : Statement .jmpiDsp := ⟨_, _, rfl, rfl⟩

theorem jmpiAcc1 : Statement .jmpiAcc1 := ⟨_, _, rfl, rfl⟩

theorem jmpiAcc2 : Statement .jmpiAcc2 := ⟨_, _, rfl, rfl⟩

theorem jmpiRet : Statement .jmpiRet := ⟨_, _, rfl, rfl⟩

theorem jmpiPc : Statement .jmpiPc := ⟨_, _, rfl, rfl⟩

theorem jmpdIp : Statement .jmpdIp := ⟨_, _, rfl, rfl⟩

theorem jmpdWp : Statement .jmpdWp := ⟨_, _, rfl, rfl⟩

theorem jmpdRsp : Statement .jmpdRsp := ⟨_, _, rfl, rfl⟩

theorem jmpdDsp : Statement .jmpdDsp := ⟨_, _, rfl, rfl⟩

theorem jmpdAcc1 : Statement .jmpdAcc1 := ⟨_, _, rfl, rfl⟩

theorem jmpdAcc2 : Statement .jmpdAcc2 := ⟨_, _, rfl, rfl⟩

theorem jmpdRet : Statement .jmpdRet := ⟨_, _, rfl, rfl⟩

theorem jmpdPc : Statement .jmpdPc := ⟨_, _, rfl, rfl⟩

theorem jmp (imm : Word) : Statement (.jmp imm) := ⟨_, _, rfl, rfl⟩

theorem jz (imm : Word) : Statement (.jz imm) := ⟨_, _, rfl, rfl⟩

theorem jc (imm : Word) : Statement (.jc imm) := ⟨_, _, rfl, rfl⟩

theorem call (imm : Word) : Statement (.call imm) := ⟨_, _, rfl, rfl⟩

theorem dpushIp : Statement .dpushIp := ⟨_, _, rfl, rfl⟩

theorem dpushWp : Statement .dpushWp := ⟨_, _, rfl, rfl⟩

theorem dpushRsp : Statement .dpushRsp := ⟨_, _, rfl, rfl⟩

theorem dpushDsp : Statement .dpushDsp := ⟨_, _, rfl, rfl⟩

theorem dpushAcc1 : Statement .dpushAcc1 := ⟨_, _, rfl, rfl⟩

theorem dpushAcc2 : Statement .dpushAcc2 := ⟨_, _, rfl, rfl⟩

theorem dpushRet : Statement .dpushRet := ⟨_, _, rfl, rfl⟩

theorem dpushPc : Statement .dpushPc := ⟨_, _, rfl, rfl⟩

theorem dpopIp : Statement .dpopIp := ⟨_, _, rfl, rfl⟩

theorem dpopWp : Statement .dpopWp := ⟨_, _, rfl, rfl⟩

theorem dpopRsp : Statement .dpopRsp := ⟨_, _, rfl, rfl⟩

theorem dpopDsp : Statement .dpopDsp := ⟨_, _, rfl, rfl⟩

theorem dpopAcc1 : Statement .dpopAcc1 := ⟨_, _, rfl, rfl⟩

theorem dpopAcc2 : Statement .dpopAcc2 := ⟨_, _, rfl, rfl⟩

theorem dpopRet : Statement .dpopRet := ⟨_, _, rfl, rfl⟩

theorem dpopPc : Statement .dpopPc := ⟨_, _, rfl, rfl⟩

theorem rpushIp : Statement .rpushIp := ⟨_, _, rfl, rfl⟩

theorem rpushWp : Statement .rpushWp := ⟨_, _, rfl, rfl⟩

theorem rpushRsp : Statement .rpushRsp := ⟨_, _, rfl, rfl⟩

theorem rpushDsp : Statement .rpushDsp := ⟨_, _, rfl, rfl⟩

theorem rpushAcc1 : Statement .rpushAcc1 := ⟨_, _, rfl, rfl⟩

theorem rpushAcc2 : Statement .rpushAcc2 := ⟨_, _, rfl, rfl⟩

theorem rpushRet : Statement .rpushRet := ⟨_, _, rfl, rfl⟩

theorem rpushPc : Statement .rpushPc := ⟨_, _, rfl, rfl⟩

theorem rpopIp : Statement .rpopIp := ⟨_, _, rfl, rfl⟩

theorem rpopWp : Statement .rpopWp := ⟨_, _, rfl, rfl⟩

theorem rpopRsp : Statement .rpopRsp := ⟨_, _, rfl, rfl⟩

theorem rpopDsp : Statement .rpopDsp := ⟨_, _, rfl, rfl⟩

theorem rpopAcc1 : Statement .rpopAcc1 := ⟨_, _, rfl, rfl⟩

theorem rpopAcc2 : Statement .rpopAcc2 := ⟨_, _, rfl, rfl⟩

theorem rpopRet : Statement .rpopRet := ⟨_, _, rfl, rfl⟩

theorem rpopPc : Statement .rpopPc := ⟨_, _, rfl, rfl⟩

theorem ifkt (code : Half) : Statement (.ifkt code) := ⟨_, _, rfl, rfl⟩

theorem illegal : Statement .illegal := ⟨_, _, rfl, rfl⟩

end Sys2Proof.Laws.EncodeLength
end

