-- ==== Sys2Proof/Laws/Shared.lean ====
section
/-! SUPPORT. For each operation that several meanings share, once, everything it can do. -/

namespace Sys2Proof.Machine

/-! ## ALU -/

/-- The three-register shapes always complete, with the target written from the old sources (R140). -/
theorem bitwise_eq (f : Word → Word → Word) (t a b : Reg) (s : State) :
    bitwise f t a b s = .next ((s.set t (f (s.get a) (s.get b))).setOutcome .success) := rfl

theorem arithmetic_eq (f : Word → Word → Word) (c : Word → Word → Bool) (t a b : Reg) (s : State) :
    arithmetic f c t a b s =
      .next (((s.set t (f (s.get a) (s.get b))).setCarry (c (s.get a) (s.get b))).setOutcome .success) := rfl

/-! ## Moves -/

/-- The register move completes with a value written to its target, or its read faults, or the read fits and its write
faults; a fault leaves everything as it was (R160 to R162). -/
theorem moveRegister_cases (w : Width) (t src : Operand) (s : State) :
    (∃ v, moveRegister w t src s = writeOperand w t v s) ∨
    (∃ r, src = .indirect r ∧ Region.main.cap < (s.get r).toNat + w.bytes ∧
      moveRegister w t src s = raiseMemFault (s.get r) Region.main.cap s) := by
  rcases readOperand_cases w src s (fun v => writeOperand w t v s) with ⟨r, _, e⟩ | ⟨r, _, _, e⟩ | ⟨r, h, hf, e⟩
  · exact .inl ⟨_, e⟩
  · exact .inl ⟨_, e⟩
  · exact .inr ⟨r, h, hf, e⟩

/-- The adjusting store stores and completes with the pointer adjusted, or faults with the pre adjustment made (R166). -/
theorem adjustingStore_cases (w : Width) (m : Adjust) (p v : Reg) (s : State) :
    let s1 := adjustPre w m p s
    ((s1.get p).toNat + w.bytes ≤ Region.main.cap ∧
      adjustingStore w m p v s = succeed (adjustPost w m p (s1.storeAt .main (s1.get p) w.bytes (s1.get v)))) ∨
    (Region.main.cap < (s1.get p).toNat + w.bytes ∧
      adjustingStore w m p v s = raiseMemFault (s1.get p) Region.main.cap s1) := by
  intro s1
  exact memWriteIn_cases .main (s1.get p) w.bytes (s1.get v) s1 fun s2 => succeed (adjustPost w m p s2)

/-- The adjusting load writes the value register and completes with the pointer adjusted, or faults with the pre
adjustment made (R168). -/
theorem adjustingLoad_cases (w : Width) (v : Reg) (m : Adjust) (p : Reg) (s : State) :
    let s1 := adjustPre w m p s
    ((s1.get p).toNat + w.bytes ≤ Region.main.cap ∧
      adjustingLoad w v m p s = succeed (adjustPost w m p (s1.set v (s1.valueAt .main (s1.get p) w.bytes)))) ∨
    (Region.main.cap < (s1.get p).toNat + w.bytes ∧
      adjustingLoad w v m p s = raiseMemFault (s1.get p) Region.main.cap s1) := by
  intro s1
  exact memReadIn_cases .main (s1.get p) w.bytes s1 fun x => succeed (adjustPost w m p (s1.set v x))

/-! ## Control transfer -/

/-- A jump through a cell takes the word there, or its read faults with nothing changed (R190). -/
theorem jumpThrough_cases (r : Reg) (s : State) :
    ((s.get r).toNat + 4 ≤ Region.main.cap ∧
      jumpThrough r s = succeed (s.set .pc (s.valueAt .main (s.get r) 4))) ∨
    (Region.main.cap < (s.get r).toNat + 4 ∧ jumpThrough r s = raiseMemFault (s.get r) Region.main.cap s) :=
  memReadIn_cases _ _ _ _ _

/-! ## Stacks -/

/-- A push stores the register's old value and then grows the pointer, or faults with nothing changed (R230). -/
theorem push_cases (g : Region) (sp r : Reg) (s : State) :
    ((s.get sp).toNat + 4 ≤ g.cap ∧
      push g sp r s = succeed ((s.storeAt g (s.get sp) 4 (s.get r)).set sp (s.get sp + 4))) ∨
    (g.cap < (s.get sp).toNat + 4 ∧ push g sp r s = raiseMemFault (s.get sp) g.cap s) := by
  unfold push
  rcases memWriteIn_cases g (s.get sp) 4 (s.get r) s (fun s1 => succeed (s1.set sp (s1.get sp + 4))) with h | h
  · exact .inl ⟨h.1, by rw [h.2, State.storeAt_get]⟩
  · exact .inr h

/-- A pop ends with `Error` on an empty stack; else the pointer shrinks and the word there goes to the register, or its
read faults with the pointer already changed (R231). -/
theorem pop_cases (g : Region) (sp r : Reg) (s : State) :
    (s.get sp = 0 ∧ pop g sp r s = endStep .error s) ∨
    (s.get sp ≠ 0 ∧ (s.get sp - 4).toNat + 4 ≤ g.cap ∧
      pop g sp r s = succeed ((s.set sp (s.get sp - 4)).set r (s.valueAt g (s.get sp - 4) 4))) ∨
    (s.get sp ≠ 0 ∧ g.cap < (s.get sp - 4).toNat + 4 ∧
      pop g sp r s = raiseMemFault (s.get sp - 4) g.cap (s.set sp (s.get sp - 4))) := by
  unfold pop
  by_cases h : s.get sp = 0
  · exact .inl ⟨h, if_pos h⟩
  · simp only [if_neg h, State.get_set_self]
    rcases memReadIn_cases g (s.get sp - 4) 4 (s.set sp (s.get sp - 4))
      (fun v => succeed ((s.set sp (s.get sp - 4)).set r v)) with ⟨hf, e⟩ | ⟨hf, e⟩
    · exact .inr (.inl ⟨h, hf, by rw [e, State.set_valueAt]⟩)
    · exact .inr (.inr ⟨h, hf, e⟩)

/-! ## The dump loop -/

/-- The loop gives some bytes to the rest, as many as asked for, or a read of one byte faults with nothing changed
(R286). -/
theorem readRange_cases (count : Nat) (addr : Word) (s : State) (rest : List Byte → Result) :
    (∃ bs, bs.length = count ∧ readRange count addr s rest = rest bs) ∨
    (∃ a, Region.main.cap < a.toNat + 1 ∧ readRange count addr s rest = raiseMemFault a Region.main.cap s) := by
  induction count generalizing addr rest with
  | zero => exact .inl ⟨[], rfl, rfl⟩
  | succ n ih =>
    unfold readRange
    rcases memReadIn_cases .main addr 1 s
      (fun v => readRange n (addr + 1) s fun bs => rest (v.setWidth 8 :: bs)) with ⟨_, e⟩ | ⟨hf, e⟩
    · rw [e]
      rcases ih (addr + 1) fun bs => rest ((s.valueAt .main addr 1).setWidth 8 :: bs) with ⟨bs, hl, e'⟩ | h
      · exact .inl ⟨_, by rw [List.length_cons, hl], e'⟩
      · exact .inr h
    · exact .inr ⟨addr, hf, e⟩

/-! ## The operand fetches -/

/-- The operand fetches agree with the operand accesses of `Decode`: all bytes and `pc` past them, or the fault of the
first that does not fit, with `pc` there (R97, R121, R122). -/
theorem fetchOperands_eq (ns : List Nat) (s : State) (rest : List Byte → State → Result) :
    fetchOperands ns s rest =
      match readAccesses s.main ns s.pc with
      | .ok bs => rest bs (s.set .pc (s.pc + BitVec.ofNat 32 ns.sum))
      | .error e => raiseMemFault e Region.main.cap (s.set .pc e) := by
  induction ns generalizing s rest with
  | nil => simp [fetchOperands, readAccesses, State.set]
  | cons n ns ih =>
    rw [fetchOperands_cons]
    unfold fetchBytes readAccesses
    by_cases h : Region.main.fits s.pc n = true
    · simp only [h, if_true, ih, State.set_main, State.set_pc_pc]
      cases readAccesses s.main ns (s.pc + BitVec.ofNat 32 n) with
      | error e => rfl
      | ok bs => simp only [List.sum_cons, BitVec.ofNat_add, BitVec.add_assoc]; rfl
    · simp only [h]; rfl

/-! ## The trace -/

/-- The trace emits one trace record, or, where its own reads would fault, nothing (R126, R127). -/
theorem emitTrace_cases (s : State) :
    (∃ t, emitTrace s = s.emitDiag (.trace s.pc (s.byteAt .main s.pc.toNat) t)) ∨ emitTrace s = s := by
  unfold emitTrace
  split
  · exact .inl ⟨_, rfl⟩
  · exact .inr rfl

end Sys2Proof.Machine
end

