-- ==== Sys2Proof/Tests/Slice0.lean ====
section
/-! SUPPORT. The author's own tests: refused terms, one hand-written word for every constructor, one step each from the
vectors of spec/95_test_vectors.md (the id stands in the comment), and for every statement with hypotheses a concrete case
that meets them. -/

open Sys2Proof Sys2Proof.Machine Sys2Proof.Claims

namespace Sys2Proof.Tests

/-! ## Well-formedness -/

theorem test_wf_refuses_amount_32 : (Instr.sraW .acc1 32).wf = false := by decide
theorem test_wf_accepts_amount_31 : (Instr.sraW .acc1 31).wf = true := by decide

/-! ## Decoding, words written out from R81 to R94 -/

theorem test_decode_system :
    decode [0x00] = .instr .nop [] ∧
    decode [0xff] = .instr .illegal [] ∧
    decode [0xfe, 0x34, 0x12] = .instr (.ifkt 0x1234) [] := by decide

/-- `T S ttt sss`: the byte 10 001 100 is indirect `wp`, direct `acc1`; 01 100 000 is direct `acc1`, indirect `ip`. -/
theorem test_decode_register_moves :
    decode [0x20, 0b10001100] = .instr (.movrW (.indirect .wp) (.direct .acc1)) [] ∧
    decode [0x21, 0b01100000] = .instr (.movrB (.direct .acc1) (.indirect .ip)) [] := by decide

/-- `D P ppp vvv`: 11 is pre-decrement, 10 post-decrement, 01 pre-increment, 00 post-increment. -/
theorem test_decode_adjusting_moves :
    decode [0x22, 0b11001100] = .instr (.movsStW .preDec .wp .acc1) [] ∧
    decode [0x23, 0b00000101] = .instr (.movsStB .postInc .ip .acc2) [] ∧
    decode [0x24, 0b01010111] = .instr (.movsLdW .pc .preInc .rsp) [] ∧
    decode [0x25, 0b10000100] = .instr (.movsLdB .acc1 .postDec .ip) [] := by decide

theorem test_decode_movi :
    decode [0x26, 0x10, 0x41, 0x32, 0x22] = .instr (.moviAcc1 0x22324110) [] ∧
    decode [0x27, 0x01, 0x02, 0x03, 0x84] = .instr (.moviAcc2 0x84030201) [] := by decide

/-- `00 ttt aaa`, `00000 bbb`, and `rrr nnnnn` for the shift. -/
theorem test_decode_alu :
    decode [0x30, 0b00000001, 0b00000100] = .instr (.addW .ip .wp .acc1) [] ∧
    decode [0x31, 0b00111010, 0b00000011] = .instr (.subW .pc .rsp .dsp) [] ∧
    decode [0x32, 0b00101000, 0b00000001] = .instr (.orW .acc2 .ip .wp) [] ∧
    decode [0x33, 0b00100101, 0b00000110] = .instr (.andW .acc1 .acc2 .ret) [] ∧
    decode [0x34, 0b00001111, 0b00000000] = .instr (.xorW .wp .pc .ip) [] ∧
    decode [0x35, 0b10000101] = .instr (.sraW .acc1 5) [] := by decide

theorem test_decode_jump_through :
    decode [0x60] = .instr .jmpiIp [] ∧
    decode [0x61] = .instr .jmpiWp [] ∧
    decode [0x62] = .instr .jmpiRsp [] ∧
    decode [0x63] = .instr .jmpiDsp [] ∧
    decode [0x64] = .instr .jmpiAcc1 [] ∧
    decode [0x65] = .instr .jmpiAcc2 [] ∧
    decode [0x66] = .instr .jmpiRet [] ∧
    decode [0x67] = .instr .jmpiPc [] := by decide

theorem test_decode_jump_to :
    decode [0x68] = .instr .jmpdIp [] ∧
    decode [0x69] = .instr .jmpdWp [] ∧
    decode [0x6a] = .instr .jmpdRsp [] ∧
    decode [0x6b] = .instr .jmpdDsp [] ∧
    decode [0x6c] = .instr .jmpdAcc1 [] ∧
    decode [0x6d] = .instr .jmpdAcc2 [] ∧
    decode [0x6e] = .instr .jmpdRet [] ∧
    decode [0x6f] = .instr .jmpdPc [] := by decide

theorem test_decode_dpush :
    decode [0x80] = .instr .dpushIp [] ∧
    decode [0x81] = .instr .dpushWp [] ∧
    decode [0x82] = .instr .dpushRsp [] ∧
    decode [0x83] = .instr .dpushDsp [] ∧
    decode [0x84] = .instr .dpushAcc1 [] ∧
    decode [0x85] = .instr .dpushAcc2 [] ∧
    decode [0x86] = .instr .dpushRet [] ∧
    decode [0x87] = .instr .dpushPc [] := by decide

theorem test_decode_dpop :
    decode [0x88] = .instr .dpopIp [] ∧
    decode [0x89] = .instr .dpopWp [] ∧
    decode [0x8a] = .instr .dpopRsp [] ∧
    decode [0x8b] = .instr .dpopDsp [] ∧
    decode [0x8c] = .instr .dpopAcc1 [] ∧
    decode [0x8d] = .instr .dpopAcc2 [] ∧
    decode [0x8e] = .instr .dpopRet [] ∧
    decode [0x8f] = .instr .dpopPc [] := by decide

theorem test_decode_rpush :
    decode [0x90] = .instr .rpushIp [] ∧
    decode [0x91] = .instr .rpushWp [] ∧
    decode [0x92] = .instr .rpushRsp [] ∧
    decode [0x93] = .instr .rpushDsp [] ∧
    decode [0x94] = .instr .rpushAcc1 [] ∧
    decode [0x95] = .instr .rpushAcc2 [] ∧
    decode [0x96] = .instr .rpushRet [] ∧
    decode [0x97] = .instr .rpushPc [] := by decide

theorem test_decode_rpop :
    decode [0x98] = .instr .rpopIp [] ∧
    decode [0x99] = .instr .rpopWp [] ∧
    decode [0x9a] = .instr .rpopRsp [] ∧
    decode [0x9b] = .instr .rpopDsp [] ∧
    decode [0x9c] = .instr .rpopAcc1 [] ∧
    decode [0x9d] = .instr .rpopAcc2 [] ∧
    decode [0x9e] = .instr .rpopRet [] ∧
    decode [0x9f] = .instr .rpopPc [] := by decide

theorem test_decode_immediate_jumps :
    decode [0x70, 0x0d, 0x00, 0x00, 0x00] = .instr (.jmp 0xd) [] ∧
    decode [0x71, 0x78, 0x56, 0x34, 0x12] = .instr (.jz 0x12345678) [] ∧
    decode [0x72, 0x00, 0x00, 0x01, 0x00] = .instr (.jc 0x10000) [] ∧
    decode [0x73, 0x15, 0x00, 0x00, 0x00] = .instr (.call 0x15) [] := by decide

/-- R88: the ignored bits of format FA are not read. -/
theorem test_decode_ignored_bits : decode [0x30, 0xe4, 0xfd] = .instr (.addW .acc1 .acc1 .acc2) [] := by decide

/-- R95: the unmapped values next to the mapped ones. -/
theorem test_decode_unmapped :
    decode [0x01] = .unknown 0x01 [] ∧ decode [0x28] = .unknown 0x28 [] ∧ decode [0x36] = .unknown 0x36 [] ∧
    decode [0x74] = .unknown 0x74 [] ∧ decode [0xa0, 0x05] = .unknown 0xa0 [0x05] ∧ decode [0xfd] = .unknown 0xfd [] := by
  decide

theorem test_decode_truncated : decode [0x26, 1, 2, 3] = .truncated 0x26 ∧ decode [] = .empty := by decide

theorem test_table_word : decodeTableWord 40 0x2232411026 = some (.moviAcc1 0x22324110) ∧ decodeTableWord 8 0x60 = some .jmpiIp ∧
    decodeTableWord 8 0x74 = none := by decide

/-! ## One step, from the vectors -/

/-- A state with bytes in MAIN at `pc` and nothing else listed. -/
def at' (pc : Word) (bytes : List Byte) : State :=
  { State.reset with pc := pc, main := Memory.writeBytes [] pc.toNat bytes }

/-- Some view of the state a step left, after `Success`. -/
def after {α : Type} (s : State) (view : State → α) : Option α :=
  match step s with
  | .next t => if t.outcome = .success then some (view t) else none
  | _ => none

/-- Some view of the state after another outcome. -/
def ending {α : Type} (s : State) (view : State → α) : Option (StepOutcome × α) :=
  (stateLeft (step s)).bind fun t => if t.outcome = .success then none else some (t.outcome, view t)

-- A1
theorem test_add_source_example : after { at' 0 [0x30, 0x01, 0x04] with wp := 0x723828, acc1 := 0x562a } (fun t => (t.ip, t.pc, t.carry)) = some (0x728e52, 3, false) := by decide

-- A3
theorem test_add_carry : after { at' 0 [0x30, 0x24, 0x05] with acc1 := 0x80000000, acc2 := 0x80000000 } (fun t => (t.acc1, t.carry)) = some (0, true) := by decide

-- A9
theorem test_sub_borrow : after { at' 0 [0x31, 0x24, 0x05] with acc2 := 0x10 } (fun t => (t.acc1, t.carry)) = some (0xfffffff0, true) := by decide

-- A13
theorem test_sub_no_borrow : after { at' 0 [0x31, 0x24, 0x05] with acc1 := 0x80000000, acc2 := 1, carry := true } (fun t => (t.acc1, t.carry)) = some (0x7fffffff, false) := by decide

-- A15
theorem test_or_keeps_carry : after { at' 0 [0x32, 0x28, 0x01] with ip := 0xf0f00000, wp := 0xff0f, carry := true } (fun t => (t.acc2, t.carry)) = some (0xf0f0ff0f, true) := by decide

-- A16
theorem test_and : after { at' 0 [0x33, 0x24, 0x05] with acc1 := 0x12345678, acc2 := 0xffff } (fun t => t.acc1) = some 0x5678 := by decide

-- A18
theorem test_xor : after { at' 0 [0x34, 0x24, 0x05] with acc1 := 0xff00ff00, acc2 := 0x0ff00ff0 } (fun t => t.acc1) = some 0xf0f0f0f0 := by decide

-- A19
theorem test_sra_negative : after { at' 0 [0x35, 0x85] with acc1 := 0x80000000, carry := true } (fun t => (t.acc1, t.pc, t.carry)) = some (0xfc000000, 2, true) := by decide

-- A23
theorem test_sra_31_positive : after { at' 0 [0x35, 0x9f] with acc1 := 0x7fffffff } (fun t => t.acc1) = some 0 := by decide

-- A25
theorem test_pc_as_source : after (at' 0x10 [0x30, 0x27, 0x07]) (fun t => (t.acc1, t.pc)) = some (0x26, 0x13) := by decide

-- M2
theorem test_mov_word_store_bytes : after { at' 0 [0x20, 0x8c] with wp := 0x100, acc1 := 0x12345678 } (fun t => t.main) = some [(0, 0x20), (1, 0x8c), (0x100, 0x78), (0x101, 0x56), (0x102, 0x34), (0x103, 0x12)] := by decide

-- M5
theorem test_mov_word_store_faults : ending { at' 0 [0x20, 0x8c] with wp := 0x7ffd, acc1 := 1 } (fun t => (t.pc, t.main)) = some (.memFault 0x7ffd 32768, 2, [(0, 0x20), (1, 0x8c)]) := by decide

-- M9
theorem test_mov_byte_zero_extends : after { at' 0 [0x21, 0x0c] with wp := 0xffffffff, acc1 := 0x12345678 } (fun t => t.wp) = some 0x78 := by decide

-- M10
theorem test_mov_byte_store_one_byte : after { at' 0 [0x21, 0x8c] with wp := 0x200, acc1 := 0x12345678 } (fun t => t.main) = some [(0, 0x21), (1, 0x8c), (0x200, 0x78)] := by decide

-- M18
theorem test_store_pre_decrement_self : after { at' 0 [0x22, 0xc9] with wp := 0x100 } (fun t => (t.wp, t.byteAt .main 0xfc, t.byteAt .main 0xfd)) = some (0xfc, 0xfc, 0) := by decide

-- M20
theorem test_store_pre_decrement_wraps : ending { at' 0 [0x22, 0xcc] with wp := 0, acc1 := 1 } (fun t => (t.wp, t.pc)) = some (.memFault 0xfffffffc 32768, 0xfffffffc, 2) := by decide

-- M22
theorem test_store_byte_post_increment : after { at' 0 [0x23, 0x05] with ip := 0x300, acc2 := 0xaabbccdd } (fun t => (t.ip, t.byteAt .main 0x300, t.byteAt .main 0x301)) = some (0x301, 0xdd, 0) := by decide

-- R168 with the instruction's own bytes as data
theorem test_load_word_pre_decrement : after { at' 0 [0x24, 0xcd] with wp := 4 } (fun t => (t.wp, t.acc2)) = some (0, 0x0000cd24) := by decide

-- R169 with the instruction's own second byte as data
theorem test_load_byte_post_decrement : after { at' 0 [0x25, 0x84] with ip := 1 } (fun t => (t.ip, t.acc1)) = some (0, 0x84) := by decide

-- M31
theorem test_movi_source_example : after (at' 0 [0x26, 0x10, 0x41, 0x32, 0x22]) (fun t => (t.acc1, t.pc)) = some (0x22324110, 5) := by decide

-- M32
theorem test_movi_acc2 : after { at' 0 [0x27, 0xff, 0xff, 0xff, 0xff] with carry := true } (fun t => (t.acc2, t.carry)) = some (0xffffffff, true) := by decide

-- J8
theorem test_jump_through_pc : after (at' 0x10 [0x67, 0x40]) (fun t => t.pc) = some 0x40 := by decide

-- J9
theorem test_jump_through_faults : ending { at' 0x10 [0x60] with ip := 0x7ffd } (fun t => t.pc) = some (.memFault 0x7ffd 32768, 0x11) := by decide

-- J16
theorem test_jump_to_ret : after { at' 0x10 [0x6e] with ret := 0x228 } (fun t => t.pc) = some 0x228 := by decide

-- J17
theorem test_jump_to_pc_is_nop : after (at' 0x20 [0x6f]) (fun t => t.pc) = some 0x21 := by decide

-- J19
theorem test_jmp_beyond_main : after (at' 0x18 [0x70, 0x00, 0x00, 0x01, 0x00]) (fun t => t.pc) = some 0x10000 := by decide

-- J20
theorem test_jz_taken : after (at' 0x13 [0x71, 0x1d]) (fun t => t.pc) = some 0x1d := by decide

-- J22
theorem test_jz_all_32_bits : after { at' 0x13 [0x71, 0x1d] with acc1 := 0x100 } (fun t => t.pc) = some 0x18 := by decide

-- J23
theorem test_jc_taken_keeps_carry : after { at' 8 [0x72, 0x30] with carry := true } (fun t => (t.pc, t.carry)) = some (0x30, true) := by decide

-- J25
theorem test_call : after { at' 0xe [0x73, 0x20] with ret := 0x999 } (fun t => (t.ret, t.pc)) = some (0x13, 0x20) := by decide

-- J28
theorem test_call_truncated : ending { at' 0x7ffc [0x73, 0x20] with ret := 0x999 } (fun t => (t.ret, t.pc)) = some (.memFault 0x7ffd 32768, 0x999, 0x7ffd) := by decide

-- S6
theorem test_dpush_last_word : after { at' 0 [0x84] with dsp := 0x7ffc, acc1 := 1 } (fun t => (t.dsp, t.dstack)) = some (0x8000, [(0x7ffc, 1)]) := by decide

-- S9
theorem test_dpush_own_pointer : after { at' 0 [0x83] with dsp := 8 } (fun t => (t.dsp, t.dstack)) = some (0xc, [(8, 8)]) := by decide

-- S7
theorem test_dpush_full : ending { at' 0 [0x84] with dsp := 0x8000, acc1 := 1 } (fun t => (t.dsp, t.dstack)) = some (.memFault 0x8000 32768, 0x8000, []) := by decide

-- S3
theorem test_dpop_empty : ending { at' 0 [0x8c] with acc1 := 7 } (fun t => (t.acc1, t.dsp, t.pc)) = some (.error, 7, 0, 1) := by decide

-- S5
theorem test_dpop_wraps : ending { at' 0 [0x8c] with dsp := 2 } (fun t => t.dsp) = some (.memFault 0xfffffffe 32768, 0xfffffffe) := by decide

-- S10
theorem test_dpop_own_pointer : after { at' 0 [0x8b] with dsp := 8, dstack := [(4, 0x20)] } (fun t => t.dsp) = some 0x20 := by decide

-- S15
theorem test_rpush_pointer_of_other_stack : after { at' 0 [0x93] with dsp := 0x44, rsp := 8 } (fun t => (t.rsp, t.rstack, t.dstack)) = some (0xc, [(8, 0x44)], []) := by decide

-- S14
theorem test_rpop_pc_returns : after { at' 0x25 [0x9f] with rsp := 4, rstack := [(0, 0x13)] } (fun t => (t.rsp, t.pc)) = some (0, 0x13) := by decide

-- S4
theorem test_rpop_empty : ending { at' 0 [0x9e] with ret := 7 } (fun t => (t.ret, t.pc)) = some (.error, 7, 1) := by decide

-- X1
theorem test_nop : after { at' 0x10 [0x00] with carry := true } (fun t => (t.pc, t.carry)) = some (0x11, true) := by decide

-- X2
theorem test_illegal : ending (at' 0x40 [0xff]) (fun t => t.pc) = some (.illegalInstruction, 0x41) := by decide

-- X6
theorem test_unmapped : ending (at' 0 [0xa0]) (fun t => t.pc) = some (.illegalInstruction, 1) := by decide

-- X8
theorem test_ifkt_input_echoes : after { at' 0 [0xfe, 0x01] with acc1 := 0xffffffff, consoleIn := [.char 0x41] } (fun t => (t.acc1, t.consoleIn, t.consoleOut)) = some (0x41, [], [0x41]) := by decide

-- X9
theorem test_ifkt_input_interrupted : ending { at' 0 [0xfe, 0x01] with acc1 := 0x77, consoleIn := [.interrupted] } (fun t => (t.acc1, t.pc, t.consoleOut)) = some (.error, 0x77, 3, []) := by decide

-- X10
theorem test_ifkt_output : after { at' 0 [0xfe, 0x02] with acc1 := 0x12345641 } (fun t => t.consoleOut) = some [0x41] := by decide

-- X11
theorem test_ifkt_terminate : ending (at' 0x1d [0xfe, 0x03]) (fun t => t.pc) = some (.finished, 0x20) := by decide

-- R285 with the instruction's own bytes as data
theorem test_ifkt_dump_word : after (at' 0 [0xfe, 0x04]) (fun t => t.diag) = some [.dumpWord 0 0x04fe] := by decide

-- X14, with the instruction's own bytes as data
theorem test_ifkt_dump_range : after { at' 0 [0xfe, 0x05] with acc1 := 2, acc2 := 0 } (fun t => t.diag) = some [.dumpRange 0 2 [0xfe, 0x05]] := by decide

-- X16
theorem test_ifkt_dump_range_leaves_main : ending { at' 0 [0xfe, 0x05] with acc1 := 0x7ffe, acc2 := 0x8001 } (fun t => (t.pc, t.diag)) = some (.memFault 0x8000 32768, 3, []) := by decide

-- X19
theorem test_ifkt_unrecognised : ending (at' 0 [0xfe, 0x03, 0x01]) (fun t => t.pc) = some (.illegalInstruction, 3) := by decide

-- R389: console bytes and records in one sequence, in the order emitted
theorem test_emitted_in_order :
    (run false 3 { at' 0 [0xfe, 0x02, 0x00, 0xfe, 0x05, 0x00, 0xfe, 0x02] with acc1 := 2, acc2 := 2 }).emittedSince State.reset =
      [.console 2, .diag (.dumpRange 2 2 []), .console 2] := by decide

-- R126
theorem test_trace_before_step : (run true 1 { at' 0 [0xfe, 0x02] with acc1 := 0x41 }).emittedSince State.reset =
    [.diag (.trace 0 0xfe "ifkt 0x2".toList), .console 0x41] := by decide

/-! ## Text, ports, reset -/

-- part 2.6 of the vectors
theorem test_disasm :
    disasm 0 (at' 0 [0x73, 0x15, 0x00, 0x00, 0x00]) = .text "call 0x15".toList ∧
    disasm 0 (at' 0 [0xa0]) = .text "<unknown a0>".toList ∧
    disasm 0 (at' 0 [0x30, 0xc1, 0xfc]) = .text "add.w %ip, %wp, %acc1".toList ∧
    disasm 0x7ffe (at' 0x7ffe [0x30, 0x24]) = .memFault 0x8000 32768 := by decide

theorem test_assemble : assembleBytes "mov.w [--%wp], %acc1".toList = some [0x22, 0xcc] := by decide
theorem test_assemble_refuses_wide_amount : assemble "sra.w %pc, 0x20".toList = none := by decide
theorem test_assemble_refuses_leading_zero : assemble "jmp 0x01".toList = none := by decide

-- H1
theorem test_image_too_large (s : State) : loadImage (List.replicate 32769 1) s = (.imageTooLarge, s) := by
  unfold loadImage; rw [if_neg (by rw [List.length_replicate]; decide)]

theorem test_reset_is_canonical : State.reset.wf = true := by decide

-- Self-modifying code is seen by the next fetch (R67); withFetchWord stores what the next step runs
theorem test_fetch_word : after (State.reset.withFetchWord 40 0x2232411026) (fun t => (t.acc1, t.pc)) =
    some (0x22324110, 5) := by decide
/-! ## Witnesses: for each statement with hypotheses, cases that meet them, at the boundary of each clause -/

theorem witness_EncodeAndDecodeAreInverse :
    (Instr.sraW .pc 31).wf = true ∧ decode [0x35, 0xff, 0x07] = .instr (.sraW .pc 31) [0x07] := by decide

theorem witness_OpcodeDecidesLength :
    tableLength (0xfd : Byte).toNat = none ∧ tableLength (0x26 : Byte).toNat = some 5 ∧
    5 ≤ ([1, 2, 3, 4] : List Byte).length + 1 ∧ ([1, 2, 3] : List Byte).length + 1 < 5 := by decide

theorem witness_AssemblyIsDisassemblyText :
    assemble "sra.w %pc, 0x1f".toList = some (.sraW .pc 31) ∧ (Instr.sraW .pc 31).wf = true := by decide

theorem witness_TextDeterminesCanonicalBytes :
    (∀ k, k < 5 → (at' 0 [0x00]).byteAt .main ((0 : Word).toNat + k) =
      { at' 0 [0x00] with acc1 := 7 }.byteAt .main ((0 : Word).toNat + k)) ∧
    decode [0x30, 0xc1, 0xfc] = .instr (.addW .ip .wp .acc1) [] ∧
    decode [0x30, 0x01, 0x04] = .instr (.addW .ip .wp .acc1) [] ∧
    unknownText 0xa0 = unknownText 0xa0 := by decide

theorem witness_StepRunsDecodedInstruction :
    decodeAt (at' 0x7fff [0x60]).main 0x7fff = .instr .jmpiIp 1 ∧ decodeAt (at' 0x7fff [0xa0]).main 0x7fff = .unknown 0xa0 ∧
    decodeAt (at' 0x7ffe [0x30, 0x24]).main 0x7ffe = .memFault 0x8000 32768 := by decide

theorem witness_StepRunsEncodedInstruction :
    (Instr.call 0x20).wf = true ∧ (at' 0x7ffb [0x73, 0x20]).pc.toNat + (encode (.call 0x20)).length ≤ 32768 ∧
    ∀ k, k < 5 → (encode (.call 0x20))[k]? =
      some ((at' 0x7ffb [0x73, 0x20]).byteAt .main ((at' 0x7ffb [0x73, 0x20]).pc.toNat + k)) := by decide

/-- One case for each form: `pc` at the capacity, a truncated FI, FK, FM, and FA at its second and its first operand byte. -/
theorem witness_TruncatedFetchFaults :
    32768 ≤ (at' 0x8000 []).pc.toNat ∧
    (opcodeMap ((at' 0x7ffc [0x26]).byteAt .main 0x7ffc)).map OpcodeRow.format = some .FI ∧ 32768 < 0x7ffc + 5 ∧
    (opcodeMap ((at' 0x7ffe [0xfe]).byteAt .main 0x7ffe)).map OpcodeRow.format = some .FK ∧ 32768 < 0x7ffe + 3 ∧
    (opcodeMap ((at' 0x7fff [0x20]).byteAt .main 0x7fff)).map OpcodeRow.format = some .FM ∧
    (opcodeMap ((at' 0x7ffe [0x30]).byteAt .main 0x7ffe)).map OpcodeRow.format = some .FA := by decide

theorem witness_PcAdvancesByLength :
    decodeAt (at' 0x10 [0x71, 0x1d]).main 0x10 = .instr (.jz 0x1d) 5 ∧
    ¬ redirectsPc (.jz 0x1d) { at' 0x10 [0x71, 0x1d] with acc1 := 0x100 } ∧
    after { at' 0x10 [0x71, 0x1d] with acc1 := 0x100 } (fun t => t.pc) = some 0x15 :=
  ⟨by decide, by show ¬ (0x100 : Word) = 0; decide, by decide⟩

/-- The statement's both sides are met: `ifkt 0x3` ends with `Finished`. -/
theorem witness_FinishedOnlyByTerminate :
    decodeAt (at' 0x7ffd [0xfe, 0x03, 0x00]).main 0x7ffd = .instr (.ifkt 3) 3 ∧
    ending (at' 0x7ffd [0xfe, 0x03, 0x00]) (fun t => t.pc) = some (.finished, 0x8000) := by decide

/-- Each of the three causes. -/
theorem witness_ErrorHasThreeCauses :
    ending (at' 0 [0x8f]) (fun t => t.pc) = some (.error, 1) ∧ ending (at' 0 [0x98]) (fun t => t.pc) = some (.error, 1) ∧
    ending { at' 0 [0xfe, 0x01] with consoleIn := [.interrupted] } (fun t => t.pc) = some (.error, 3) := by decide

/-- Each of the three causes, the code at both ends of the unrecognised range. -/
theorem witness_IllegalHasThreeCauses :
    ending (at' 0 [0xff]) (fun t => t.pc) = some (.illegalInstruction, 1) ∧
    ending (at' 0 [0x01]) (fun t => t.pc) = some (.illegalInstruction, 1) ∧
    ending (at' 0 [0xfe, 0x00]) (fun t => t.pc) = some (.illegalInstruction, 3) ∧
    ending (at' 0 [0xfe, 0x06]) (fun t => t.pc) = some (.illegalInstruction, 3) := by decide

/-- A terminal outcome of an instruction, of an unmapped opcode, of a fetch, of an access after a changed pointer. -/
theorem witness_TerminalOutcomesLeaveState :
    (decodeAt (at' 0 [0x8c]).main 0 = .instr .dpopAcc1 1 ∧ ending (at' 0 [0x8c]) (fun t => t.pc) = some (.error, 1)) ∧
    decodeAt (at' 0 [0x01]).main 0 = .unknown 0x01 ∧
    (decodeAt (at' 0x8000 []).main 0x8000 = .memFault 0x8000 32768 ∧
      ending (at' 0x8000 []) (fun t => t.pc) = some (.memFault 0x8000 32768, 0x8000)) ∧
    (decodeAt (at' 0 [0x22, 0xcc]).main 0 = .instr (.movsStW .preDec .wp .acc1) 2 ∧
      ending (at' 0 [0x22, 0xcc]) (fun t => t.wp) = some (.memFault 0xfffffffc 32768, 0xfffffffc)) := by decide

theorem witness_FaultCarriesOutOfRangeAccess :
    ending { at' 0 [0x84] with dsp := 0x7ffd } (fun t => t.dsp) = some (.memFault 0x7ffd 32768, 0x7ffd) := by decide

theorem witness_PowerOnState : 0 < Region.main.cap ∧ 32767 < Region.dstack.cap ∧ 32767 < Region.rstack.cap := by decide

theorem witness_LoadImageIsAllOrNothing :
    (List.replicate 32768 (1 : Byte)).length ≤ 32768 ∧ 32768 < (List.replicate 32769 (1 : Byte)).length := by
  simp only [List.length_replicate]; decide

theorem witness_SnapshotAndPeekPorts : (0x7fff : Word).toNat < Region.main.cap ∧ Region.main.cap ≤ (0x8000 : Word).toNat := by
  decide

/-- A run that is still running, one that has ended, and a traced one from a state that has emitted before. -/
theorem witness_RunEndsAtFirstTerminalOutcome :
    (∃ t, run false 1 (at' 0 [0x00, 0xff]) = .running t) ∧
    (∃ t, run false 2 (at' 0 [0x00, 0xff]) = .ended .illegalInstruction t) ∧
    ∃ t, run true 1 { at' 0 [0x00] with emitted := [.console 1] } = .running t := ⟨⟨_, rfl⟩, ⟨_, rfl⟩, ⟨_, rfl⟩⟩

theorem witness_StepKeepsMemoryCanonical :
    { at' 0 [0x84] with dsp := 0x7ffc, acc1 := 1 }.wf = true ∧
    after { at' 0 [0x84] with dsp := 0x7ffc, acc1 := 1 } (fun t => t.wf) = some true := by decide

theorem witness_MemReadInIsLittleEndian :
    (0x7fff : Word).toNat + 1 ≤ 32768 ∧ (0x7ffe : Word).toNat + 2 ≤ 32768 ∧ (0x7ffc : Word).toNat + 4 ≤ 32768 ∧
    32768 < (0x8000 : Word).toNat + 1 ∧ 32768 < (0x7fff : Word).toNat + 2 ∧ 32768 < (0x7ffd : Word).toNat + 4 := by decide

theorem witness_MemWriteInStoresLittleEndian :
    (0x7fff : Word).toNat + 1 ≤ 32768 ∧ (0x7ffc : Word).toNat + 4 ≤ 32768 ∧ 32768 < (0x8000 : Word).toNat + 1 ∧
    32768 < (0xffffffff : Word).toNat + 4 := by decide

theorem witness_NarrowAccessesSeeWordBytes : (0x7ffc : Word).toNat + 4 ≤ 32768 ∧ 3 < 4 := by decide

theorem witness_RegionsChangeOnlyByTheirInstructions :
    (stateLeft (exec .rpushRet State.reset)).isSome = true ∧ storesToMain .rpushRet = false ∧
    Instr.rpushRet ∉ dpushRows.map Prod.fst ∧ Instr.dpushRet ∉ rpushRows.map Prod.fst := by decide

theorem witness_UnmappedOpcodeIsIllegal :
    (at' 0x7fff [0x01]).pc.toNat < 32768 ∧ unmapped ((at' 0x7fff [0x01]).byteAt .main 0x7fff).toNat ∧
    unmapped ((at' 0 [0xfd]).byteAt .main 0).toNat ∧ (at' 0x7fff [0xff]).byteAt .main 0x7fff = 0xff ∧
    (opcodeMap ((at' 0 [0xa0]).byteAt .main 0)).isNone = true :=
  ⟨by decide, .inl (by decide), .inr (.inr (.inr (.inr (by decide)))), by decide, by decide⟩

theorem witness_SraShiftsInSignCopies : 31 ≤ 31 ∧ (0 + 31 ≤ 31) ∧ (31 < 1 + 31 ∧ 1 ≤ 31) ∧ 0 ≤ 31 := by decide

theorem witness_CarryWrittenByAddSubReadByJc :
    writesCarry .nop = false ∧ readsCarry (.addW .ip .ip .ip) = false ∧
    (stateLeft (exec .nop State.reset)).isSome = true := by decide

/-- Source and target cells at both ends of what fits, and just beyond. -/
theorem witness_MovWordFourModes :
    ({ State.reset with ip := 0x7ffc, wp := 0 }.get .ip).toNat + 4 ≤ 32768 ∧
    ({ State.reset with ip := 0x7ffc, wp := 0 }.get .wp).toNat + 4 ≤ 32768 ∧
    32768 < ({ State.reset with acc1 := 0x7ffd }.get .acc1).toNat + 4 := by decide

theorem witness_MovByteFourModes :
    ({ State.reset with ip := 0x7fff, wp := 0 }.get .ip).toNat < 32768 ∧
    ({ State.reset with ip := 0x7fff, wp := 0 }.get .wp).toNat < 32768 ∧
    32768 ≤ ({ State.reset with acc1 := 0x8000 }.get .acc1).toNat := by decide

theorem witness_AdjustingWordStore :
    (accessed 4 .preDec ({ State.reset with wp := 0x8000 }.get .wp)).toNat + 4 ≤ 32768 ∧
    32768 < (accessed 4 .preDec ({ State.reset with wp := 3 }.get .wp)).toNat + 4 := by decide

theorem witness_AdjustingByteStore :
    (accessed 1 .preDec ({ State.reset with wp := 0x8000 }.get .wp)).toNat + 1 ≤ 32768 ∧
    32768 < (accessed 1 .preDec ({ State.reset with wp := 0 }.get .wp)).toNat + 1 := by decide

theorem witness_AdjustingWordLoad :
    (accessed 4 .postInc ({ State.reset with wp := 0x7ffc }.get .wp)).toNat + 4 ≤ 32768 ∧
    32768 < (accessed 4 .preInc ({ State.reset with wp := 0x7ffc }.get .wp)).toNat + 4 := by decide

theorem witness_AdjustingByteLoad :
    (accessed 1 .postDec ({ State.reset with wp := 0x7fff }.get .wp)).toNat + 1 ≤ 32768 ∧
    32768 < (accessed 1 .preInc ({ State.reset with wp := 0x7fff }.get .wp)).toNat + 1 := by decide

theorem witness_AdjustingMovesRoundTrip :
    Reg.wp ≠ .acc1 ∧ Reg.wp ≠ .acc2 ∧ ({ State.reset with wp := 0x7ffc }.get .wp).toNat + 4 ≤ 32768 ∧
    ({ State.reset with wp := 0x8000 }.get .wp - 4).toNat + 4 ≤ 32768 := by decide

theorem witness_IndirectJumpsReadTheirCell :
    (Instr.jmpiPc, Reg.pc) ∈ jmpiRows ∧ ({ State.reset with pc := 0x7ffc }.get .pc).toNat + 4 ≤ 32768 ∧
    32768 < ({ State.reset with pc := 0x7ffd }.get .pc).toNat + 4 := by decide

theorem witness_DirectJumpsTakeRegister : (Instr.jmpdRet, Reg.ret) ∈ jmpdRows := by decide

theorem witness_JumpThroughPcIsJumpImmediate :
    ((at' 0x7ffb [0x67]).pc.toNat < 32768 ∧ (at' 0x7ffb [0x67]).byteAt .main 0x7ffb = 0x67 ∧
      (at' 0x7ffb [0x67]).pc.toNat + 5 ≤ 32768) ∧
    ((at' 0x7fff [0x70]).pc.toNat < 32768 ∧ (at' 0x7fff [0x70]).byteAt .main 0x7fff = 0x70 ∧
      32768 < (at' 0x7fff [0x70]).pc.toNat + 5) := by decide

theorem witness_CallSavesReturnAddress :
    (at' 0x7ffb [0x73]).pc.toNat + 5 ≤ 32768 ∧ (at' 0x7ffb [0x73]).byteAt .main 0x7ffb = 0x73 := by decide

theorem witness_DataPushes :
    (Instr.dpushDsp, Reg.dsp) ∈ dpushRows ∧ { State.reset with dsp := 0x7ffc }.dsp.toNat + 4 ≤ 32768 ∧
    32768 < { State.reset with dsp := 0x7ffd }.dsp.toNat + 4 := by decide

theorem witness_DataPops :
    (Instr.dpopPc, Reg.pc) ∈ dpopRows ∧ State.reset.dsp = 0 ∧
    ({ State.reset with dsp := 0x8000 }.dsp ≠ 0 ∧ ({ State.reset with dsp := 0x8000 }.dsp - 4).toNat + 4 ≤ 32768) ∧
    ({ State.reset with dsp := 3 }.dsp ≠ 0 ∧ 32768 < ({ State.reset with dsp := 3 }.dsp - 4).toNat + 4) := by decide

theorem witness_ReturnPushes :
    (Instr.rpushRsp, Reg.rsp) ∈ rpushRows ∧ { State.reset with rsp := 0x7ffc }.rsp.toNat + 4 ≤ 32768 ∧
    32768 < { State.reset with rsp := 0x7ffd }.rsp.toNat + 4 := by decide

theorem witness_ReturnPops :
    (Instr.rpopPc, Reg.pc) ∈ rpopRows ∧ State.reset.rsp = 0 ∧
    ({ State.reset with rsp := 4 }.rsp ≠ 0 ∧ ({ State.reset with rsp := 4 }.rsp - 4).toNat + 4 ≤ 32768) ∧
    ({ State.reset with rsp := 0x8001 }.rsp ≠ 0 ∧ 32768 < ({ State.reset with rsp := 0x8001 }.rsp - 4).toNat + 4) := by
  decide

theorem witness_PushThenPopReturnsWord :
    (Instr.dpushIp, Reg.ip) ∈ dpushRows ∧ (Instr.dpopDsp, Reg.dsp) ∈ dpopRows ∧
    { State.reset with dsp := 0x7ffc }.dsp.toNat + 4 ≤ 32768 ∧ (Instr.rpushPc, Reg.pc) ∈ rpushRows ∧
    (Instr.rpopIp, Reg.ip) ∈ rpopRows ∧ Reg.ip ≠ .rsp ∧ { State.reset with rsp := 0x7ffc }.rsp.toNat + 4 ≤ 32768 := by
  decide

theorem witness_StacksAreIndependent :
    (stateLeft (exec .dpushIp State.reset)).isSome = true ∧ Instr.dpushIp ∈ (dpushRows ++ dpopRows).map Prod.fst ∧
    Instr.dpushIp ≠ .dpopRsp ∧ (stateLeft (exec .rpopPc State.reset)).isSome = true ∧
    Instr.rpopPc ∈ (rpushRows ++ rpopRows).map Prod.fst ∧ Instr.rpopPc ≠ .rpopDsp := by decide

theorem witness_IfktInputEchoesCharacter :
    { State.reset with consoleIn := [.char 0xff] }.consoleIn = .char 0xff :: [] ∧
    { State.reset with consoleIn := [.interrupted, .char 1] }.consoleIn = .interrupted :: [.char 1] ∧
    State.reset.consoleIn = [] := by decide

theorem witness_IfktDumpsWordAtDsp :
    { State.reset with dsp := 0x7ffc }.dsp.toNat + 4 ≤ 32768 ∧ 32768 < { State.reset with dsp := 0x7ffd }.dsp.toNat + 4 := by
  decide

/-- Bounds equal and out of range, a range that ends at the capacity, one that crosses it, one that starts at it. -/
theorem witness_IfktDumpsRange :
    lowBound { State.reset with acc1 := 0xffffffff, acc2 := 0xffffffff } =
      highBound { State.reset with acc1 := 0xffffffff, acc2 := 0xffffffff } ∧
    (highBound { State.reset with acc1 := 0x8000, acc2 := 0x7fff }).toNat ≤ 32768 ∧
    (lowBound { State.reset with acc1 := 0x8001, acc2 := 0x7fff } ≠
      highBound { State.reset with acc1 := 0x8001, acc2 := 0x7fff } ∧
      32768 < (highBound { State.reset with acc1 := 0x8001, acc2 := 0x7fff }).toNat) ∧
    (lowBound { State.reset with acc1 := 0x8000, acc2 := 0x8001 }).toNat = 32768 := by decide

theorem witness_IfktUnrecognisedCodeIsIllegal :
    (0 : Half).toNat = 0 ∧ 6 ≤ (6 : Half).toNat ∧ 6 ≤ (0xffff : Half).toNat := by decide

end Sys2Proof.Tests
end

section
/-! # The operations behind the instructions

Each of the 69 arms of `exec` runs one of sixteen operations. What an operation may change (its footprint) and which
changes of the state it carries through are proved once per operation, and every claim about all instructions is read off
from there. -/

namespace Sys2Proof.Machine

open Sys2Proof.Claims

/-! ## The operation of an instruction -/

/-- The operations that the arms of `exec` run, with their parameters. -/
inductive Operation where
  /-- end the step and do nothing else (`nop`, `illegal`) -/
  | quiet (o : StepOutcome)
  | move (w : Width) (t src : Operand)
  | adjustingStore (w : Width) (m : Adjust) (p v : Reg)
  | adjustingLoad (w : Width) (v : Reg) (m : Adjust) (p : Reg)
  /-- a literal to a register (`movi`, and `jmp imm32`, whose register is `pc`) -/
  | literal (r : Reg) (imm : Word)
  | arithmetic (f : Word → Word → Word) (c : Word → Word → Bool) (t a b : Reg)
  | bitwise (f : Word → Word → Word) (t a b : Reg)
  | shift (r : Reg) (n : Nat)
  | jumpThrough (r : Reg)
  | jumpTo (r : Reg)
  | jz (imm : Word)
  | jc (imm : Word)
  | call (imm : Word)
  | push (g : Region) (sp r : Reg)
  | pop (g : Region) (sp r : Reg)
  | ifkt (code : Half)

/-- What the operation does. -/
def Operation.run : Operation → State → Result
  | .quiet o => endStep o
  | .move w t src => moveRegister w t src
  | .adjustingStore w m p v => Machine.adjustingStore w m p v
  | .adjustingLoad w v m p => Machine.adjustingLoad w v m p
  | .literal r imm => fun s => succeed (s.set r imm)
  | .arithmetic f c t a b => Machine.arithmetic f c t a b
  | .bitwise f t a b => Machine.bitwise f t a b
  | .shift r n => execSraW r n
  | .jumpThrough r => Machine.jumpThrough r
  | .jumpTo r => Machine.jumpTo r
  | .jz imm => execJz imm
  | .jc imm => execJc imm
  | .call imm => execCall imm
  | .push g sp r => Machine.push g sp r
  | .pop g sp r => Machine.pop g sp r
  | .ifkt code => execIfkt code

/-- The operation of each instruction. -/
def operation : Instr → Operation
  | .nop => .quiet .success
  | .movrW t src => .move .word t src
  | .movrB t src => .move .byte t src
  | .movsStW m p v => .adjustingStore .word m p v
  | .movsStB m p v => .adjustingStore .byte m p v
  | .movsLdW v m p => .adjustingLoad .word v m p
  | .movsLdB v m p => .adjustingLoad .byte v m p
  | .moviAcc1 imm => .literal .acc1 imm
  | .moviAcc2 imm => .literal .acc2 imm
  | .addW t a b => .arithmetic addResult addCarry t a b
  | .subW t a b => .arithmetic subResult subBorrow t a b
  | .orW t a b => .bitwise (fun va vb => va ||| vb) t a b
  | .andW t a b => .bitwise (fun va vb => va &&& vb) t a b
  | .xorW t a b => .bitwise (fun va vb => va ^^^ vb) t a b
  | .sraW r n => .shift r n
  | .jmpiIp => .jumpThrough .ip
  | .jmpiWp => .jumpThrough .wp
  | .jmpiRsp => .jumpThrough .rsp
  | .jmpiDsp => .jumpThrough .dsp
  | .jmpiAcc1 => .jumpThrough .acc1
  | .jmpiAcc2 => .jumpThrough .acc2
  | .jmpiRet => .jumpThrough .ret
  | .jmpiPc => .jumpThrough .pc
  | .jmpdIp => .jumpTo .ip
  | .jmpdWp => .jumpTo .wp
  | .jmpdRsp => .jumpTo .rsp
  | .jmpdDsp => .jumpTo .dsp
  | .jmpdAcc1 => .jumpTo .acc1
  | .jmpdAcc2 => .jumpTo .acc2
  | .jmpdRet => .jumpTo .ret
  | .jmpdPc => .jumpTo .pc
  | .jmp imm => .literal .pc imm
  | .jz imm => .jz imm
  | .jc imm => .jc imm
  | .call imm => .call imm
  | .dpushIp => .push .dstack .dsp .ip
  | .dpushWp => .push .dstack .dsp .wp
  | .dpushRsp => .push .dstack .dsp .rsp
  | .dpushDsp => .push .dstack .dsp .dsp
  | .dpushAcc1 => .push .dstack .dsp .acc1
  | .dpushAcc2 => .push .dstack .dsp .acc2
  | .dpushRet => .push .dstack .dsp .ret
  | .dpushPc => .push .dstack .dsp .pc
  | .dpopIp => .pop .dstack .dsp .ip
  | .dpopWp => .pop .dstack .dsp .wp
  | .dpopRsp => .pop .dstack .dsp .rsp
  | .dpopDsp => .pop .dstack .dsp .dsp
  | .dpopAcc1 => .pop .dstack .dsp .acc1
  | .dpopAcc2 => .pop .dstack .dsp .acc2
  | .dpopRet => .pop .dstack .dsp .ret
  | .dpopPc => .pop .dstack .dsp .pc
  | .rpushIp => .push .rstack .rsp .ip
  | .rpushWp => .push .rstack .rsp .wp
  | .rpushRsp => .push .rstack .rsp .rsp
  | .rpushDsp => .push .rstack .rsp .dsp
  | .rpushAcc1 => .push .rstack .rsp .acc1
  | .rpushAcc2 => .push .rstack .rsp .acc2
  | .rpushRet => .push .rstack .rsp .ret
  | .rpushPc => .push .rstack .rsp .pc
  | .rpopIp => .pop .rstack .rsp .ip
  | .rpopWp => .pop .rstack .rsp .wp
  | .rpopRsp => .pop .rstack .rsp .rsp
  | .rpopDsp => .pop .rstack .rsp .dsp
  | .rpopAcc1 => .pop .rstack .rsp .acc1
  | .rpopAcc2 => .pop .rstack .rsp .acc2
  | .rpopRet => .pop .rstack .rsp .ret
  | .rpopPc => .pop .rstack .rsp .pc
  | .ifkt code => .ifkt code
  | .illegal => .quiet .illegalInstruction

/-- Every arm of `exec` runs the operation of its instruction. -/
theorem exec_eq_run (i : Instr) (s : State) : exec i s = (operation i).run s := by cases i <;> rfl

/-! ## The footprint of an operation -/

/-- What may change: registers, regions, the flag `C`. The outcome and the port streams may always change. -/
structure Footprint where
  regs : Set Reg := ∅
  regions : Set Region := ∅
  carry : Bool := false

/-- What an operation may change when it runs in `s`. -/
def Operation.footprint (s : State) : Operation → Footprint
  | .quiet _ => {}
  | .move _ (.direct r) _ => { regs := {r} }
  | .move _ (.indirect _) _ => { regions := {.main} }
  | .adjustingStore _ _ p _ => { regs := {p}, regions := {.main} }
  | .adjustingLoad _ v _ p => { regs := {v, p} }
  | .literal r _ => { regs := {r} }
  | .arithmetic _ _ t _ _ => { regs := {t}, carry := true }
  | .bitwise _ t _ _ => { regs := {t} }
  | .shift r _ => { regs := {r} }
  | .jumpThrough _ => { regs := {.pc} }
  | .jumpTo _ => { regs := {.pc} }
  | .jz _ => { regs := {r | r = .pc ∧ s.acc1 = 0} }
  | .jc _ => { regs := {r | r = .pc ∧ s.carry = true} }
  | .call _ => { regs := {.ret, .pc} }
  | .push g sp _ => { regs := {sp}, regions := {g} }
  | .pop _ sp r => { regs := {sp, r} }
  | .ifkt _ => { regs := {.acc1} }

/-- `t` comes from `s` by the model's elementary updates, each within the footprint, every store inside its region. -/
inductive Edits (fp : Footprint) (s : State) : State → Prop where
  | refl : Edits fp s s
  | set {t} (h : Edits fp s t) {r : Reg} (v : Word) (hr : r ∈ fp.regs) : Edits fp s (t.set r v)
  | storeAt {t} (h : Edits fp s t) {g : Region} {addr : Word} {n : Nat} (v : Word) (hg : g ∈ fp.regions)
      (hfit : addr.toNat + n ≤ g.cap) : Edits fp s (t.storeAt g addr n v)
  | setCarry {t} (h : Edits fp s t) (b : Bool) (hc : fp.carry = true) : Edits fp s (t.setCarry b)
  | setOutcome {t} (h : Edits fp s t) (o : StepOutcome) : Edits fp s (t.setOutcome o)
  | emitByte {t} (h : Edits fp s t) (b : Byte) : Edits fp s (t.emitByte b)
  | emitDiag {t} (h : Edits fp s t) (d : DiagRecord) : Edits fp s (t.emitDiag d)
  | consoleAnswer {t} (h : Edits fp s t) : Edits fp s t.consoleAnswer.2

/-! ## A console request changes no register, no flag and no region -/

@[simp] theorem State.consoleAnswer_get (s : State) (r : Reg) : s.consoleAnswer.2.get r = s.get r := by
  rcases s.consoleAnswer_cases with ⟨_, _, _, e⟩ | ⟨_, e⟩ <;> rw [e] <;> cases r <;> rfl

@[simp] theorem State.consoleAnswer_carry (s : State) : s.consoleAnswer.2.carry = s.carry := by
  rcases s.consoleAnswer_cases with ⟨_, _, _, e⟩ | ⟨_, e⟩ <;> rw [e]

@[simp] theorem State.consoleAnswer_region (s : State) (g : Region) : s.consoleAnswer.2.region g = s.region g := by
  rcases s.consoleAnswer_cases with ⟨_, _, _, e⟩ | ⟨_, e⟩ <;> rw [e] <;> cases g <;> rfl

@[simp] theorem State.wf_consoleAnswer (s : State) : s.consoleAnswer.2.wf = s.wf := by
  rcases s.consoleAnswer_cases with ⟨_, _, _, e⟩ | ⟨_, e⟩ <;> rw [e] <;> rfl

/-! ## What edits within a footprint keep -/

section
variable {fp : Footprint} {s t : State}

/-- A register outside the footprint keeps its value. -/
theorem Edits.get_eq (h : Edits fp s t) {r : Reg} (hr : r ∉ fp.regs) : t.get r = s.get r := by
  induction h with
  | refl => rfl
  | set _ _ hq ih => rw [State.get_set_ne _ _ (ne_of_mem_of_not_mem hq hr).symm, ih]
  | storeAt _ _ _ _ ih => rw [State.storeAt_get, ih]
  | setCarry _ _ _ ih => rw [State.setCarry_get, ih]
  | setOutcome _ _ ih => rw [State.setOutcome_get, ih]
  | emitByte _ _ ih => rw [State.emitByte_get, ih]
  | emitDiag _ _ ih => rw [State.emitDiag_get, ih]
  | consoleAnswer _ ih => rw [State.consoleAnswer_get, ih]

/-- A flag outside the footprint keeps its value. -/
theorem Edits.carry_eq (h : Edits fp s t) (hc : fp.carry = false) : t.carry = s.carry := by
  induction h with
  | refl => rfl
  | set _ _ _ ih => rw [State.set_carry, ih]
  | storeAt _ _ _ _ ih => rw [State.storeAt_carry, ih]
  | setCarry _ _ hc' _ => rw [hc] at hc'; cases hc'
  | setOutcome _ _ ih => rw [State.setOutcome_carry, ih]
  | emitByte _ _ ih => rw [State.emitByte_carry, ih]
  | emitDiag _ _ ih => rw [State.emitDiag_carry, ih]
  | consoleAnswer _ ih => rw [State.consoleAnswer_carry, ih]

/-- A region outside the footprint keeps its cells. -/
theorem Edits.region_eq (h : Edits fp s t) {g : Region} (hg : g ∉ fp.regions) : t.region g = s.region g := by
  induction h with
  | refl => rfl
  | set _ _ _ ih => rw [State.set_region, ih]
  | storeAt _ _ hq _ ih => rw [State.storeAt, State.region_setRegion_ne _ _ (ne_of_mem_of_not_mem hq hg).symm, ih]
  | setCarry _ _ _ ih => rw [State.setCarry_region, ih]
  | setOutcome _ _ ih => rw [State.setOutcome_region, ih]
  | emitByte _ _ ih => rw [State.emitByte_region, ih]
  | emitDiag _ _ ih => rw [State.emitDiag_region, ih]
  | consoleAnswer _ ih => rw [State.consoleAnswer_region, ih]

/-- The canonical form of memory is kept by edits within any footprint, since each store lies inside its region. -/
theorem Edits.wf (h : Edits fp s t) (hs : s.wf = true) : t.wf = true := by
  induction h with
  | refl => exact hs
  | set _ _ _ ih => rwa [State.wf_set]
  | storeAt _ v _ hfit ih => exact State.wf_storeAt v ih hfit
  | setCarry _ _ _ ih => rwa [State.wf_setCarry]
  | setOutcome _ _ ih => rwa [State.wf_setOutcome]
  | emitByte _ _ ih => rwa [State.wf_emitByte]
  | emitDiag _ _ ih => rwa [State.wf_emitDiag]
  | consoleAnswer _ ih => rwa [State.wf_consoleAnswer]

end

/-! ## The rules: a result whose state left stays within a footprint -/

/-- Whatever state the result leaves comes from `s` by edits within the footprint. -/
def Within (fp : Footprint) (s : State) (res : Result) : Prop := ∀ t, stateLeft res = some t → Edits fp s t

section
variable {fp : Footprint} {s t : State}

theorem within_endStep (o : StepOutcome) (h : Edits fp s t) : Within fp s (endStep o t) := by
  rintro _ ⟨⟩; exact h.setOutcome o

theorem within_succeed (h : Edits fp s t) : Within fp s (succeed t) := within_endStep .success h

theorem within_raiseMemFault (addr : Word) (cap : Nat) (h : Edits fp s t) : Within fp s (raiseMemFault addr cap t) := by
  rintro _ ⟨⟩; exact h.setOutcome _

theorem within_memReadIn (g : Region) (addr : Word) (n : Nat) {rest : Word → Result} (h : Edits fp s t)
    (hrest : ∀ v, Within fp s (rest v)) : Within fp s (memReadIn g addr n t rest) := by
  rcases memReadIn_cases g addr n t rest with ⟨_, e⟩ | ⟨_, e⟩ <;> rw [e]
  · exact hrest _
  · exact within_raiseMemFault _ _ h

theorem within_memWriteIn {g : Region} (addr : Word) (n : Nat) (v : Word) {rest : State → Result} (h : Edits fp s t)
    (hg : g ∈ fp.regions) (hrest : ∀ u, Edits fp s u → Within fp s (rest u)) :
    Within fp s (memWriteIn g addr n v t rest) := by
  rcases memWriteIn_cases g addr n v t rest with ⟨hfit, e⟩ | ⟨_, e⟩ <;> rw [e]
  · exact hrest _ (h.storeAt v hg hfit)
  · exact within_raiseMemFault _ _ h

theorem within_readRange (count : Nat) (addr : Word) {rest : List Byte → Result} (h : Edits fp s t)
    (hrest : ∀ bs, Within fp s (rest bs)) : Within fp s (readRange count addr t rest) := by
  rcases readRange_cases count addr t rest with ⟨bs, _, e⟩ | ⟨a, _, e⟩ <;> rw [e]
  · exact hrest bs
  · exact within_raiseMemFault _ _ h

theorem Edits.adjustPointer (w : Width) (m : Adjust) {p : Reg} (h : Edits fp s t) (hp : p ∈ fp.regs) :
    Edits fp s (adjustPointer w m p t) := h.set _ hp

theorem Edits.adjustPre (w : Width) (m : Adjust) {p : Reg} (h : Edits fp s t) (hp : p ∈ fp.regs) :
    Edits fp s (adjustPre w m p t) := by
  unfold Machine.adjustPre; split
  · exact h.adjustPointer w m hp
  · exact h

theorem Edits.adjustPost (w : Width) (m : Adjust) {p : Reg} (h : Edits fp s t) (hp : p ∈ fp.regs) :
    Edits fp s (adjustPost w m p t) := by
  unfold Machine.adjustPost; split
  · exact h
  · exact h.adjustPointer w m hp

end

theorem within_moveRegister (w : Width) (t src : Operand) (s : State) :
    Within ((Operation.move w t src).footprint s) s (moveRegister w t src s) := by
  rcases moveRegister_cases w t src s with ⟨v, e⟩ | ⟨r, _, _, e⟩ <;> rw [e]
  · cases t with
    | direct r => exact within_succeed (Edits.refl.set _ rfl)
    | indirect r => exact within_memWriteIn _ _ _ .refl rfl fun _ => within_succeed
  · exact within_raiseMemFault _ _ .refl

theorem within_execIfkt (code : Half) (s : State) :
    Within ((Operation.ifkt code).footprint s) s (execIfkt code s) := by
  unfold execIfkt
  split
  · have hask := (Edits.refl (fp := (Operation.ifkt code).footprint s) (s := s)).consoleAnswer
    unfold ifktInput
    split <;> rename_i e <;> rw [e] at hask
    · exact within_succeed ((hask.set _ rfl).emitByte _)
    · exact within_endStep _ hask
  · exact within_succeed (Edits.refl.emitByte _)
  · exact within_endStep _ .refl
  · exact within_memReadIn _ _ _ .refl fun _ => within_succeed (Edits.refl.emitDiag _)
  · exact within_readRange _ _ .refl fun _ => within_succeed (Edits.refl.emitDiag _)
  · exact within_endStep _ .refl

/-- Every operation stays within its footprint, whether it completes, ends the run or faults. -/
theorem Operation.run_within (op : Operation) (s : State) : Within (op.footprint s) s (op.run s) := by
  cases op with
  | quiet o => exact within_endStep o .refl
  | move w t src => exact within_moveRegister w t src s
  | adjustingStore w m p v =>
    exact within_memWriteIn _ _ _ (Edits.refl.adjustPre w m rfl) rfl fun _ h => within_succeed (h.adjustPost w m rfl)
  | adjustingLoad w v m p =>
    have hpre := (Edits.refl (fp := (Operation.adjustingLoad w v m p).footprint s) (s := s)).adjustPre w m (.inr rfl)
    exact within_memReadIn _ _ _ hpre fun _ => within_succeed ((hpre.set _ (.inl rfl)).adjustPost w m (.inr rfl))
  | literal r imm => exact within_succeed (Edits.refl.set _ rfl)
  | arithmetic f c t a b => exact within_succeed ((Edits.refl.set _ rfl).setCarry _ rfl)
  | bitwise f t a b => exact within_succeed (Edits.refl.set _ rfl)
  | shift r n => exact within_succeed (Edits.refl.set _ rfl)
  | jumpThrough r => exact within_memReadIn _ _ _ .refl fun _ => within_succeed (Edits.refl.set _ rfl)
  | jumpTo r => exact within_succeed (Edits.refl.set _ rfl)
  | jz imm =>
    refine within_succeed ?_
    split
    · exact Edits.refl.set _ ⟨rfl, ‹_›⟩
    · exact .refl
  | jc imm =>
    refine within_succeed ?_
    split
    · exact Edits.refl.set _ ⟨rfl, ‹_›⟩
    · exact .refl
  | call imm => exact within_succeed ((Edits.refl.set _ (Or.inl rfl)).set _ (Or.inr rfl))
  | push g sp r => exact within_memWriteIn _ _ _ .refl rfl fun _ h => within_succeed (h.set _ rfl)
  | pop g sp r =>
    have hsp := fun v => (Edits.refl (fp := (Operation.pop g sp r).footprint s) (s := s)).set v (.inl rfl)
    show Within _ s (Machine.pop g sp r s)
    unfold Machine.pop
    split
    · exact within_endStep _ .refl
    · exact within_memReadIn _ _ _ (hsp _) fun _ => within_succeed ((hsp _).set _ (.inr rfl))
  | ifkt code => exact within_execIfkt code s

/-- What an instruction leaves comes from the state it runs in by edits within its operation's footprint. -/
theorem exec_within (i : Instr) (s : State) : Within ((operation i).footprint s) s (exec i s) :=
  exec_eq_run i s ▸ (operation i).run_within s

/-! ## A step is a decode and an execution -/

/-- Of two writes of a register the later one stands. -/
theorem State.set_set (s : State) (r : Reg) (v w : Word) : (s.set r v).set r w = s.set r w := by cases r <;> rfl

/-- A step runs the instruction `Decode(pc)` finds on the state with `pc` past it, or ends at an unmapped opcode after its
one byte, or raises the fault of `Decode(pc)` with `pc` at the failing access (R97, R120 to R122, R125). -/
theorem step_cases (s : State) :
    (∃ i len, decodeAt s.main s.pc = .instr i len ∧ step s = exec i (s.set .pc (s.pc + BitVec.ofNat 32 len))) ∨
    (∃ op, decodeAt s.main s.pc = .unknown op ∧ step s = endStep .illegalInstruction (s.set .pc (s.pc + 1))) ∨
    (∃ addr cap, decodeAt s.main s.pc = .memFault addr cap ∧ step s = raiseMemFault addr cap (s.set .pc addr)) := by
  unfold step fetchThen decodeAt
  rcases fetchBytes_cases 1 s _ with ⟨hfit, e⟩ | ⟨hfit, e⟩ <;> rw [e]
  · rw [if_pos ((Region.fits_iff .main s.pc 1).2 hfit), leWord_readBytes_one]
    cases hrow : opcodeMap (s.main.read s.pc.toNat) with
    | none => exact .inr (.inl ⟨_, rfl, rfl⟩)
    | some row =>
      simp only [fetchOperands_eq, State.set_main, State.set_pc_pc, State.set_set]
      cases readAccesses s.main row.format.accesses (s.pc + 1) with
      | error a => exact .inr (.inr ⟨_, _, rfl, rfl⟩)
      | ok bs => exact .inl ⟨_, _, rfl, by simp only [BitVec.ofNat_add, ← BitVec.add_assoc]; rfl⟩
  · rw [if_neg fun hf => absurd ((Region.fits_iff .main s.pc 1).1 hf) (Nat.not_le.2 hfit)]
    exact .inr (.inr ⟨_, _, rfl, rfl⟩)

end Sys2Proof.Machine
end

section
/-! # Changes of the state that an operation carries through -/

namespace Sys2Proof.Machine

open Sys2Proof.Claims

/-- `f` leaves alone what an operation reads other than `C`, and commutes with every elementary update but that of `C`. -/
structure Transparent (f : State → State) : Prop where
  get : ∀ s r, (f s).get r = s.get r
  region : ∀ s g, (f s).region g = s.region g
  set : ∀ s r v, (f s).set r v = f (s.set r v)
  setRegion : ∀ s g m, (f s).setRegion g m = f (s.setRegion g m)
  setOutcome : ∀ s o, (f s).setOutcome o = f (s.setOutcome o)
  emitByte : ∀ s b, (f s).emitByte b = f (s.emitByte b)
  emitDiag : ∀ s d, (f s).emitDiag d = f (s.emitDiag d)
  consoleAnswer : ∀ s, (f s).consoleAnswer = (s.consoleAnswer.1, f s.consoleAnswer.2)

/-- A write of `C` is carried through. -/
theorem transparent_setCarry (c : Bool) : Transparent (·.setCarry c) where
  get := fun s r => s.setCarry_get c r
  region := fun s g => s.setCarry_region c g
  set := fun _ r _ => by cases r <;> rfl
  setRegion := fun _ g _ => by cases g <;> rfl
  setOutcome := fun _ _ => rfl
  emitByte := fun _ _ => rfl
  emitDiag := fun _ _ => rfl
  consoleAnswer := fun s => by
    rcases s with ⟨_, _, _, _, _, _, _, _, _, _, _, _, _ | ⟨_, _⟩, _, _, _⟩ <;> rfl

namespace Transparent

variable {f : State → State} (hf : Transparent f)
include hf

theorem valueAt (s : State) (g : Region) (addr : Word) (n : Nat) : (f s).valueAt g addr n = s.valueAt g addr n := by
  simp only [State.valueAt, hf.region]

theorem storeAt (s : State) (g : Region) (addr : Word) (n : Nat) (v : Word) :
    (f s).storeAt g addr n v = f (s.storeAt g addr n v) := by
  simp only [State.storeAt, hf.region, hf.setRegion]

theorem map_endStep (o : StepOutcome) (s : State) : endStep o (f s) = mapState f (endStep o s) := by
  simp only [endStep_eq, hf.setOutcome, mapState]

theorem map_succeed (s : State) : succeed (f s) = mapState f (succeed s) := hf.map_endStep .success s

theorem map_raiseMemFault (addr : Word) (cap : Nat) (s : State) :
    raiseMemFault addr cap (f s) = mapState f (raiseMemFault addr cap s) := by
  simp only [raiseMemFault_eq, hf.setOutcome, mapState]

theorem map_memReadIn {rest rest' : Word → Result} (hrest : ∀ v, rest' v = mapState f (rest v)) (g : Region) (addr : Word)
    (n : Nat) (s : State) : memReadIn g addr n (f s) rest' = mapState f (memReadIn g addr n s rest) := by
  rcases memReadIn_cases g addr n s rest with ⟨hfit, e⟩ | ⟨hfit, e⟩ <;> rw [e]
  · rw [memReadIn_of_fits hfit, hf.valueAt, hrest]
  · rw [memReadIn_of_not_fits hfit, hf.map_raiseMemFault]

theorem map_memWriteIn {rest rest' : State → Result} (hrest : ∀ t, rest' (f t) = mapState f (rest t)) (g : Region)
    (addr : Word) (n : Nat) (v : Word) (s : State) :
    memWriteIn g addr n v (f s) rest' = mapState f (memWriteIn g addr n v s rest) := by
  rcases memWriteIn_cases g addr n v s rest with ⟨hfit, e⟩ | ⟨hfit, e⟩ <;> rw [e]
  · rw [memWriteIn_of_fits hfit, hf.storeAt, hrest]
  · rw [memWriteIn_of_not_fits hfit, hf.map_raiseMemFault]

theorem map_readRange {rest rest' : List Byte → Result} (hrest : ∀ bs, rest' bs = mapState f (rest bs)) (count : Nat)
    (addr : Word) (s : State) : readRange count addr (f s) rest' = mapState f (readRange count addr s rest) := by
  induction count generalizing addr rest rest' with
  | zero => exact hrest []
  | succ n ih => exact hf.map_memReadIn (fun v => ih (fun bs => hrest _) (addr + 1)) .main addr 1 s

theorem map_readOperand {rest rest' : Word → Result} (hrest : ∀ v, rest' v = mapState f (rest v)) (w : Width)
    (o : Operand) (s : State) : readOperand w o (f s) rest' = mapState f (readOperand w o s rest) := by
  cases o with
  | direct r => simp only [readOperand, hf.get, hrest]
  | indirect r => simp only [readOperand, hf.get, hf.map_memReadIn hrest]

theorem map_writeOperand (w : Width) (o : Operand) (v : Word) (s : State) :
    writeOperand w o v (f s) = mapState f (writeOperand w o v s) := by
  cases o with
  | direct r => simp only [writeOperand, hf.set, hf.map_succeed]
  | indirect r => simp only [writeOperand, hf.get, hf.map_memWriteIn hf.map_succeed]

theorem adjustPre (w : Width) (m : Adjust) (p : Reg) (s : State) : adjustPre w m p (f s) = f (adjustPre w m p s) := by
  unfold Machine.adjustPre adjustPointer; split
  · rw [hf.get, hf.set]
  · rfl

theorem adjustPost (w : Width) (m : Adjust) (p : Reg) (s : State) : adjustPost w m p (f s) = f (adjustPost w m p s) := by
  unfold Machine.adjustPost adjustPointer; split
  · rfl
  · rw [hf.get, hf.set]

theorem map_execIfkt (code : Half) (s : State) : execIfkt code (f s) = mapState f (execIfkt code s) := by
  have hacc1 : (f s).acc1 = s.acc1 := hf.get s .acc1
  have hacc2 : (f s).acc2 = s.acc2 := hf.get s .acc2
  have hdsp : (f s).dsp = s.dsp := hf.get s .dsp
  unfold execIfkt
  split
  · unfold ifktInput
    rw [hf.consoleAnswer]
    rcases s.consoleAnswer with ⟨b | _, s1⟩
    · simp only [hf.set, hf.emitByte, hf.map_succeed]
    · exact hf.map_endStep .error s1
  · simp only [ifktOutput, hacc1, hf.emitByte, hf.map_succeed]
  · exact hf.map_endStep .finished s
  · simp only [ifktDumpWord, hdsp]
    exact hf.map_memReadIn (fun v => by rw [hf.emitDiag, hf.map_succeed]) _ _ _ _
  · simp only [ifktDumpRange, hacc1, hacc2]
    exact hf.map_readRange (fun v => by rw [hf.emitDiag, hf.map_succeed]) _ _ _
  · exact hf.map_endStep .illegalInstruction s

/-- A transparent change made before an operation shows after it and nowhere else, provided `jc` does not see it in `C` and
a write of `C` does not undo it. -/
theorem map_run (op : Operation) (s : State) (hread : ∀ imm, op = .jc imm → (f s).carry = s.carry)
    (hwrite : (op.footprint s).carry = true → ∀ t b, (f t).setCarry b = f (t.setCarry b)) :
    op.run (f s) = mapState f (op.run s) := by
  cases op with
  | quiet o => exact hf.map_endStep o s
  | move w t src => exact hf.map_readOperand (fun v => hf.map_writeOperand w t v s) w src s
  | adjustingStore w m p v =>
    simp only [Operation.run, Machine.adjustingStore, hf.adjustPre, hf.get]
    exact hf.map_memWriteIn (fun t => by rw [hf.adjustPost, hf.map_succeed]) _ _ _ _ _
  | adjustingLoad w v m p =>
    simp only [Operation.run, Machine.adjustingLoad, hf.adjustPre, hf.get]
    exact hf.map_memReadIn (fun x => by rw [hf.set, hf.adjustPost, hf.map_succeed]) _ _ _ _
  | literal r imm => simp only [Operation.run, hf.set, hf.map_succeed]
  | arithmetic g c t a b => simp only [Operation.run, Machine.arithmetic, hf.get, hf.set, hwrite rfl, hf.map_succeed]
  | bitwise g t a b => simp only [Operation.run, Machine.bitwise, hf.get, hf.set, hf.map_succeed]
  | shift r n => simp only [Operation.run, execSraW, hf.get, hf.set, hf.map_succeed]
  | jumpThrough r =>
    simp only [Operation.run, Machine.jumpThrough, hf.get]
    exact hf.map_memReadIn (fun v => by rw [hf.set, hf.map_succeed]) _ _ _ _
  | jumpTo r => simp only [Operation.run, Machine.jumpTo, hf.get, hf.set, hf.map_succeed]
  | jz imm =>
    have hacc1 : (f s).acc1 = s.acc1 := hf.get s .acc1
    simp only [Operation.run, execJz, hacc1, hf.set, ← apply_ite f, hf.map_succeed]
  | jc imm => simp only [Operation.run, execJc, hread imm rfl, hf.set, ← apply_ite f, hf.map_succeed]
  | call imm =>
    have hpc : (f s).pc = s.pc := hf.get s .pc
    simp only [Operation.run, execCall, hpc, hf.set, hf.map_succeed]
  | push g sp r =>
    simp only [Operation.run, Machine.push, hf.get]
    exact hf.map_memWriteIn (fun t => by rw [hf.get, hf.set, hf.map_succeed]) _ _ _ _ _
  | pop g sp r =>
    simp only [Operation.run, Machine.pop, hf.get, hf.set]
    split
    · exact hf.map_endStep .error s
    · exact hf.map_memReadIn (fun v => hf.map_succeed _) _ _ _ _
  | ifkt code => exact hf.map_execIfkt code s

end Transparent

end Sys2Proof.Machine
end

section
/-! # The state and its ports (10_state.md) -/

namespace Sys2Proof.Machine

open Sys2Proof.Claims

/-! ## The canonical form of memory (R35, R57) -/

/-- Settles O24: the fetch only moves `pc`, and every edit of an instruction keeps the canonical form. -/
theorem stepKeepsMemoryCanonical : Obligations.StepKeepsMemoryCanonical := by
  intro s t hs ht
  rcases step_cases s with ⟨i, len, _, e⟩ | ⟨op, _, e⟩ | ⟨addr, cap, _, e⟩ <;> rw [e] at ht
  · exact (exec_within i _ t ht).wf (by rwa [State.wf_set])
  · cases ht; simpa using hs
  · cases ht; simpa using hs

/-- The cells built from a byte function over consecutive addresses below the capacity are canonical. -/
theorem Memory.wfFrom_filterMap_range' {cap : Nat} (f : Nat → Byte) (lo n : Nat) (h : lo + n ≤ cap) :
    Memory.wfFrom cap lo
      ((List.range' lo n).filterMap fun a => if f a = Config.unlistedByte then none else some (a, f a)) = true := by
  induction n generalizing lo with
  | zero => rfl
  | succ n ih =>
    have htail := ih (lo + 1) (by omega)
    rw [List.range'_succ]
    by_cases hz : f lo = Config.unlistedByte
    · simp only [List.filterMap_cons, if_pos hz]
      exact Memory.wfFrom_mono htail (Nat.le_succ lo)
    · simp only [List.filterMap_cons, if_neg hz, Memory.wfFrom, Bool.and_eq_true, decide_eq_true_eq]
      exact ⟨⟨⟨le_rfl, by omega⟩, hz⟩, htail⟩

theorem Memory.wf_ofBytes (cap : Nat) (f : Nat → Byte) : (Memory.ofBytes cap f).wf cap = true := by
  unfold Memory.wf Memory.ofBytes
  rw [List.range_eq_range']
  exact Memory.wfFrom_filterMap_range' f 0 cap (by omega)

/-- Settles O19: each region is built canonical. -/
theorem resetMemoryIsCanonical : Obligations.ResetMemoryIsCanonical := by
  refine ⟨State.wf_reset, fun memInit => ?_⟩
  simp only [State.wf, State.powerOn, Memory.wf_ofBytes, Bool.and_self]

/-- A region of unlisted bytes has no cell. -/
theorem Memory.ofBytes_unlisted (cap : Nat) : Memory.ofBytes cap (fun _ => Config.unlistedByte) = [] := by
  simp [Memory.ofBytes]

/-- Settles O18: with zero memory no region has a cell. -/
theorem resetIsPowerOnWithZeroMemory : Obligations.ResetIsPowerOnWithZeroMemory := by
  unfold Obligations.ResetIsPowerOnWithZeroMemory State.powerOn
  simp only [show (0 : Byte) = Config.unlistedByte from rfl, Memory.ofBytes_unlisted]
  rfl

/-! ## The host's ports (R30, R31, R62) -/

/-- `peek` gives the byte below the capacity of the region and the fault from there on (R62). -/
theorem peek_eq (g : Region) (addr : Word) (s : State) :
    peek g addr s = if addr.toNat < g.cap then .byte (s.byteAt g addr.toNat) else .memFault addr g.cap := by
  simp only [peek, Region.fits_iff, Nat.succ_le_iff]

/-- Settles O21: the snapshot ports copy fields, and `peek` is a bounds check and a read. -/
theorem snapshotAndPeekPorts : Obligations.SnapshotAndPeekPorts := by
  refine ⟨fun p s => ⟨rfl, rfl⟩, fun s => rfl, fun g addr s => ⟨fun h => ?_, fun h => ?_⟩⟩
  · rw [peek_eq, if_pos h]
  · rw [peek_eq, if_neg (Nat.not_lt.2 h)]

/-! ## `pc` and the length of an instruction (R26) -/

/-- The registers an operation may write include `pc` exactly where the instruction redirects `pc`. -/
theorem pc_mem_footprint_iff (i : Instr) (s : State) :
    Reg.pc ∈ ((operation i).footprint s).regs ↔ redirectsPc i s := by
  unfold redirectsPc
  cases i
  case movrW t _ => cases t <;> simp [operation, Operation.footprint, @eq_comm _ Reg.pc]
  case movrB t _ => cases t <;> simp [operation, Operation.footprint, @eq_comm _ Reg.pc]
  all_goals simp [operation, Operation.footprint, jmpiRows, jmpdRows, @eq_comm _ Reg.pc]

/-- Where `pc` stands does not decide whether an instruction redirects it. -/
theorem redirectsPc_set_pc (i : Instr) (s : State) (v : Word) : redirectsPc i (s.set .pc v) ↔ redirectsPc i s := by
  cases i <;> exact Iff.rfl

/-- An instruction built from a row of the opcode map has the length of the row's format (R80). -/
theorem length_encode_build {op : Byte} {row : OpcodeRow} (h : opcodeMap op = some row) (k : Word) :
    (encode (row.build k)).length = 1 + row.format.operandLength := by
  unfold opcodeMap at h
  split at h <;> cases h <;> rfl

/-- The length that `Decode(a)` returns is the number of bytes of the instruction's encoding. -/
theorem length_of_decodeAt {m : Memory} {a : Word} {i : Instr} {len : Nat} (h : decodeAt m a = .instr i len) :
    len = (encode i).length ∧ len ∈ [1, 2, 3, 5] := by
  unfold decodeAt at h
  split at h
  · cases hrow : opcodeMap (m.read a.toNat) with
    | none => simp [hrow] at h
    | some row =>
      simp only [hrow] at h
      split at h <;> cases h
      refine ⟨(length_encode_build hrow _).symm, ?_⟩
      cases row.format <;> decide
  · cases h

/-- A step runs the instruction `Decode(pc)` finds, on the state with `pc` past it (R25, R120). -/
theorem step_of_decodeAt {s : State} {i : Instr} {len : Nat} (h : decodeAt s.main s.pc = .instr i len) :
    step s = exec i (s.set .pc (s.pc + BitVec.ofNat 32 len)) := by
  rcases step_cases s with ⟨_, _, hd, e⟩ | ⟨_, hd, _⟩ | ⟨_, _, hd, _⟩ <;> rw [h] at hd <;> cases hd
  exact e

/-- Settles O9: `pc` is outside the footprint of an instruction that does not redirect it. -/
theorem pcAdvancesByLength : Obligations.PcAdvancesByLength := by
  intro s i len t hdec hredir hstep
  refine ⟨?_, length_of_decodeAt hdec⟩
  have hpc := mt (pc_mem_footprint_iff i _).1 (mt (redirectsPc_set_pc i s (s.pc + BitVec.ofNat 32 len)).1 hredir)
  rw [step_of_decodeAt hdec] at hstep
  exact (exec_within i _ t (by rw [hstep]; rfl)).get_eq hpc

/-! ## Who writes and who reads `C` (R29) -/

/-- The operations that may write `C` are those of `add.w` and `sub.w`. -/
theorem footprint_carry (i : Instr) (s : State) : ((operation i).footprint s).carry = writesCarry i := by
  cases i
  case movrW t _ => cases t <;> rfl
  case movrB t _ => cases t <;> rfl
  all_goals rfl

/-- `jc` is the one operation that reads `C`. -/
theorem readsCarry_of_operation_eq_jc {i : Instr} {imm : Word} (h : operation i = .jc imm) : readsCarry i = true := by
  cases i <;> cases h
  rfl

theorem mapState_id (res : Result) : mapState (fun t => t) res = res := by
  rcases res with _ | ⟨_, _, _⟩ | _ <;> rfl

/-- `add.w` and `sub.w` write `C` over whatever it was. -/
theorem arithmetic_setCarry (f : Word → Word → Word) (g : Word → Word → Bool) (t a b : Reg) (s : State) (c : Bool) :
    arithmetic f g t a b (s.setCarry c) = arithmetic f g t a b s := by
  simp only [arithmetic, State.setCarry_get]
  cases t <;> rfl

/-- What `C` was before an instruction other than `jc` shows after it in `C` alone, and not at all after `add.w` and
`sub.w`. -/
theorem exec_setCarry (i : Instr) (s : State) (c : Bool) (h : readsCarry i = false) :
    exec i (s.setCarry c) = mapState (fun t => if writesCarry i then t else t.setCarry c) (exec i s) := by
  cases hw : writesCarry i
  case false =>
    simp only [exec_eq_run, Bool.false_eq_true, if_false]
    refine (transparent_setCarry c).map_run (operation i) s (fun imm hop => ?_) fun hc => ?_
    · rw [readsCarry_of_operation_eq_jc hop] at h; cases h
    · rw [footprint_carry, hw] at hc; cases hc
  case true =>
    simp only [if_true, mapState_id]
    cases i <;> cases hw
    case addW t a b => exact arithmetic_setCarry addResult addCarry t a b s c
    case subW t a b => exact arithmetic_setCarry subResult subBorrow t a b s c

/-- Settles O36: the writers by the equations of their operation, every other instruction by its footprint and by carrying a
change of `C` through. -/
theorem carryWrittenByAddSubReadByJc : Obligations.CarryWrittenByAddSubReadByJc := by
  refine ⟨fun t a b s c => ?_, fun p s => ⟨rfl, rfl⟩, fun imm s => ⟨_, _, rfl, rfl, rfl, rfl⟩, ?_, exec_setCarry⟩
  · refine ⟨_, _, arithmetic_eq addResult addCarry t a b _, arithmetic_eq subResult subBorrow t a b _, ?_, ?_⟩
    · simp [addCarry, exactSum]
    · simp [subBorrow]
  · intro i s t hw ht
    exact (exec_within i s t ht).carry_eq (by rw [footprint_carry, hw])

end Sys2Proof.Machine
end

section
/-! # Memory (20_memory.md) -/

namespace Sys2Proof

/-! ## Little-endian bytes and appended bit vectors (R55) -/

/-- A byte appended below a bit vector is its least significant byte. -/
theorem toNat_append_byte {n : Nat} (x : BitVec n) (b : Byte) : (x ++ b).toNat = b.toNat + 256 * x.toNat := by
  rw [BitVec.toNat_append, ← Nat.shiftLeft_add_eq_or_of_lt b.isLt, Nat.shiftLeft_eq]
  omega

theorem leWord_one (b0 : Byte) : leWord [b0] = b0.setWidth 32 := by
  apply BitVec.eq_of_toNat_eq
  simp [leWord, leNat]

theorem leWord_two (b0 b1 : Byte) : leWord [b0, b1] = (b1 ++ b0).setWidth 32 := by
  apply BitVec.eq_of_toNat_eq
  simp [leWord, leNat, toNat_append_byte]

theorem leWord_four (b0 b1 b2 b3 : Byte) : leWord [b0, b1, b2, b3] = b3 ++ b2 ++ b1 ++ b0 := by
  apply BitVec.eq_of_toNat_eq
  simp only [leWord, leNat, BitVec.toNat_ofNat, toNat_append_byte]
  omega

/-- The four little-endian bytes of a word make up the word. -/
theorem leWord_bytesLE_four (v : Word) : leWord (bytesLE 4 v) = v := by
  apply BitVec.eq_of_toNat_eq
  rw [leWord, leNat_bytesLE, BitVec.toNat_ofNat]
  omega

theorem leNat_div_mod (bs : List Byte) (j : Nat) : leNat bs / 256 ^ j % 256 = (bs.getD j 0).toNat := by
  induction bs generalizing j with
  | nil => simp [leNat]
  | cons b bs ih =>
    have hb := b.isLt
    cases j with
    | zero => simp only [leNat, pow_zero, List.getD_cons_zero]; omega
    | succ j =>
      have htail : (b.toNat + 256 * leNat bs) / 256 = leNat bs := by omega
      rw [leNat, Nat.pow_succ', ← Nat.div_div_eq_div_mul, htail, ih, List.getD_cons_succ]

/-- Byte `j` of a little-endian word is byte `j` of the list, and 0 past its end (R53, R55). -/
theorem extractLsb'_leWord (bs : List Byte) {j : Nat} (hj : j < 4) :
    (leWord bs).extractLsb' (8 * j) 8 = bs.getD j 0 := by
  apply BitVec.eq_of_toNat_eq
  rw [BitVec.extractLsb'_toNat, leWord, BitVec.toNat_ofNat, Nat.shiftRight_eq_div_pow, ← leNat_div_mod]
  interval_cases j <;> omega

end Sys2Proof

namespace Sys2Proof.Machine

open Sys2Proof.Claims

theorem Region.cap_eq (g : Region) : g.cap = 32768 := by cases g <;> rfl

/-! ## The value at an address (R53) -/

section
variable (s : State) (g : Region) (addr : Word)

theorem State.valueAt_one : s.valueAt g addr 1 = (s.byteAt g addr.toNat).setWidth 32 := leWord_one _

theorem State.valueAt_two :
    s.valueAt g addr 2 = (s.byteAt g (addr.toNat + 1) ++ s.byteAt g addr.toNat).setWidth 32 := leWord_two _ _

theorem State.valueAt_four : s.valueAt g addr 4 = word32 s g addr.toNat := leWord_four _ _ _ _

end

/-- Byte `j` of the value at an address is the byte `j` addresses on (R55). -/
theorem State.extractLsb'_valueAt (s : State) (g : Region) (addr : Word) {n j : Nat} (hj : j < 4) (hn : j < n) :
    (s.valueAt g addr n).extractLsb' (8 * j) 8 = s.byteAt g (addr.toNat + j) := by
  rw [State.valueAt, extractLsb'_leWord _ hj, List.getD_eq_getElem?_getD, Memory.readBytes_getElem? _ _ _ _ hn]
  rfl

/-- Settles O25: the bounds check decides between the fault and the value at the address. -/
theorem memReadInIsLittleEndian : Obligations.MemReadInIsLittleEndian := by
  intro g addr s rest
  refine ⟨fun h => ?_, fun h => ?_, fun h => ?_, fun n _ h => ?_⟩
  · rw [memReadIn_of_fits (by rwa [g.cap_eq]), State.valueAt_one]
  · rw [memReadIn_of_fits (by rwa [g.cap_eq]), State.valueAt_two]
  · rw [memReadIn_of_fits (by rwa [g.cap_eq]), State.valueAt_four]
  · rw [memReadIn_of_not_fits (by rwa [g.cap_eq]), g.cap_eq]; rfl

/-! ## What a store leaves (R54) -/

/-- A store puts the low bytes of the value at its range and changes no other byte. -/
theorem stored_storeAt (s : State) (g : Region) (addr : Word) (n : Nat) (v : Word) :
    Stored s (s.storeAt g addr n v) g addr.toNat n v := by
  refine ⟨fun k hk => ?_, fun h x hx => ?_⟩
  · rw [State.byteAt_storeAt, if_pos ⟨rfl, by omega, by omega⟩, Nat.add_sub_cancel_left, List.getD_eq_getElem?_getD,
      getElem?_bytesLE n k v hk, Option.getD_some]
  · rw [State.byteAt_storeAt, if_neg hx]

theorem sameButMemory_storeAt (s : State) (g : Region) (addr : Word) (n : Nat) (v : Word) :
    SameButMemory s (s.storeAt g addr n v) := by
  cases g <;> rfl

/-- A stored word is read back whole. -/
theorem State.valueAt_storeAt_self (s : State) (g : Region) (addr v : Word) :
    (s.storeAt g addr 4 v).valueAt g addr 4 = v := by
  have hread := (s.region g).readBytes_writeBytes_self addr.toNat (bytesLE 4 v)
  rw [length_bytesLE] at hread
  rw [State.valueAt, State.storeAt, State.region_setRegion_self, hread, leWord_bytesLE_four]

/-- Settles O26: in range the write is a store, out of range the fault comes before any byte is written. -/
theorem memWriteInStoresLittleEndian : Obligations.MemWriteInStoresLittleEndian := by
  intro g addr n v s rest _
  refine ⟨fun h => ?_, fun h => ?_⟩
  · have hfit : addr.toNat + n ≤ g.cap := by rwa [g.cap_eq]
    refine ⟨s.storeAt g addr n v, memWriteIn_of_fits hfit, stored_storeAt s g addr n v,
      sameButMemory_storeAt s g addr n v, ?_⟩
    rintro rfl rest'
    rw [memReadIn_of_fits hfit, State.valueAt_storeAt_self]
  · rw [memWriteIn_of_not_fits (by rwa [g.cap_eq]), g.cap_eq]; rfl

/-! ## Narrow accesses (R56) -/

/-- Settles O27: a read of any width is made of the bytes at its addresses, and a store says what each of them is. -/
theorem narrowAccessesSeeWordBytes : Obligations.NarrowAccessesSeeWordBytes := by
  intro g addr v s k hfit hk
  have haddr : (addr + BitVec.ofNat 32 k).toNat = addr.toNat + k := by
    rw [BitVec.toNat_add, BitVec.toNat_ofNat]; omega
  obtain ⟨hword, _⟩ := stored_storeAt s g addr 4 v
  obtain ⟨hbyte, hframe⟩ := stored_storeAt s g (addr + BitVec.ofNat 32 k) 1 v
  refine ⟨?_, ?_, fun j hj => ?_⟩
  · rw [State.valueAt_one, haddr, hword k hk]
  · have hlow : v.extractLsb' 8 8 ++ v.extractLsb' 0 8 = v.extractLsb' 0 16 :=
      BitVec.extractLsb'_append_extractLsb'_eq_extractLsb' rfl
    rw [State.valueAt_two, hword 1 (by decide), ← Nat.add_zero addr.toNat, hword 0 (by decide), ← hlow]
  · rw [State.extractLsb'_valueAt _ _ _ hj hj, State.extractLsb'_valueAt _ _ _ hj hj]
    rw [haddr] at hbyte hframe
    split
    · subst j; exact hbyte 0 (by decide)
    · exact hframe g _ (by omega)

/-! ## Which instructions write a region (R51, R59) -/

/-- The instructions that R51 and R59 let write a region. -/
def writesRegion : Region → Instr → Prop
  | .main, i => storesToMain i = true
  | .dstack, i => i ∈ dpushRows.map Prod.fst
  | .rstack, i => i ∈ rpushRows.map Prod.fst

/-- The regions an operation may write are those the instruction writes. -/
theorem mem_footprint_regions_iff (g : Region) (i : Instr) (s : State) :
    g ∈ ((operation i).footprint s).regions ↔ writesRegion g i := by
  cases i
  case' movrW t _ => cases t
  case' movrB t _ => cases t
  all_goals
    cases g <;> simp [operation, Operation.footprint, writesRegion, storesToMain, dpushRows, rpushRows]

/-- Settles O28: a region outside the footprint of an instruction keeps its cells. -/
theorem regionsChangeOnlyByTheirInstructions : Obligations.RegionsChangeOnlyByTheirInstructions := by
  intro i s t ht
  have hkeep : ∀ g, ¬ writesRegion g i → t.region g = s.region g := fun g hg =>
    (exec_within i s t ht).region_eq (mt (mem_footprint_regions_iff g i s).1 hg)
  exact ⟨fun h => hkeep .main (Bool.eq_false_iff.1 h), hkeep .dstack, hkeep .rstack⟩

/-! ## What a fault carries (R57, R354) -/

/-- An access of 1, 2 or 4 bytes from the address exceeds a region of the capacity. -/
def OutOfRange (addr : Word) (cap : Nat) : Prop :=
  ∃ (g : Region) (n : Nat), cap = g.cap ∧ n ∈ [1, 2, 4] ∧ cap < addr.toNat + n

/-- If the result is a fault, an access out of range raised it. -/
def FaultsOutOfRange (res : Result) : Prop :=
  ∀ addr cap left, res = .fault (.memFault addr cap left) → OutOfRange addr cap

theorem outOfRange_of_exceeds {g : Region} {addr : Word} {n : Nat} (hn : n ∈ [1, 2, 4]) (h : g.cap < addr.toNat + n) :
    OutOfRange addr g.cap := ⟨g, n, rfl, hn, h⟩

theorem Width.bytes_mem (w : Width) : w.bytes ∈ [1, 2, 4] := by cases w <;> decide

theorem faultsOutOfRange_endStep (o : StepOutcome) (s : State) : FaultsOutOfRange (endStep o s) := nofun

theorem faultsOutOfRange_succeed (s : State) : FaultsOutOfRange (succeed s) := nofun

theorem faultsOutOfRange_raiseMemFault {addr : Word} {cap : Nat} (h : OutOfRange addr cap) (s : State) :
    FaultsOutOfRange (raiseMemFault addr cap s) := by
  rintro _ _ _ ⟨⟩; exact h

theorem faultsOutOfRange_memReadIn (g : Region) (addr : Word) {n : Nat} (s : State) {rest : Word → Result}
    (hn : n ∈ [1, 2, 4]) (hrest : ∀ v, FaultsOutOfRange (rest v)) : FaultsOutOfRange (memReadIn g addr n s rest) := by
  rcases memReadIn_cases g addr n s rest with ⟨_, e⟩ | ⟨h, e⟩ <;> rw [e]
  · exact hrest _
  · exact faultsOutOfRange_raiseMemFault (outOfRange_of_exceeds hn h) s

theorem faultsOutOfRange_memWriteIn (g : Region) (addr : Word) {n : Nat} (v : Word) (s : State) {rest : State → Result}
    (hn : n ∈ [1, 2, 4]) (hrest : ∀ t, FaultsOutOfRange (rest t)) :
    FaultsOutOfRange (memWriteIn g addr n v s rest) := by
  rcases memWriteIn_cases g addr n v s rest with ⟨_, e⟩ | ⟨h, e⟩ <;> rw [e]
  · exact hrest _
  · exact faultsOutOfRange_raiseMemFault (outOfRange_of_exceeds hn h) s

theorem faultsOutOfRange_readRange (count : Nat) (addr : Word) (s : State) {rest : List Byte → Result}
    (hrest : ∀ bs, FaultsOutOfRange (rest bs)) : FaultsOutOfRange (readRange count addr s rest) := by
  rcases readRange_cases count addr s rest with ⟨bs, _, e⟩ | ⟨a, h, e⟩ <;> rw [e]
  · exact hrest bs
  · exact faultsOutOfRange_raiseMemFault (outOfRange_of_exceeds (by decide) h) s

theorem faultsOutOfRange_moveRegister (w : Width) (t src : Operand) (s : State) :
    FaultsOutOfRange (moveRegister w t src s) := by
  rcases moveRegister_cases w t src s with ⟨v, e⟩ | ⟨r, _, h, e⟩ <;> rw [e]
  · cases t with
    | direct r => exact faultsOutOfRange_succeed _
    | indirect r => exact faultsOutOfRange_memWriteIn _ _ _ _ w.bytes_mem faultsOutOfRange_succeed
  · exact faultsOutOfRange_raiseMemFault (outOfRange_of_exceeds w.bytes_mem h) s

theorem faultsOutOfRange_execIfkt (code : Half) (s : State) : FaultsOutOfRange (execIfkt code s) := by
  unfold execIfkt
  split
  · unfold ifktInput
    split
    · exact faultsOutOfRange_succeed _
    · exact faultsOutOfRange_endStep _ _
  · exact faultsOutOfRange_succeed _
  · exact faultsOutOfRange_endStep _ _
  · exact faultsOutOfRange_memReadIn _ _ _ (by decide) fun _ => faultsOutOfRange_succeed _
  · exact faultsOutOfRange_readRange _ _ _ fun _ => faultsOutOfRange_succeed _
  · exact faultsOutOfRange_endStep _ _

/-- An operation faults only by an access primitive whose range does not fit. -/
theorem Operation.run_faultsOutOfRange (op : Operation) (s : State) : FaultsOutOfRange (op.run s) := by
  cases op with
  | move w t src => exact faultsOutOfRange_moveRegister w t src s
  | adjustingStore w m p v =>
    exact faultsOutOfRange_memWriteIn _ _ _ _ w.bytes_mem fun _ => faultsOutOfRange_succeed _
  | adjustingLoad w v m p =>
    exact faultsOutOfRange_memReadIn _ _ _ w.bytes_mem fun _ => faultsOutOfRange_succeed _
  | jumpThrough r => exact faultsOutOfRange_memReadIn _ _ _ (by decide) fun _ => faultsOutOfRange_succeed _
  | push g sp r => exact faultsOutOfRange_memWriteIn _ _ (s.get r) _ (by decide) fun _ => faultsOutOfRange_succeed _
  | pop g sp r =>
    rcases pop_cases g sp r s with ⟨_, e⟩ | ⟨_, _, e⟩ | ⟨_, h, e⟩ <;> rw [Operation.run, e]
    · exact faultsOutOfRange_endStep _ _
    · exact faultsOutOfRange_succeed _
    · exact faultsOutOfRange_raiseMemFault (outOfRange_of_exceeds (by decide) h) _
  | ifkt code => exact faultsOutOfRange_execIfkt code s
  | quiet | literal | arithmetic | bitwise | shift | jumpTo | jz | jc | call => exact faultsOutOfRange_endStep _ _

/-- The operand accesses of `Decode` fail at one of them that exceeds MAIN. -/
theorem exceeds_of_readAccesses_error {m : Memory} {ns : List Nat} {a e : Word} (h : readAccesses m ns a = .error e) :
    ∃ n ∈ ns, Region.main.cap < e.toNat + n := by
  induction ns generalizing a with
  | nil => cases h
  | cons n ns ih =>
    unfold readAccesses at h
    split at h
    next =>
      split at h <;> cases h
      obtain ⟨k, hk, hlt⟩ := ih ‹_›
      exact ⟨k, List.mem_cons_of_mem n hk, hlt⟩
    next hfit =>
      cases h
      exact ⟨n, List.mem_cons_self, (Region.not_fits_iff _ _ _).1 (Bool.eq_false_iff.2 hfit)⟩

theorem accesses_subset (f : Format) : f.accesses ⊆ [1, 2, 4] := by cases f <;> decide

/-- `Decode(a)` faults at its opcode byte or at one of the operand accesses of the format. -/
theorem outOfRange_of_decodeAt {m : Memory} {a addr : Word} {cap : Nat} (h : decodeAt m a = .memFault addr cap) :
    OutOfRange addr cap := by
  unfold decodeAt at h
  split at h
  next =>
    cases hrow : opcodeMap (m.read a.toNat) with
    | none => simp [hrow] at h
    | some row =>
      simp only [hrow] at h
      split at h <;> cases h
      obtain ⟨n, hn, hlt⟩ := exceeds_of_readAccesses_error ‹_›
      exact outOfRange_of_exceeds (accesses_subset row.format hn) hlt
  next hfit =>
    cases h
    exact outOfRange_of_exceeds (by decide) ((Region.not_fits_iff _ _ _).1 (Bool.eq_false_iff.2 hfit))

/-- Settles O16: the fault is the fetch's or the operation's, and both raise it for an access out of range. -/
theorem faultCarriesOutOfRangeAccess : Obligations.FaultCarriesOutOfRangeAccess := by
  intro s
  show FaultsOutOfRange (step s)
  rcases step_cases s with ⟨i, len, _, e⟩ | ⟨op, _, e⟩ | ⟨addr, cap, hdec, e⟩ <;> rw [e]
  · rw [exec_eq_run]; exact (operation i).run_faultsOutOfRange _
  · exact faultsOutOfRange_endStep _ _
  · exact faultsOutOfRange_raiseMemFault (outOfRange_of_decodeAt hdec) _

end Sys2Proof.Machine
end

section
/-! # Encoding (30_encoding.md) -/

namespace Sys2Proof

open Sys2Proof.Claims

/-! ## Parts of a bit vector -/

theorem extractLsb'_append_low {m n : Nat} (x : BitVec m) (y : BitVec n) : (x ++ y).extractLsb' 0 n = y := by
  rw [BitVec.extractLsb'_append_eq_of_add_le (by omega), BitVec.extractLsb'_eq_self]

theorem extractLsb'_append_high {m n : Nat} (x : BitVec m) (y : BitVec n) : (x ++ y).extractLsb' n m = x := by
  rw [BitVec.extractLsb'_append_eq_of_le (by omega), Nat.sub_self, BitVec.extractLsb'_eq_self]

theorem extractLsb'_append_middle {l m n : Nat} (x : BitVec l) (y : BitVec m) (z : BitVec n) :
    (x ++ y ++ z).extractLsb' n m = y := by
  rw [BitVec.extractLsb'_append_eq_of_le (by omega), Nat.sub_self, extractLsb'_append_low]

theorem ofBool_getLsbD {w : Nat} (x : BitVec w) (i : Nat) : BitVec.ofBool (x.getLsbD i) = x.extractLsb' i 1 := by
  ext j hj
  obtain rfl : j = 0 := by omega
  simp

/-- The bits of the first operand byte are the low bits of the operand word (R55). -/
theorem getLsbD_leWord_cons (b : Byte) (bs : List Byte) {i : Nat} (h : i < 8) :
    (leWord (b :: bs)).getLsbD i = b.getLsbD i := by
  have hbyte : (leWord (b :: bs)).extractLsb' (8 * 0) 8 = b := extractLsb'_leWord (b :: bs) (by decide)
  conv_rhs => rw [← hbyte, BitVec.getLsbD_extractLsb']
  simp [h]

theorem extractLsb'_leWord_cons (b : Byte) (bs : List Byte) {start len : Nat} (h : start + len ≤ 8) :
    (leWord (b :: bs)).extractLsb' start len = b.extractLsb' start len := by
  apply BitVec.eq_of_getLsbD_eq
  intro i hi
  rw [BitVec.getLsbD_extractLsb', BitVec.getLsbD_extractLsb', getLsbD_leWord_cons b bs (by omega)]

/-- A list is the low bytes of a word if its bytes are. -/
theorem eq_bytesLE {bs : List Byte} {n : Nat} {v : Word} (hlen : bs.length = n)
    (hbyte : ∀ j, j < n → bs[j]? = some (v.extractLsb' (8 * j) 8)) : bs = bytesLE n v := by
  apply List.ext_getElem?
  intro j
  rcases Nat.lt_or_ge j n with hj | hj
  · rw [hbyte j hj, getElem?_bytesLE n j v hj]
  · rw [List.getElem?_eq_none (by omega), List.getElem?_eq_none (by rwa [length_bytesLE])]

/-- At most four bytes make up a word whose low bytes they are. -/
theorem bytesLE_leWord {bs : List Byte} (h : bs.length ≤ 4) : bytesLE bs.length (leWord bs) = bs := by
  refine (eq_bytesLE rfl fun j hj => ?_).symm
  rw [extractLsb'_leWord bs (by omega), List.getD_eq_getElem?_getD, List.getElem?_eq_getElem hj, Option.getD_some]

/-- A field with zeros above it is the wider field with those bits masked off. -/
theorem zero_append_extractLsb' {w : Nat} (m n : Nat) (x : BitVec w) (start : Nat) :
    0#m ++ x.extractLsb' start n = x.extractLsb' start (m + n) &&& BitVec.ofNat (m + n) (2 ^ n - 1) := by
  apply BitVec.eq_of_getLsbD_eq
  intro i hi
  rw [BitVec.getLsbD_append, BitVec.getLsbD_and, BitVec.getLsbD_ofNat (m + n), Nat.testBit_two_pow_sub_one]
  by_cases h : i < n <;> simp [h, hi]

/-! ## The fields of the operand bytes of an encoding (R85 to R93) -/

theorem fieldHigh_encodeFA (t a b : Reg) : fieldHigh (leWord (encodeFA t a b)) = t := by
  rw [fieldHigh, encodeFA, extractLsb'_leWord_cons _ _ (by decide), extractLsb'_append_middle, Reg.ofIndex_index]

theorem fieldLow_encodeFA (t a b : Reg) : fieldLow (leWord (encodeFA t a b)) = a := by
  rw [fieldLow, encodeFA, extractLsb'_leWord_cons _ _ (by decide), extractLsb'_append_low, Reg.ofIndex_index]

theorem fieldSecond_encodeFA (t a b : Reg) : fieldSecond (leWord (encodeFA t a b)) = b := by
  rw [fieldSecond, encodeFA, leWord_two, BitVec.extractLsb'_setWidth_of_le (by decide),
    BitVec.extractLsb'_append_eq_of_le (by decide), extractLsb'_append_low, Reg.ofIndex_index]

theorem fieldTop_encodeFS (r : Reg) (n : Nat) : fieldTop (leWord (encodeFS r n)) = r := by
  rw [fieldTop, encodeFS, extractLsb'_leWord_cons _ _ (by decide), extractLsb'_append_high, Reg.ofIndex_index]

theorem fieldAmount_encodeFS (r : Reg) {n : Nat} (h : n ≤ 31) : fieldAmount (leWord (encodeFS r n)) = n := by
  rw [fieldAmount, encodeFS, extractLsb'_leWord_cons _ _ (by decide), extractLsb'_append_low, BitVec.toNat_ofNat]
  omega

theorem Operand.ofMode_getLsbD_modeBit (o : Operand) : Operand.ofMode (o.modeBit.getLsbD 0) o.reg = o := by
  cases o <;> simp [Operand.modeBit, Operand.ofMode, Operand.reg]

theorem fieldTarget_encodeFM (t s : Operand) : fieldTarget (leWord (encodeFM t s)) = t := by
  rw [fieldTarget, fieldHigh, encodeFM, extractLsb'_leWord_cons _ _ (by decide), extractLsb'_append_middle,
    getLsbD_leWord_cons _ _ (by decide), BitVec.getLsbD_append, BitVec.getLsbD_append, BitVec.getLsbD_append,
    Reg.ofIndex_index]
  exact Operand.ofMode_getLsbD_modeBit t

theorem fieldSource_encodeFM (t s : Operand) : fieldSource (leWord (encodeFM t s)) = s := by
  rw [fieldSource, fieldLow, encodeFM, extractLsb'_leWord_cons _ _ (by decide), extractLsb'_append_low,
    getLsbD_leWord_cons _ _ (by decide), BitVec.getLsbD_append, BitVec.getLsbD_append, BitVec.getLsbD_append,
    Reg.ofIndex_index]
  exact Operand.ofMode_getLsbD_modeBit s

theorem fieldAdjust_encodeFP (m : Adjust) (p v : Reg) : fieldAdjust (leWord (encodeFP m p v)) = m := by
  rw [fieldAdjust, encodeFP, getLsbD_leWord_cons _ _ (by decide), getLsbD_leWord_cons _ _ (by decide),
    BitVec.getLsbD_append, BitVec.getLsbD_append, BitVec.getLsbD_append, BitVec.getLsbD_append]
  cases m <;> rfl

theorem fieldHigh_encodeFP (m : Adjust) (p v : Reg) : fieldHigh (leWord (encodeFP m p v)) = p := by
  rw [fieldHigh, encodeFP, extractLsb'_leWord_cons _ _ (by decide), extractLsb'_append_middle, Reg.ofIndex_index]

theorem fieldLow_encodeFP (m : Adjust) (p v : Reg) : fieldLow (leWord (encodeFP m p v)) = v := by
  rw [fieldLow, encodeFP, extractLsb'_leWord_cons _ _ (by decide), extractLsb'_append_low, Reg.ofIndex_index]

theorem fieldCode_bytesLE (code : Half) : fieldCode (leWord (bytesLE 2 (code.setWidth 32))) = code := by
  apply BitVec.eq_of_toNat_eq
  have := code.isLt
  simp only [fieldCode, leWord, BitVec.toNat_setWidth, BitVec.toNat_ofNat, leNat_bytesLE]
  omega

/-! ## The operand bytes an instruction's fields make up (R88) -/

@[simp] theorem Operand.reg_ofMode (b : Bool) (r : Reg) : (Operand.ofMode b r).reg = r := by cases b <;> rfl

@[simp] theorem Operand.modeBit_ofMode (b : Bool) (r : Reg) : (Operand.ofMode b r).modeBit = BitVec.ofBool b := by
  cases b <;> rfl

@[simp] theorem Adjust.bits_ofBits (d p : Bool) : (Adjust.ofBits d p).bits = BitVec.ofBool d ++ BitVec.ofBool p := by
  cases d <;> cases p <;> rfl

/-- The operand bytes of a format that a word holds, ignored bits cleared. -/
def clearedOperands : Format → Word → List Byte
  | .FA, k => List.zipWith (· &&& ·) (bytesLE 2 k) [0x3f, 0x07]
  | f, k => bytesLE f.operandLength k

theorem bytesLE_one (k : Word) : bytesLE 1 k = [k.extractLsb' 0 8] := by
  rw [← BitVec.setWidth_eq_extractLsb' (by decide)]
  rfl

theorem bytesLE_two (k : Word) : bytesLE 2 k = [k.extractLsb' 0 8, k.extractLsb' 8 8] :=
  (eq_bytesLE (n := 2) rfl fun j hj => by interval_cases j <;> rfl).symm

theorem encodeFA_fields (k : Word) :
    encodeFA (fieldHigh k) (fieldLow k) (fieldSecond k) = clearedOperands .FA k := by
  have hfields : k.extractLsb' 3 3 ++ k.extractLsb' 0 3 = k.extractLsb' 0 6 :=
    BitVec.extractLsb'_append_extractLsb'_eq_extractLsb' rfl
  have hfirst : 0#2 ++ k.extractLsb' 3 3 ++ k.extractLsb' 0 3 = k.extractLsb' 0 8 &&& 0x3f := by
    rw [BitVec.append_assoc, hfields]
    exact zero_append_extractLsb' 2 6 k 0
  have hsecond : 0#5 ++ k.extractLsb' 8 3 = k.extractLsb' 8 8 &&& 0x07 := zero_append_extractLsb' 5 3 k 8
  simp only [encodeFA, fieldHigh, fieldLow, fieldSecond, Reg.index_ofIndex, clearedOperands, bytesLE_two]
  rw [hfirst, hsecond]
  rfl

theorem encodeFS_fields (k : Word) : encodeFS (fieldTop k) (fieldAmount k) = bytesLE 1 k := by
  have hbyte : k.extractLsb' 5 3 ++ k.extractLsb' 0 5 = k.extractLsb' 0 8 :=
    BitVec.extractLsb'_append_extractLsb'_eq_extractLsb' rfl
  rw [encodeFS, fieldTop, fieldAmount, Reg.index_ofIndex, BitVec.ofNat_toNat, BitVec.setWidth_eq, hbyte, bytesLE_one]

/-- The two top bits and the two register fields make up the byte. -/
theorem topBits_append_fields (k : Word) :
    BitVec.ofBool (k.getLsbD 7) ++ BitVec.ofBool (k.getLsbD 6) ++ k.extractLsb' 3 3 ++ k.extractLsb' 0 3 =
      k.extractLsb' 0 8 := by
  have htop : k.extractLsb' 7 1 ++ k.extractLsb' 6 1 = k.extractLsb' 6 2 :=
    BitVec.extractLsb'_append_extractLsb'_eq_extractLsb' rfl
  have hmiddle : k.extractLsb' 6 2 ++ k.extractLsb' 3 3 = k.extractLsb' 3 5 :=
    BitVec.extractLsb'_append_extractLsb'_eq_extractLsb' rfl
  rw [ofBool_getLsbD, ofBool_getLsbD, htop, hmiddle]
  exact BitVec.extractLsb'_append_extractLsb'_eq_extractLsb' rfl

theorem encodeFM_fields (k : Word) : encodeFM (fieldTarget k) (fieldSource k) = bytesLE 1 k := by
  simp only [encodeFM, fieldTarget, fieldSource, Operand.modeBit_ofMode, Operand.reg_ofMode, fieldHigh, fieldLow,
    Reg.index_ofIndex, bytesLE_one]
  rw [topBits_append_fields]

theorem encodeFP_fields (k : Word) : encodeFP (fieldAdjust k) (fieldHigh k) (fieldLow k) = bytesLE 1 k := by
  simp only [encodeFP, fieldAdjust, Adjust.bits_ofBits, fieldHigh, fieldLow, Reg.index_ofIndex, bytesLE_one]
  rw [topBits_append_fields]

theorem bytesLE_fieldCode (k : Word) : bytesLE 2 ((fieldCode k).setWidth 32) = bytesLE 2 k := by
  refine eq_bytesLE (length_bytesLE 2 _) fun j hj => ?_
  rw [getElem?_bytesLE 2 j _ hj, BitVec.extractLsb'_setWidth_of_le (by omega), fieldCode,
    BitVec.extractLsb'_setWidth_of_le (by omega)]

/-! ## The opcode map and the encoder (R90) -/

/-- The encoding of a well-formed instruction is a mapped opcode and the operand bytes from which the opcode's row
builds the instruction. -/
theorem encode_eq_cons (i : Instr) (hwf : i.wf = true) :
    ∃ op row ops, encode i = op :: ops ∧ opcodeMap op = some row ∧ ops.length = row.format.operandLength ∧
      row.build (leWord ops) = i := by
  cases i
  all_goals refine ⟨_, _, _, rfl, rfl, rfl, ?_⟩
  case sraW r n => simp only [fieldTop_encodeFS, fieldAmount_encodeFS r (of_decide_eq_true hwf)]
  all_goals simp only [fieldHigh_encodeFA, fieldLow_encodeFA, fieldSecond_encodeFA, fieldTarget_encodeFM,
    fieldSource_encodeFM, fieldAdjust_encodeFP, fieldHigh_encodeFP, fieldLow_encodeFP, fieldCode_bytesLE,
    leWord_bytesLE_four]

/-- The encoding of an instruction built from a row is the row's opcode and the canonical operand bytes. -/
theorem encode_build {op : Byte} {row : OpcodeRow} (h : opcodeMap op = some row) (k : Word) :
    encode (row.build k) = op :: clearedOperands row.format k := by
  unfold opcodeMap at h
  split at h <;> cases h
  all_goals refine List.cons_eq_cons.2 ⟨BitVec.eq_of_toNat_eq (Eq.symm ‹_›), ?_⟩
  all_goals simp only [encodeFA_fields, encodeFS_fields, encodeFM_fields, encodeFP_fields, bytesLE_fieldCode]
  all_goals rfl

/-- A row builds only instructions the encoding admits: a shift amount read from its field is at most 31 (R87). -/
theorem wf_build {op : Byte} {row : OpcodeRow} (h : opcodeMap op = some row) (k : Word) :
    (row.build k).wf = true := by
  have hamount : fieldAmount k ≤ 31 := Nat.le_of_lt_succ (k.extractLsb' 0 5).isLt
  unfold opcodeMap at h
  split at h <;> cases h
  all_goals simp [Instr.wf, hamount]

/-- Only format FA has ignored bits (R88). -/
theorem clearIgnored_of_format_ne {op : Byte} (h : (opcodeMap op).map OpcodeRow.format ≠ some .FA) (ops : List Byte) :
    clearIgnored (op :: ops) = op :: ops := by
  rcases ops with _ | ⟨b1, _ | ⟨b2, rest⟩⟩
  · rfl
  · rfl
  · exact if_neg h

theorem clearIgnored_of_format_eq {op : Byte} (h : (opcodeMap op).map OpcodeRow.format = some .FA) (b1 b2 : Byte) :
    clearIgnored [op, b1, b2] = [op, b1 &&& 0x3f, b2 &&& 0x07] := if_pos h

theorem clearedOperands_of_ne {f : Format} (h : f ≠ .FA) (k : Word) :
    clearedOperands f k = bytesLE f.operandLength k := by
  cases f
  case FA => exact absurd rfl h
  all_goals rfl

theorem operandLength_le_four (f : Format) : f.operandLength ≤ 4 := by cases f <;> decide

/-- Clearing the ignored bits of an instruction's bytes leaves the opcode and the operand bytes without them (R88). -/
theorem clearIgnored_cons {op : Byte} {row : OpcodeRow} (h : opcodeMap op = some row) {ops : List Byte}
    (hlen : ops.length = row.format.operandLength) :
    clearIgnored (op :: ops) = op :: clearedOperands row.format (leWord ops) := by
  have hops : bytesLE row.format.operandLength (leWord ops) = ops :=
    hlen ▸ bytesLE_leWord (hlen ▸ operandLength_le_four row.format)
  by_cases hfa : row.format = .FA
  · rw [hfa] at hlen hops ⊢
    obtain ⟨b1, b2, rfl⟩ := List.length_eq_two.1 hlen
    rw [clearIgnored_of_format_eq (by rw [h, Option.map_some, hfa]), clearedOperands,
      show bytesLE 2 (leWord [b1, b2]) = [b1, b2] from hops]
    rfl
  · rw [clearIgnored_of_format_ne (by rwa [h, Option.map_some, Ne, Option.some_inj]), clearedOperands_of_ne hfa, hops]

/-! ## The decoder (R97) -/

theorem decode_of_unmapped {op : Byte} (h : opcodeMap op = none) (bs : List Byte) :
    decode (op :: bs) = .unknown op bs := by
  simp only [decode, h]

theorem decode_of_short {op : Byte} {row : OpcodeRow} (h : opcodeMap op = some row) {bs : List Byte}
    (hlen : bs.length < row.format.operandLength) : decode (op :: bs) = .truncated op := by
  simp only [decode, h, if_pos hlen]

theorem decode_of_mapped {op : Byte} {row : OpcodeRow} (h : opcodeMap op = some row) {ops : List Byte}
    (hlen : ops.length = row.format.operandLength) (rest : List Byte) :
    decode (op :: (ops ++ rest)) = .instr (row.build (leWord ops)) rest := by
  simp [decode, h, ← hlen]

/-- Bytes that decode to an instruction start with a mapped opcode and its operand bytes. -/
theorem exists_of_decode_eq_instr {bs rest : List Byte} {i : Instr} (h : decode bs = .instr i rest) :
    ∃ op row ops, opcodeMap op = some row ∧ ops.length = row.format.operandLength ∧ bs = op :: (ops ++ rest) ∧
      row.build (leWord ops) = i := by
  unfold decode at h
  split at h
  · cases h
  next op tail =>
    split at h
    · cases h
    next row hrow =>
      split at h <;> cases h
      next hlen =>
        exact ⟨op, row, tail.take row.format.operandLength, hrow, List.length_take_of_le (Nat.le_of_not_lt hlen),
          by rw [List.take_append_drop], rfl⟩

/-- Settles O1: the fields of an encoding are the instruction's, and the fields of the operand bytes make them up again
but for the ignored bits. -/
theorem encodeAndDecodeAreInverse : Obligations.EncodeAndDecodeAreInverse := by
  refine ⟨fun i rest hwf => ?_, fun bs i rest h => ?_⟩
  · obtain ⟨op, row, ops, henc, hrow, hlen, hbuild⟩ := encode_eq_cons i hwf
    rw [henc, List.cons_append, decode_of_mapped hrow hlen, hbuild]
  · obtain ⟨op, row, ops, hrow, hlen, rfl, rfl⟩ := exists_of_decode_eq_instr h
    exact ⟨wf_build hrow _, op :: ops, rfl, by rw [encode_build hrow, clearIgnored_cons hrow hlen]⟩

/-! ## Lengths and unmapped opcodes (R81, R95) -/

/-- The table of R81 is one byte for the opcode and the operand bytes of its format, checked for each of the 256 bytes. -/
theorem tableLength_toNat (op : Byte) :
    tableLength op.toNat = (opcodeMap op).map fun row => 1 + row.format.operandLength := by
  revert op; decide

/-- Settles O2: the opcode gives the row of the map, and the row its format's length. -/
theorem opcodeDecidesLength : Obligations.OpcodeDecidesLength := by
  intro op bs
  rw [tableLength_toNat]
  cases hrow : opcodeMap op with
  | none => exact ⟨fun _ => decode_of_unmapped hrow bs, nofun⟩
  | some row =>
    refine ⟨nofun, ?_⟩
    rintro _ ⟨⟩
    beta_reduce
    refine ⟨fun hfull => ?_, fun hshort => decode_of_short hrow (by omega)⟩
    have hlen : (bs.take row.format.operandLength).length = row.format.operandLength :=
      List.length_take_of_le (by omega)
    have hdec := decode_of_mapped hrow hlen (bs.drop row.format.operandLength)
    rw [List.take_append_drop] at hdec
    exact ⟨_, by rw [hdec, Nat.add_comm 1, List.drop_succ_cons], Machine.length_encode_build hrow _⟩

/-- The opcode map leaves out exactly the values R95 lists, checked for each of the 256 bytes. -/
theorem opcodeMap_eq_none_iff (op : Byte) : opcodeMap op = none ↔ unmapped op.toNat := by
  unfold unmapped
  revert op; decide

/-- Settles O3: each sample is decoded. -/
theorem sampleWordsDecode : Obligations.SampleWordsDecode := by
  unfold Obligations.SampleWordsDecode
  decide

end Sys2Proof

namespace Sys2Proof.Machine

open Sys2Proof.Claims

/-- At an unmapped opcode a step does nothing past its one byte but end (R95, R125). -/
theorem step_of_decodeAt_unknown {s : State} {op : Byte} (h : decodeAt s.main s.pc = .unknown op) :
    step s = endStep .illegalInstruction (s.set .pc (s.pc + 1)) := by
  rcases step_cases s with ⟨_, _, hd, _⟩ | ⟨_, _, e⟩ | ⟨_, _, hd, _⟩
  · rw [h] at hd; cases hd
  · exact e
  · rw [h] at hd; cases hd

theorem decodeAt_of_unmapped {m : Memory} {a : Word} (hfit : a.toNat < 32768) (h : opcodeMap (m.read a.toNat) = none) :
    decodeAt m a = .unknown (m.read a.toNat) := by
  rw [decodeAt, if_pos ((Region.fits_iff .main a 1).2 hfit), h]

theorem decodeAt_of_illegal {m : Memory} {a : Word} (hfit : a.toNat < 32768) (h : m.read a.toNat = 0xff) :
    decodeAt m a = .instr .illegal 1 := by
  rw [decodeAt, if_pos ((Region.fits_iff .main a 1).2 hfit), h]
  rfl

/-- Settles O31: both are decoded from one byte and end alike; the text is that of what was decoded. -/
theorem unmappedOpcodeIsIllegal : Obligations.UnmappedOpcodeIsIllegal := by
  intro s hpc
  refine ⟨fun hun => ?_, fun hff => ?_, (opcodeMap_eq_none_iff _).1⟩
  · have hnone := (opcodeMap_eq_none_iff _).2 hun
    have hdec : decodeAt s.main s.pc = _ := decodeAt_of_unmapped hpc hnone
    exact ⟨hnone, step_of_decodeAt_unknown hdec, by rw [disasm, hdec]; rfl⟩
  · have hdec : decodeAt s.main s.pc = _ := decodeAt_of_illegal hpc hff
    exact ⟨step_of_decodeAt hdec, by rw [disasm, hdec]; rfl⟩

end Sys2Proof.Machine
end


section
/-! # The step, `nop` and `illegal` (40_step_nop_illegal.md) -/

namespace Sys2Proof.Machine

open Sys2Proof.Claims

/-! ## `Decode(a)` where the bytes fit in MAIN, and where they do not (R97, R122) -/

/-- Accesses that all fit read consecutive bytes. -/
theorem readAccesses_of_fits (m : Memory) (ns : List Nat) (a : Word) (h : a.toNat + ns.sum ≤ 32768) :
    readAccesses m ns a = .ok (m.readBytes a.toNat ns.sum) := by
  induction ns generalizing a with
  | nil => rfl
  | cons n ns ih =>
    rw [List.sum_cons] at h ⊢
    have hnext : (a + BitVec.ofNat 32 n).toNat = a.toNat + n := by
      rw [BitVec.toNat_add_of_lt] <;> rw [BitVec.toNat_ofNat, Nat.mod_eq_of_lt] <;> omega
    have hfit : Region.main.fits a n = true := (Region.fits_iff .main a n).2 (show _ ≤ 32768 by omega)
    rw [readAccesses, if_pos hfit, ih _ (by omega), hnext, Memory.readBytes_append]

/-- The access at the head of the list is the one that fails if it does not fit. -/
theorem readAccesses_cons_of_exceeds (m : Memory) {n : Nat} (ns : List Nat) {a : Word} (h : 32768 < a.toNat + n) :
    readAccesses m (n :: ns) a = .error a := by
  have hfit : Region.main.fits a n = false := (Region.not_fits_iff .main a n).2 h
  rw [readAccesses, hfit]
  rfl

/-- Of two single bytes the second is the one that fails at the last address that fits. -/
theorem readAccesses_two_bytes_of_second_exceeds (m : Memory) {a : Word} (h : a.toNat = 32767) :
    readAccesses m [1, 1] a = .error 0x8000 := by
  have ha : a = 0x7fff := BitVec.eq_of_toNat_eq h
  subst ha
  rw [readAccesses, if_pos (by decide), readAccesses_cons_of_exceeds m [] (by decide)]
  rfl

theorem toNat_add_one {a : Word} (h : a.toNat < 32768) : (a + 1).toNat = a.toNat + 1 := by
  have hone : (1 : Word).toNat = 1 := rfl
  rw [BitVec.toNat_add_of_lt] <;> rw [hone]
  omega

/-- Operand bytes that do not fit are reported at the operand access that fails (R122). -/
theorem readAccesses_of_exceeds (m : Memory) (f : Format) {a : Word} (hop : a.toNat < 32768)
    (h : 32768 < a.toNat + (1 + f.operandLength)) :
    readAccesses m f.accesses (a + 1) = .error (operandFault f a) := by
  have hnext := toNat_add_one hop
  have hsingle (hlast : a.toNat = 32767) (ns : List Nat) : readAccesses m (1 :: ns) (a + 1) = .error 0x8000 := by
    have ha : a = 0x7fff := BitVec.eq_of_toNat_eq hlast
    rw [readAccesses_cons_of_exceeds m ns (by omega), ha]
    rfl
  cases f
  all_goals simp only [Format.operandLength, Format.accesses, List.sum_cons, List.sum_nil] at h
  case F0 | FR => omega
  case FI | FK => exact readAccesses_cons_of_exceeds m [] (by omega)
  case FS | FM | FP => exact hsingle (by omega) []
  case FA =>
    rcases Nat.lt_or_ge a.toNat 32767 with hlt | hge
    · exact readAccesses_two_bytes_of_second_exceeds m (by omega)
    · exact hsingle (by omega) [1]

/-- The formats whose operand bytes are fetched one at a time fail at the capacity. -/
theorem operandFault_of_bytewise (a : Word) : ∀ f ∈ [Format.FA, .FS, .FM, .FP], operandFault f a = 0x8000 := by
  simp [operandFault]

theorem operandLength_pos_of_bytewise : ∀ f ∈ [Format.FA, .FS, .FM, .FP], 0 < f.operandLength := by decide

/-- A mapped opcode whose operand bytes fit decodes to the instruction its row builds from them. -/
theorem decodeAt_of_fits {m : Memory} {a : Word} {row : OpcodeRow} (hrow : opcodeMap (m.read a.toNat) = some row)
    (h : a.toNat + (1 + row.format.operandLength) ≤ 32768) :
    decodeAt m a = .instr (row.build (leWord (m.readBytes (a.toNat + 1) row.format.operandLength)))
      (1 + row.format.operandLength) := by
  have hnext : (a + 1).toNat = a.toNat + 1 := toNat_add_one (by omega)
  have hops : readAccesses m row.format.accesses (a + 1) = .ok (m.readBytes (a.toNat + 1) row.format.operandLength) := by
    rw [readAccesses_of_fits, hnext]
    · rfl
    · rw [hnext]; simp only [Format.operandLength] at h; omega
  have hfit : Region.main.fits a 1 = true := (Region.fits_iff .main a 1).2 (show _ ≤ 32768 by omega)
  simp only [decodeAt, if_pos hfit, hrow, hops]

/-- A mapped opcode whose operand bytes leave MAIN is a fault at the operand access that fails. -/
theorem decodeAt_of_exceeds {m : Memory} {a : Word} {row : OpcodeRow} (hop : a.toNat < 32768)
    (hrow : opcodeMap (m.read a.toNat) = some row) (h : 32768 < a.toNat + (1 + row.format.operandLength)) :
    decodeAt m a = .memFault (operandFault row.format a) 32768 := by
  have hfit : Region.main.fits a 1 = true := (Region.fits_iff .main a 1).2 hop
  simp only [decodeAt, if_pos hfit, hrow, readAccesses_of_exceeds m row.format hop h]
  rfl

/-- An opcode byte outside MAIN is a fault at its own address (R121). -/
theorem decodeAt_of_opcode_exceeds (m : Memory) {a : Word} (h : 32768 ≤ a.toNat) : decodeAt m a = .memFault a 32768 := by
  have hfit : Region.main.fits a 1 = false := (Region.not_fits_iff .main a 1).2 (Nat.lt_succ_of_le h)
  rw [decodeAt, hfit]
  rfl

/-! ## The step at what `Decode(pc)` returns (R120 to R122) -/

/-- Where `Decode(pc)` faults a step raises the same fault, with `pc` at the failing access (R121). -/
theorem step_of_decodeAt_memFault {s : State} {addr : Word} {cap : Nat} (h : decodeAt s.main s.pc = .memFault addr cap) :
    step s = faultAt addr cap (s.set .pc addr) := by
  rcases step_cases s with ⟨_, _, hd, _⟩ | ⟨_, hd, _⟩ | ⟨_, _, hd, e⟩ <;> rw [h] at hd <;> cases hd
  exact e

/-- Settles O6: the three results of `Decode(pc)`. -/
theorem stepRunsDecodedInstruction : Obligations.StepRunsDecodedInstruction := fun _ =>
  ⟨fun _ _ h => step_of_decodeAt h, fun _ h => step_of_decodeAt_unknown h, fun _ _ h => step_of_decodeAt_memFault h⟩

/-- Settles O8: in each case `pc + 1` or `pc + 2` is where the operand fetch of the format fails. -/
theorem truncatedFetchFaults : Obligations.TruncatedFetchFaults := by
  intro s
  refine ⟨fun h => step_of_decodeAt_memFault (decodeAt_of_opcode_exceeds s.main h), fun row hop hrow => ?_⟩
  have hfault (h : 32768 < s.pc.toNat + (1 + row.format.operandLength)) :
      step s = faultAt (operandFault row.format s.pc) 32768 (s.set .pc (operandFault row.format s.pc)) :=
    step_of_decodeAt_memFault (decodeAt_of_exceeds hop hrow h)
  refine ⟨?_, ?_⟩
  · rintro (⟨hf, hlong⟩ | ⟨hf, hlong⟩ | ⟨hf, hlast⟩)
    · rw [hf] at hfault; exact hfault hlong
    · rw [hf] at hfault; exact hfault hlong
    · have hlen := operandLength_pos_of_bytewise _ hf
      have haddr : operandFault row.format s.pc = s.pc + 1 := by
        rw [operandFault_of_bytewise s.pc _ hf, show s.pc = 0x7fff from BitVec.eq_of_toNat_eq hlast]; rfl
      rw [haddr] at hfault
      exact hfault (by omega)
  · rintro ⟨hf, hlast⟩
    have haddr : operandFault row.format s.pc = s.pc + 2 := by
      rw [hf, show s.pc = 0x7ffe from BitVec.eq_of_toNat_eq hlast]; rfl
    have hlen : row.format.operandLength = 2 := by rw [hf]; rfl
    rw [haddr] at hfault
    exact hfault (by omega)

/-! ## The step at an encoding (R98, R120) -/

/-- Where the bytes from `a` are the encoding of a well-formed instruction, `Decode(a)` returns it. -/
theorem decodeAt_of_encode {m : Memory} {a : Word} {i : Instr} (hwf : i.wf = true)
    (hfit : a.toNat + (encode i).length ≤ 32768) (henc : m.readBytes a.toNat (encode i).length = encode i) :
    decodeAt m a = .instr i (encode i).length := by
  obtain ⟨op, row, ops, hcons, hrow, hlen, rfl⟩ := encode_eq_cons i hwf
  have htotal : (encode (row.build (leWord ops))).length = row.format.operandLength + 1 := by
    rw [hcons, List.length_cons, hlen]
  rw [htotal, hcons, Memory.readBytes] at henc
  obtain ⟨hop, hops⟩ := List.cons_eq_cons.1 henc
  rw [decodeAt_of_fits (hop ▸ hrow) (by omega), hops, htotal, Nat.add_comm]

/-- Settles O7: the bytes in MAIN are the encoding, and `Decode` undoes it. -/
theorem stepRunsEncodedInstruction : Obligations.StepRunsEncodedInstruction := by
  intro s i hwf hfit hbytes
  have henc : s.main.readBytes s.pc.toNat (encode i).length = encode i := by
    refine List.ext_getElem? fun k => ?_
    rcases Nat.lt_or_ge k (encode i).length with hk | hk
    · rw [Memory.readBytes_getElem? _ _ _ _ hk, hbytes k hk]; rfl
    · rw [List.getElem?_eq_none hk, List.getElem?_eq_none (by rwa [Memory.length_readBytes])]
  exact step_of_decodeAt (decodeAt_of_encode hwf hfit henc)

/-- The encoding and the fetch of a well-formed instruction, from its opcode, format and length. -/
theorem encodedAs_of_wf {i : Instr} {op : Byte} {f : Format} {len : Nat} (hwf : i.wf = true)
    (hop : (encode i).head? = some op) (hf : (opcodeMap op).map OpcodeRow.format = some f)
    (hlen : (encode i).length = len) : EncodedAs i op f len := by
  refine ⟨hop, hf, hlen, ?_, fun s hpc hlong hbyte => ?_⟩
  · subst hlen
    exact fun s => stepRunsEncodedInstruction s i hwf
  · obtain ⟨op', row, ops, hcons, hrow, hops, -⟩ := encode_eq_cons i hwf
    rw [hcons] at hop hlen
    cases hop
    rw [hrow] at hf
    cases hf
    have hmapped : opcodeMap (s.main.read s.pc.toNat) = some row := (congrArg opcodeMap hbyte).trans hrow
    rw [List.length_cons, hops, Nat.add_comm] at hlen
    exact step_of_decodeAt_memFault (decodeAt_of_exceeds hpc hmapped (hlen ▸ hlong))

/-! ## `nop` and `illegal` (R123, R124) -/

/-- Settles O29: the fetch advances `pc`, and the rule of `nop` is the empty one. -/
theorem nopOnlyAdvances : Obligations.NopOnlyAdvances :=
  ⟨encodedAs_of_wf rfl rfl rfl rfl, rfl, fun _ => rfl⟩

/-- Settles O30: the fetch advances `pc`, and the rule of `illegal` gives the outcome only. -/
theorem illegalEndsStep : Obligations.IllegalEndsStep :=
  ⟨encodedAs_of_wf rfl rfl rfl rfl, rfl, fun _ => rfl⟩

end Sys2Proof.Machine
end

section
/-! # Runs and traces (R126, R127, R389) -/

namespace Sys2Proof.Machine

open Sys2Proof.Claims

/-! ## What was emitted before a step -/

/-- `l` emitted before everything the state has emitted. -/
def State.prependEmitted (l : List Emission) (s : State) : State := { s with emitted := l ++ s.emitted }

/-- An instruction adds to the sequence at its end and does not read it. -/
theorem transparent_prependEmitted (l : List Emission) : Transparent (State.prependEmitted l) where
  get := fun _ r => by cases r <;> rfl
  region := fun _ g => by cases g <;> rfl
  set := fun _ r _ => by cases r <;> rfl
  setRegion := fun _ g _ => by cases g <;> rfl
  setOutcome := fun _ _ => rfl
  emitByte := fun s b => congrArg (fun es => { s with emitted := es }) (List.append_assoc l s.emitted [.console b])
  emitDiag := fun s d => congrArg (fun es => { s with emitted := es }) (List.append_assoc l s.emitted [.diag d])
  consoleAnswer := fun s => by
    rcases s with ⟨_, _, _, _, _, _, _, _, _, _, _, _, _ | ⟨_, _⟩, _, _, _⟩ <;> rfl

/-- A transparent change that leaves `C` alone is carried through a whole step, fetch included. -/
theorem Transparent.map_step {f : State → State} (hf : Transparent f) (hcarry : ∀ s, (f s).carry = s.carry)
    (hset : ∀ s b, (f s).setCarry b = f (s.setCarry b)) (s : State) : step (f s) = mapState f (step s) := by
  have hmain : (f s).main = s.main := hf.region s .main
  have hpc : (f s).pc = s.pc := hf.get s .pc
  have hdecode : decodeAt (f s).main (f s).pc = decodeAt s.main s.pc := by rw [hmain, hpc]
  rcases step_cases s with ⟨i, len, hdec, e⟩ | ⟨op, hdec, e⟩ | ⟨addr, cap, hdec, e⟩ <;> rw [e]
  · rw [step_of_decodeAt (hdecode.trans hdec), hpc, hf.set, exec_eq_run, exec_eq_run]
    exact hf.map_run _ _ (fun _ _ => hcarry _) fun _ => hset
  · rw [step_of_decodeAt_unknown (hdecode.trans hdec), hpc, hf.set, hf.map_endStep]
  · rw [step_of_decodeAt_memFault (hdecode.trans hdec), hf.set]
    exact hf.map_raiseMemFault addr cap _

/-- A step emits the same whatever was emitted before it, and does the same otherwise. -/
theorem step_prependEmitted (l : List Emission) (s : State) :
    step (s.prependEmitted l) = mapState (State.prependEmitted l) (step s) :=
  (transparent_prependEmitted l).map_step (fun _ => rfl) (fun _ _ => rfl) s

/-- The state as if nothing had been emitted yet. -/
def State.clearEmitted (s : State) : State := { s with emitted := [] }

theorem State.prependEmitted_clearEmitted (s : State) (l : List Emission) :
    s.clearEmitted.prependEmitted l = { s with emitted := l } := by
  simp only [State.prependEmitted, State.clearEmitted, List.append_nil]

/-- A step is the step with nothing emitted before, its emissions put after those of the state. -/
theorem step_eq_prependEmitted (s : State) :
    step s = mapState (State.prependEmitted s.emitted) (step s.clearEmitted) := by
  rw [← step_prependEmitted, State.prependEmitted_clearEmitted]

theorem stateLeft_mapState (f : State → State) (res : Result) : stateLeft (mapState f res) = (stateLeft res).map f := by
  rcases res with _ | ⟨_, _, _⟩ | _ <;> rfl

theorem mapState_mapState (f g : State → State) (res : Result) :
    mapState f (mapState g res) = mapState (fun s => f (g s)) res := by
  rcases res with _ | ⟨_, _, _⟩ | _ <;> rfl

/-- What a step leaves has emitted all that its start had emitted, and possibly more. -/
theorem emitted_prefix_of_step {s t : State} (h : stateLeft (step s) = some t) : s.emitted <+: t.emitted := by
  rw [step_eq_prependEmitted, stateLeft_mapState, Option.map_eq_some_iff] at h
  obtain ⟨u, _, rfl⟩ := h
  exact List.prefix_append s.emitted u.emitted

/-! ## One step of a run (R126) -/

/-- The state in which a run makes its next step: with its trace record emitted if the run is traced. -/
def beforeStep (trace : Bool) (s : State) : State := if trace then emitTrace s else s

/-- How a run goes on after a step: as a run on Success, else it ends with the step's outcome. -/
def afterStep (trace : Bool) (n : Nat) : Result → RunResult
  | .next t => if t.outcome = .success then run trace n t else .ended t.outcome t
  | .fault (.memFault addr cap left) => .ended (.memFault addr cap) left
  | .refused r => .refused r

theorem run_succ (trace : Bool) (n : Nat) (s : State) :
    run trace (n + 1) s = afterStep trace n (step (beforeStep trace s)) := rfl

theorem beforeStep_false (s : State) : beforeStep false s = s := rfl

theorem emitted_prefix_beforeStep (trace : Bool) (s : State) : s.emitted <+: (beforeStep trace s).emitted := by
  cases trace with
  | false => exact List.prefix_rfl
  | true =>
    show _ <+: (emitTrace s).emitted
    rcases emitTrace_cases s with ⟨t, e⟩ | e <;> rw [e]
    exact List.prefix_append _ _

/-- The result is that of a step which ended with outcome `o` and left `t`. -/
def ResultEnds (res : Result) (o : StepOutcome) (t : State) : Prop :=
  (res = .next t ∧ t.outcome = o) ∨ ∃ addr cap, res = .fault (.memFault addr cap t) ∧ o = .memFault addr cap

theorem stateLeft_of_resultEnds {res : Result} {o : StepOutcome} {t : State} (h : ResultEnds res o t) :
    stateLeft res = some t := by
  rcases h with ⟨rfl, _⟩ | ⟨_, _, rfl, _⟩ <;> rfl

/-- A run is still running after a step exactly if the step succeeded and the run from there is. -/
theorem afterStep_eq_running_iff {trace : Bool} {n : Nat} {res : Result} {t : State} :
    afterStep trace n res = .running t ↔ ∃ u, res = .next u ∧ u.outcome = .success ∧ run trace n u = .running t := by
  rcases res with u | ⟨addr, cap, left⟩ | r
  · by_cases hu : u.outcome = .success <;> simp [afterStep, hu]
  · simp [afterStep]
  · simp [afterStep]

/-- A run ends after a step exactly if the step ended it, or succeeded and the run from there ends. -/
theorem afterStep_eq_ended_iff {trace : Bool} {n : Nat} {res : Result} {o : StepOutcome} {t : State} :
    afterStep trace n res = .ended o t ↔
      (ResultEnds res o t ∧ o ≠ .success) ∨
        ∃ u, res = .next u ∧ u.outcome = .success ∧ run trace n u = .ended o t := by
  rcases res with u | ⟨addr, cap, left⟩ | r
  · by_cases hu : u.outcome = .success
    · rw [afterStep, if_pos hu]
      refine ⟨fun h => .inr ⟨u, rfl, hu, h⟩, ?_⟩
      rintro (⟨⟨⟨⟩, rfl⟩ | ⟨_, _, ⟨⟩, _⟩, ho⟩ | ⟨_, ⟨⟩, _, h⟩)
      · exact absurd hu ho
      · exact h
    · rw [afterStep, if_neg hu]
      refine ⟨by rintro ⟨⟩; exact .inl ⟨.inl ⟨rfl, rfl⟩, hu⟩, ?_⟩
      rintro (⟨⟨⟨⟩, rfl⟩ | ⟨_, _, ⟨⟩, _⟩, _⟩ | ⟨_, ⟨⟩, h, _⟩)
      · rfl
      · exact absurd h hu
  · refine ⟨by rintro ⟨⟩; exact .inl ⟨.inr ⟨addr, cap, rfl, rfl⟩, nofun⟩, ?_⟩
    rintro (⟨⟨⟨⟩, _⟩ | ⟨_, _, ⟨⟩, rfl⟩, _⟩ | ⟨_, ⟨⟩, _⟩)
    rfl
  · refine ⟨nofun, ?_⟩
    rintro (⟨⟨⟨⟩, _⟩ | ⟨_, _, ⟨⟩, _⟩, _⟩ | ⟨_, ⟨⟩, _⟩)

/-! ## The end of a run (R126) -/

/-- An untraced run is still running after `n` steps exactly if all of them succeeded. -/
theorem run_eq_running_iff (n : Nat) (s t : State) : run false n s = .running t ↔ succeeds n s t := by
  induction n generalizing s with
  | zero => exact RunResult.running.injEq s t ▸ eq_comm
  | succ n ih =>
    rw [run_succ, beforeStep_false, afterStep_eq_running_iff]
    simp only [ih]
    rfl

/-- An untraced run ends within `n` steps exactly if fewer than `n` successful steps lead to one that is not. -/
theorem run_eq_ended_iff (n : Nat) (s : State) (o : StepOutcome) (t : State) :
    run false n s = .ended o t ↔ ∃ k u, k < n ∧ succeeds k s u ∧ EndsWith u o t ∧ o ≠ .success := by
  induction n generalizing s with
  | zero => exact ⟨nofun, nofun⟩
  | succ n ih =>
    rw [run_succ, beforeStep_false, afterStep_eq_ended_iff]
    simp only [ih]
    constructor
    · rintro (⟨hend, ho⟩ | ⟨u, hstep, hu, k, v, hk, hsucc, hend⟩)
      · exact ⟨0, s, n.succ_pos, rfl, hend, ho⟩
      · exact ⟨k + 1, v, Nat.succ_lt_succ hk, ⟨u, hstep, hu, hsucc⟩, hend⟩
    · rintro ⟨_ | k, v, hk, hsucc, hend⟩
      · exact .inl (hsucc ▸ hend)
      · obtain ⟨u, hstep, hu, hsucc⟩ := hsucc
        exact .inr ⟨u, hstep, hu, k, v, Nat.lt_of_succ_lt_succ hk, hsucc, hend⟩

/-- What a run leaves has emitted all that its start had emitted, and possibly more. -/
theorem emitted_prefix_of_run {trace : Bool} {n : Nat} {s t : State}
    (h : run trace n s = .running t ∨ ∃ o, run trace n s = .ended o t) : s.emitted <+: t.emitted := by
  induction n generalizing s with
  | zero =>
    rcases h with h | ⟨o, h⟩ <;> cases h
    exact List.prefix_rfl
  | succ n ih =>
    simp only [run_succ, afterStep_eq_running_iff, afterStep_eq_ended_iff] at h
    refine (emitted_prefix_beforeStep trace s).trans ?_
    have hgoes {u : State} (hstep : step (beforeStep trace s) = .next u)
        (hrun : run trace n u = .running t ∨ ∃ o, run trace n u = .ended o t) :
        (beforeStep trace s).emitted <+: t.emitted :=
      (emitted_prefix_of_step (by rw [hstep]; rfl)).trans (ih hrun)
    rcases h with ⟨u, hstep, _, hrun⟩ | ⟨o, ⟨hend, _⟩ | ⟨u, hstep, _, hrun⟩⟩
    · exact hgoes hstep (.inl hrun)
    · exact emitted_prefix_of_step (stateLeft_of_resultEnds hend)
    · exact hgoes hstep (.inr ⟨o, hrun⟩)

/-- Settles O22: the ends of a run by induction on its steps, its emissions since each step only adds to them. -/
theorem runEndsAtFirstTerminalOutcome : Obligations.RunEndsAtFirstTerminalOutcome := by
  refine fun n s => ⟨run_eq_running_iff n s, run_eq_ended_iff n s, fun trace t h => ?_⟩
  have hsplit := List.prefix_iff_eq_append.1 (emitted_prefix_of_run h)
  rcases h with h | ⟨o, h⟩ <;> rw [h] <;> exact hsplit.symm

/-! ## The trace adds nothing but its records (R127) -/

theorem dropTrace_prependEmitted (l : List Emission) (s : State) :
    dropTrace (s.prependEmitted l) = (dropTrace s).prependEmitted (l.filter fun e => !isTrace e) := by
  simp only [dropTrace, State.prependEmitted, List.filter_append]

theorem dropTrace_outcome (s : State) : (dropTrace s).outcome = s.outcome := rfl

theorem clearEmitted_dropTrace (s : State) : (dropTrace s).clearEmitted = s.clearEmitted := rfl

theorem dropTrace_beforeStep (trace : Bool) (s : State) : dropTrace (beforeStep trace s) = dropTrace s := by
  cases trace with
  | false => rfl
  | true =>
    show dropTrace (emitTrace s) = _
    rcases emitTrace_cases s with ⟨t, e⟩ | e <;> rw [e]
    simp [dropTrace, State.emitDiag, isTrace]

/-- Steps from states that agree but for trace records end alike and leave such states. -/
theorem mapState_dropTrace_step_congr {s s' : State} (h : dropTrace s = dropTrace s') :
    mapState dropTrace (step s) = mapState dropTrace (step s') := by
  have hearlier : s.emitted.filter (fun e => !isTrace e) = s'.emitted.filter (fun e => !isTrace e) :=
    congrArg State.emitted h
  have hclear : s.clearEmitted = s'.clearEmitted := by
    rw [← clearEmitted_dropTrace s, h, clearEmitted_dropTrace]
  rw [step_eq_prependEmitted s, step_eq_prependEmitted s', mapState_mapState, mapState_mapState]
  simp only [dropTrace_prependEmitted, hearlier, hclear]

/-- Results that agree but for trace records make runs go on, or end, alike. -/
theorem forgetTrace_afterStep_congr {trace trace' : Bool} {n : Nat}
    (hrun : ∀ t t', dropTrace t = dropTrace t' → forgetTrace (run trace n t) = forgetTrace (run trace' n t'))
    {res res' : Result} (h : mapState dropTrace res = mapState dropTrace res') :
    forgetTrace (afterStep trace n res) = forgetTrace (afterStep trace' n res') := by
  rcases res with t | ⟨addr, cap, t⟩ | r <;> rcases res' with t' | ⟨addr', cap', t'⟩ | r' <;>
    simp only [mapState, Host.Outcome.next.injEq, Host.Outcome.fault.injEq, Host.Outcome.refused.injEq,
      Fault.memFault.injEq, reduceCtorEq] at h
  case next.next =>
    have ho : t.outcome = t'.outcome := by rw [← dropTrace_outcome t, h, dropTrace_outcome]
    by_cases hs : t'.outcome = .success
    · simp only [afterStep, ho, if_pos hs, hrun t t' h]
    · simp only [afterStep, ho, if_neg hs, forgetTrace, h]
  case fault.fault =>
    obtain ⟨rfl, rfl, h⟩ := h
    simp only [afterStep, forgetTrace, h]
  case refused.refused => simp only [afterStep, h]

/-- Runs from states that agree but for trace records agree but for trace records, whichever of them is traced. -/
theorem forgetTrace_run_congr (trace trace' : Bool) (n : Nat) {s s' : State} (h : dropTrace s = dropTrace s') :
    forgetTrace (run trace n s) = forgetTrace (run trace' n s') := by
  induction n generalizing s s' with
  | zero => exact congrArg RunResult.running h
  | succ n ih =>
    rw [run_succ, run_succ]
    refine forgetTrace_afterStep_congr (fun _ _ => ih) (mapState_dropTrace_step_congr ?_)
    rw [dropTrace_beforeStep, dropTrace_beforeStep, h]

/-- Settles O23: a step carries earlier emissions through, so a trace record shows in the sequence alone. -/
theorem tracedRunAgreesWithUntraced : Obligations.TracedRunAgreesWithUntraced := by
  refine ⟨fun s l => ?_, fun n s => forgetTrace_run_congr true false n rfl⟩
  rw [← s.prependEmitted_clearEmitted l]
  exact step_prependEmitted l s.clearEmitted

end Sys2Proof.Machine
end

section
/-! # The ALU (41_alu.md) -/

namespace Sys2Proof.Machine

open Sys2Proof.Claims

/-! ## The results and the flag against 32-bit arithmetic (R146, R147) -/

/-- The low 32 bits of the exact sum are the 32-bit sum (R141). -/
theorem addResult_eq_add (va vb : Word) : addResult va vb = va + vb := by
  rw [addResult, exactSum, BitVec.ofNat_add, BitVec.ofNat_toNat, BitVec.ofNat_toNat, BitVec.setWidth_eq,
    BitVec.setWidth_eq]

/-- A result bit of the shift reads the sign-extended value `n` bits further up. -/
theorem getLsbD_shiftRightArithmetic (v : Word) {n j : Nat} (hn : n ≤ 31) (hj : j ≤ 31) :
    (shiftRightArithmetic v n).getLsbD j = (v.signExtend 64).getLsbD (j + n) := by
  rw [shiftRightArithmetic, BitVec.getLsbD_setWidth, BitVec.getLsbD_sshiftRight, if_pos (by omega),
    decide_eq_true (by omega : j < 32), decide_eq_false (by omega : ¬ 64 ≤ j), Nat.add_comm n j]
  rfl

/-- The bits moved down: result bits `[31-n:0]` are `v[31:n]` (R146). -/
theorem getLsbD_shiftRightArithmetic_moved (v : Word) {n j : Nat} (h : j + n ≤ 31) :
    (shiftRightArithmetic v n).getLsbD j = v.getLsbD (j + n) := by
  rw [getLsbD_shiftRightArithmetic v (by omega) (by omega), BitVec.getLsbD_signExtend, if_pos (by omega),
    decide_eq_true (by omega), Bool.true_and]

/-- The bits shifted in: the top `n` bits are copies of `v[31]` (R146). -/
theorem getLsbD_shiftRightArithmetic_sign (v : Word) {n j : Nat} (hn : n ≤ 31) (hj : j ≤ 31) (h : 31 < j + n) :
    (shiftRightArithmetic v n).getLsbD j = v.getLsbD 31 := by
  rw [getLsbD_shiftRightArithmetic v hn hj, BitVec.getLsbD_signExtend, if_neg (by omega),
    decide_eq_true (by omega), Bool.true_and, BitVec.msb_eq_getLsbD_last]

/-! ## The instructions (R141 to R146) -/

theorem exec_sraW (r : Reg) (n : Nat) (s : State) :
    exec (.sraW r n) s = success (s.set r (shiftRightArithmetic (s.get r) n)) := rfl

/-- The one condition on an operand of the ALU: an amount up to 31 has an encoding (R87). -/
theorem wf_sraW (r : Reg) {n : Nat} (hn : n ≤ 31) : (Instr.sraW r n).wf = true := decide_eq_true hn

/-- Settles O35: the bits of the shifted value, below and from bit `32 - n`. -/
theorem sraShiftsInSignCopies : Obligations.SraShiftsInSignCopies := by
  intro r n s hn
  refine ⟨encodedAs_of_wf (wf_sraW r hn) rfl rfl rfl, shiftRightArithmetic (s.get r) n, exec_sraW r n s, ?_, ?_⟩
  · exact fun j hmoved => getLsbD_shiftRightArithmetic_moved _ hmoved
  · exact fun j hin hj => getLsbD_shiftRightArithmetic_sign _ hn hj hin

/-- Settles O32: the shared shape of `add.w` and `sub.w` with the exact sum's low word and bit 32. -/
theorem addWritesSumAndCarry : Obligations.AddWritesSumAndCarry := by
  intro t a b s
  refine ⟨encodedAs_of_wf rfl rfl rfl rfl, ?_⟩
  rw [← addResult_eq_add]
  exact arithmetic_eq addResult addCarry t a b s

/-- Settles O33: the same shape with the 32-bit difference and the borrow. -/
theorem subWritesDifferenceAndBorrow : Obligations.SubWritesDifferenceAndBorrow := fun t a b s =>
  ⟨encodedAs_of_wf rfl rfl rfl rfl, arithmetic_eq subResult subBorrow t a b s⟩

/-- Settles O34: the shape that leaves `C` alone, at the three bitwise functions. -/
theorem bitwiseInstructionsWriteTarget : Obligations.BitwiseInstructionsWriteTarget := fun t a b s =>
  ⟨⟨encodedAs_of_wf rfl rfl rfl rfl, bitwise_eq (· ||| ·) t a b s⟩,
    ⟨encodedAs_of_wf rfl rfl rfl rfl, bitwise_eq (· &&& ·) t a b s⟩,
    ⟨encodedAs_of_wf rfl rfl rfl rfl, bitwise_eq (· ^^^ ·) t a b s⟩⟩

end Sys2Proof.Machine
end

section
/-! # The moves (42_moves.md) -/

namespace Sys2Proof.Machine

open Sys2Proof.Claims

/-! ## A result that stores to MAIN -/

/-- A step that ends with a store and nothing more: the stored bytes, and every field but the memory as before it. -/
theorem exists_stored_of_eq {res : Result} {s t : State} {addr : Word} {n : Nat} {v : Word}
    (hres : res = success (t.storeAt .main addr n v)) (hbytes : ∀ g x, t.byteAt g x = s.byteAt g x) :
    ∃ u, res = .next u ∧ Stored s u .main addr.toNat n v ∧ SameButMemory { t with outcome := .success } u := by
  obtain ⟨hin, hout⟩ := stored_storeAt (t.setOutcome .success) .main addr n v
  refine ⟨(t.setOutcome .success).storeAt .main addr n v, hres, ⟨hin, fun g x hx => ?_⟩, sameButMemory_storeAt _ _ _ _ _⟩
  rw [hout g x hx, State.setOutcome_byteAt, hbytes]

/-! ## The register moves (R160 to R162) -/

section
variable {w : Width} {s : State} {r : Reg}

/-- An indirect source in range gives the value at its address to the target. -/
theorem moveRegister_indirect_of_fits (t : Operand) (h : (s.get r).toNat + w.bytes ≤ 32768) :
    moveRegister w t (.indirect r) s = writeOperand w t (s.valueAt .main (s.get r) w.bytes) s :=
  memReadIn_of_fits (g := .main) (rest := fun v => writeOperand w t v s) h

/-- An indirect source out of range raises the fault before the target is looked at. -/
theorem moveRegister_indirect_of_exceeds (t : Operand) (h : 32768 < (s.get r).toNat + w.bytes) :
    moveRegister w t (.indirect r) s = faultAt (s.get r) 32768 s :=
  memReadIn_of_not_fits (g := .main) (rest := fun v => writeOperand w t v s) h

theorem writeOperand_indirect_of_fits (v : Word) (h : (s.get r).toNat + w.bytes ≤ 32768) :
    writeOperand w (.indirect r) v s = success (s.storeAt .main (s.get r) w.bytes v) :=
  memWriteIn_of_fits h

theorem writeOperand_indirect_of_exceeds (v : Word) (h : 32768 < (s.get r).toNat + w.bytes) :
    writeOperand w (.indirect r) v s = faultAt (s.get r) 32768 s :=
  memWriteIn_of_not_fits h

end

/-- A store of the width's bytes takes them from the register itself: the zero extension does not reach them. -/
theorem storeAt_ofRegister (w : Width) (s : State) (g : Region) (addr v : Word) :
    s.storeAt g addr w.bytes (w.ofRegister v) = s.storeAt g addr w.bytes v := by
  cases w with
  | word => rfl
  | byte => simp [State.storeAt, Width.bytes, Width.ofRegister, bytesLE]

/-- The low byte of a register, zero-extended (R162). -/
theorem ofRegister_byte (v : Word) : Width.byte.ofRegister v = (v.extractLsb' 0 8).setWidth 32 := by
  rw [Width.ofRegister, ← BitVec.setWidth_eq_extractLsb' (by decide)]

/-- An indirect target in range receives a register's low bytes. -/
theorem moveRegister_indirect_direct_of_fits {w : Width} {s : State} {t : Reg} (r : Reg)
    (h : (s.get t).toNat + w.bytes ≤ 32768) :
    moveRegister w (.indirect t) (.direct r) s = success (s.storeAt .main (s.get t) w.bytes (s.get r)) := by
  rw [← storeAt_ofRegister]
  exact writeOperand_indirect_of_fits _ h

/-- Settles O37: the source operand first, then the target, each in range or at fault. -/
theorem movWordFourModes : Obligations.MovWordFourModes := by
  refine ⟨fun t src => encodedAs_of_wf rfl rfl rfl rfl, fun s t r => rfl, fun s t r hr => ?_, fun s t r ht => ?_,
    fun s t r hr ht => ?_, fun s o r hr => ?_, fun s t r ht => ?_, fun s t r hr ht => ?_⟩
  · rw [← State.valueAt_four]
    exact moveRegister_indirect_of_fits (w := .word) _ hr
  · exact exists_stored_of_eq (moveRegister_indirect_direct_of_fits (w := .word) r ht) fun _ _ => rfl
  · rw [← State.valueAt_four]
    exact exists_stored_of_eq ((moveRegister_indirect_of_fits (w := .word) _ hr).trans
      (writeOperand_indirect_of_fits _ ht)) fun _ _ => rfl
  · exact moveRegister_indirect_of_exceeds (w := .word) o hr
  · exact writeOperand_indirect_of_exceeds (w := .word) _ ht
  · exact (moveRegister_indirect_of_fits (w := .word) _ hr).trans (writeOperand_indirect_of_exceeds _ ht)

/-- Settles O38: as O37 with one byte; what a direct source contributes is its low byte. -/
theorem movByteFourModes : Obligations.MovByteFourModes := by
  refine ⟨fun t src => encodedAs_of_wf rfl rfl rfl rfl, fun s t r => ?_, fun s t r hr => ?_, fun s t r ht => ?_,
    fun s t r hr ht => ?_, fun s o r hr => ?_, fun s t r ht => ?_, fun s t r hr ht => ?_⟩
  · rw [← ofRegister_byte]; rfl
  · rw [← State.valueAt_one]
    exact moveRegister_indirect_of_fits (w := .byte) _ hr
  · exact exists_stored_of_eq (moveRegister_indirect_direct_of_fits (w := .byte) r ht) fun _ _ => rfl
  · rw [← State.valueAt_one]
    exact exists_stored_of_eq ((moveRegister_indirect_of_fits (w := .byte) _ hr).trans
      (writeOperand_indirect_of_fits _ ht)) fun _ _ => rfl
  · exact moveRegister_indirect_of_exceeds (w := .byte) o (Nat.lt_succ_of_le hr)
  · exact writeOperand_indirect_of_exceeds (w := .byte) _ (Nat.lt_succ_of_le ht)
  · exact (moveRegister_indirect_of_fits (w := .byte) _ hr).trans
      (writeOperand_indirect_of_exceeds _ (Nat.lt_succ_of_le ht))

/-! ## The adjustment lines of an adjusting move (R165) -/

section
variable (w : Width) (m : Adjust) (p : Reg) (s : State)

/-- The model's signed `delta` and the claims' addition or subtraction by mode are the same adjustment. -/
theorem adjustPointer_eq : adjustPointer w m p s = s.set p (adjusted (BitVec.ofNat 32 w.bytes) m (s.get p)) := by
  cases m with
  | postInc | preInc => rfl
  | postDec | preDec => exact congrArg (s.set p) (BitVec.sub_eq_add_neg _ _).symm

/-- The pre line leaves the state in which the access is made. -/
theorem adjustPre_eq_atAccess : adjustPre w m p s = atAccess (BitVec.ofNat 32 w.bytes) m p s := by
  cases m with
  | postInc | postDec => exact (s.set_get p).symm
  | preInc => exact adjustPointer_eq w .preInc p s
  | preDec => exact adjustPointer_eq w .preDec p s

/-- The post line after the pre line: the pointer is adjusted in every mode, and nothing else has changed. -/
theorem adjustPost_atAccess :
    adjustPost w m p (atAccess (BitVec.ofNat 32 w.bytes) m p s) =
      s.set p (adjusted (BitVec.ofNat 32 w.bytes) m (s.get p)) := by
  cases m with
  | preInc | preDec => rfl
  | postInc | postDec =>
    show adjustPointer w _ p (s.set p (s.get p)) = _
    rw [State.set_get, adjustPointer_eq]

/-- The post line after the write of an adjusting load. -/
theorem adjustPost_set_atAccess (v : Reg) (x : Word) :
    adjustPost w m p ((atAccess (BitVec.ofNat 32 w.bytes) m p s).set v x) =
      afterLoad (BitVec.ofNat 32 w.bytes) m p v x s := by
  cases m with
  | preInc | preDec => rfl
  | postInc | postDec =>
    show adjustPointer w _ p ((s.set p (s.get p)).set v x) = _
    rw [State.set_get, adjustPointer_eq]
    rfl

@[simp] theorem get_atAccess_self (n : Word) : (atAccess n m p s).get p = accessed n m (s.get p) :=
  s.get_set_self p _

end

theorem get_atAccess_ne (n : Word) (m : Adjust) {p v : Reg} (s : State) (h : p ≠ v) :
    (atAccess n m p s).get v = s.get v := s.get_set_ne _ h.symm

/-- A register write and a store touch different fields. -/
theorem State.storeAt_set (s : State) (r : Reg) (x : Word) (g : Region) (addr : Word) (n : Nat) (v : Word) :
    (s.set r x).storeAt g addr n v = (s.storeAt g addr n v).set r x := by
  cases r <;> cases g <;> rfl

/-- The post line adjusts the pointer after a store as it would before it. -/
theorem adjustPost_storeAt (w : Width) (m : Adjust) (p : Reg) (s : State) (g : Region) (addr : Word) (n : Nat) (v : Word) :
    adjustPost w m p (s.storeAt g addr n v) = (adjustPost w m p s).storeAt g addr n v := by
  unfold adjustPost adjustPointer
  split
  · rfl
  · rw [State.storeAt_get, State.storeAt_set]

/-! ## The adjusting moves (R166 to R169) -/

section
variable {w : Width} {m : Adjust} {p : Reg} {s : State}

/-- An adjusting store in range: the value the register holds at the access, stored at the address accessed, and the pointer
adjusted. -/
theorem adjustingStore_of_fits (v : Reg)
    (h : (accessed (BitVec.ofNat 32 w.bytes) m (s.get p)).toNat + w.bytes ≤ 32768) :
    adjustingStore w m p v s =
      success ((s.set p (adjusted (BitVec.ofNat 32 w.bytes) m (s.get p))).storeAt .main
        (accessed (BitVec.ofNat 32 w.bytes) m (s.get p)) w.bytes
        ((atAccess (BitVec.ofNat 32 w.bytes) m p s).get v)) := by
  simp only [adjustingStore, adjustPre_eq_atAccess, get_atAccess_self]
  rw [memWriteIn_of_fits h, adjustPost_storeAt, adjustPost_atAccess]
  rfl

/-- An adjusting store out of range faults in the state of the access. -/
theorem adjustingStore_of_exceeds (v : Reg)
    (h : 32768 < (accessed (BitVec.ofNat 32 w.bytes) m (s.get p)).toNat + w.bytes) :
    adjustingStore w m p v s =
      faultAt (accessed (BitVec.ofNat 32 w.bytes) m (s.get p)) 32768 (atAccess (BitVec.ofNat 32 w.bytes) m p s) := by
  simp only [adjustingStore, adjustPre_eq_atAccess, get_atAccess_self]
  exact memWriteIn_of_not_fits h

/-- An adjusting load in range: the value at the address accessed to the value register, and the pointer adjusted. -/
theorem adjustingLoad_of_fits (v : Reg)
    (h : (accessed (BitVec.ofNat 32 w.bytes) m (s.get p)).toNat + w.bytes ≤ 32768) :
    adjustingLoad w v m p s =
      success (afterLoad (BitVec.ofNat 32 w.bytes) m p v
        (s.valueAt .main (accessed (BitVec.ofNat 32 w.bytes) m (s.get p)) w.bytes) s) := by
  simp only [adjustingLoad, adjustPre_eq_atAccess, get_atAccess_self]
  rw [memReadIn_of_fits h, adjustPost_set_atAccess, atAccess, State.set_valueAt]
  rfl

/-- An adjusting load out of range faults in the state of the access. -/
theorem adjustingLoad_of_exceeds (v : Reg)
    (h : 32768 < (accessed (BitVec.ofNat 32 w.bytes) m (s.get p)).toNat + w.bytes) :
    adjustingLoad w v m p s =
      faultAt (accessed (BitVec.ofNat 32 w.bytes) m (s.get p)) 32768 (atAccess (BitVec.ofNat 32 w.bytes) m p s) := by
  simp only [adjustingLoad, adjustPre_eq_atAccess, get_atAccess_self]
  exact memReadIn_of_not_fits h

end

/-- Settles O39: the adjusting store at four bytes. -/
theorem adjustingWordStore : Obligations.AdjustingWordStore := fun _ p v s =>
  ⟨encodedAs_of_wf rfl rfl rfl rfl,
    fun h => exists_stored_of_eq (adjustingStore_of_fits (w := .word) v h) (s.set_byteAt p _),
    adjustingStore_of_exceeds (w := .word) v⟩

/-- Settles O40: the adjusting store at one byte. -/
theorem adjustingByteStore : Obligations.AdjustingByteStore := fun _ p v s =>
  ⟨encodedAs_of_wf rfl rfl rfl rfl,
    fun h => exists_stored_of_eq (adjustingStore_of_fits (w := .byte) v h) (s.set_byteAt p _),
    adjustingStore_of_exceeds (w := .byte) v⟩

/-- Settles O41: the adjusting load at four bytes, whose value is the word there. -/
theorem adjustingWordLoad : Obligations.AdjustingWordLoad := by
  refine fun v m p s => ⟨encodedAs_of_wf rfl rfl rfl rfl, fun h => ?_, adjustingLoad_of_exceeds (w := .word) v⟩
  rw [← State.valueAt_four]
  exact adjustingLoad_of_fits (w := .word) v h

/-- Settles O42: the adjusting load at one byte, whose value is the byte there, zero-extended. -/
theorem adjustingByteLoad : Obligations.AdjustingByteLoad := by
  refine fun v m p s => ⟨encodedAs_of_wf rfl rfl rfl rfl, fun h => ?_, adjustingLoad_of_exceeds (w := .byte) v⟩
  rw [← State.valueAt_one]
  exact adjustingLoad_of_fits (w := .byte) v h

/-! ## A store and a load through the same pointer (R165) -/

section
variable (n : Word) (m : Adjust) {p v : Reg} (x : Word) (s : State)

/-- The value register of an adjusting load holds the value loaded, if it is not the pointer. -/
theorem get_afterLoad_value (h : p ≠ v) : (afterLoad n m p v x s).get v = x := by
  cases m <;> simp [afterLoad, State.get_set, h.symm]

/-- The pointer of an adjusting load ends adjusted, if it is not the value register. -/
theorem get_afterLoad_pointer (h : p ≠ v) : (afterLoad n m p v x s).get p = adjusted n m (s.get p) := by
  cases m <;> simp [afterLoad, adjusted, State.get_set, h]

end

/-- What an adjusting word store leaves for a later load, if the value register is not the pointer. -/
theorem exec_movsStW_next {m : Adjust} {p v : Reg} {s : State} (hv : p ≠ v)
    (hfit : (accessed 4 m (s.get p)).toNat + 4 ≤ 32768) :
    ∃ u, exec (.movsStW m p v) s = .next u ∧ u.get p = adjusted 4 m (s.get p) ∧
      u.valueAt .main (accessed 4 m (s.get p)) 4 = s.get v := by
  have hstore := adjustingStore_of_fits (w := .word) v hfit
  rw [get_atAccess_ne _ _ _ hv] at hstore
  refine ⟨((s.set p (adjusted 4 m (s.get p))).setOutcome .success).storeAt .main (accessed 4 m (s.get p)) 4 (s.get v),
    hstore, ?_, State.valueAt_storeAt_self _ _ _ _⟩
  rw [State.storeAt_get, State.setOutcome_get, State.get_set_self]

/-- What an adjusting word load leaves in its two registers, if they differ. -/
theorem exec_movsLdW_next {m : Adjust} {p q : Reg} {s : State} (hq : p ≠ q)
    (hfit : (accessed 4 m (s.get p)).toNat + 4 ≤ 32768) :
    ∃ u, exec (.movsLdW q m p) s = .next u ∧ u.get q = s.valueAt .main (accessed 4 m (s.get p)) 4 ∧
      u.get p = adjusted 4 m (s.get p) :=
  ⟨_, adjustingLoad_of_fits (w := .word) q hfit,
    (State.setOutcome_get _ _ q).trans (get_afterLoad_value _ _ _ _ hq),
    (State.setOutcome_get _ _ p).trans (get_afterLoad_pointer _ _ _ _ hq)⟩

/-- If the mode `m'`, after the mode `m`, accesses the same address and brings the pointer back, a load by `m'` returns the
word stored by `m`. -/
theorem adjustingLoad_after_adjustingStore {m m' : Adjust} {p v q : Reg} {s : State} (hv : p ≠ v) (hq : p ≠ q)
    (hfit : (accessed 4 m (s.get p)).toNat + 4 ≤ 32768)
    (haddr : accessed 4 m' (adjusted 4 m (s.get p)) = accessed 4 m (s.get p))
    (hback : adjusted 4 m' (adjusted 4 m (s.get p)) = s.get p) :
    ∃ u w, exec (.movsStW m p v) s = .next u ∧ u.get p = adjusted 4 m (s.get p) ∧
      word32 u .main (accessed 4 m (s.get p)).toNat = s.get v ∧
      exec (.movsLdW q m' p) u = .next w ∧ w.get q = s.get v ∧ w.get p = s.get p := by
  obtain ⟨u, hstore, hpu, hword⟩ := exec_movsStW_next hv hfit
  have hsame : accessed 4 m' (u.get p) = accessed 4 m (s.get p) := by rw [hpu, haddr]
  obtain ⟨w, hload, hqw, hpw⟩ := exec_movsLdW_next (m := m') (s := u) hq (by rwa [hsame])
  rw [hsame, hword] at hqw
  rw [hpu, hback] at hpw
  exact ⟨u, w, hstore, hpu, (u.valueAt_four .main _).symm.trans hword, hload, hqw, hpw⟩

/-- Settles O43: the two pairs of modes that meet at one address. -/
theorem adjustingMovesRoundTrip : Obligations.AdjustingMovesRoundTrip := by
  intro p v q s hv hq
  refine ⟨fun hfit => ?_, fun hfit => ?_⟩
  · obtain ⟨u, w, hstore, hpu, -, hload, hqw, hpw⟩ :=
      adjustingLoad_after_adjustingStore (m := .postInc) (m' := .preDec) hv hq hfit
        (BitVec.add_sub_cancel _ _) (BitVec.add_sub_cancel _ _)
    exact ⟨u, w, hstore, hpu, hload, hqw, hpw⟩
  · exact adjustingLoad_after_adjustingStore (m := .preDec) (m' := .postInc) hv hq hfit rfl (BitVec.sub_add_cancel _ _)

/-! ## The literals (R172, R173) -/

/-- Settles O44: the two opcodes write their own accumulator. -/
theorem moviLoadsLiteral : Obligations.MoviLoadsLiteral := fun _ _ =>
  ⟨⟨encodedAs_of_wf rfl rfl rfl rfl, rfl⟩, ⟨encodedAs_of_wf rfl rfl rfl rfl, rfl⟩⟩

end Sys2Proof.Machine
end

section
/-! # Control transfer (43_control.md) -/

namespace Sys2Proof.Machine

open Sys2Proof.Claims

/-! ## Families of instructions whose opcode names the register (R86) -/

/-- A family of one-byte instructions is encoded as its base opcode plus the register's index, if each of its rows is. -/
theorem encodedAs_of_mem_rows {rows : List (Instr × Reg)} {base : Byte}
    (hrows : ∀ p ∈ rows, p.1.wf = true ∧ encode p.1 = [base + p.2.index.setWidth 8] ∧
      (opcodeMap (base + p.2.index.setWidth 8)).map OpcodeRow.format = some .FR)
    {i : Instr} {r : Reg} (h : (i, r) ∈ rows) : EncodedAs i (base + r.index.setWidth 8) .FR 1 := by
  obtain ⟨hwf, henc, hformat⟩ := hrows (i, r) h
  exact encodedAs_of_wf hwf (congrArg List.head? henc) hformat (congrArg List.length henc)

theorem operation_of_mem_jmpiRows : ∀ p ∈ jmpiRows, operation p.1 = .jumpThrough p.2 := by
  simp [jmpiRows, operation]

theorem operation_of_mem_jmpdRows : ∀ p ∈ jmpdRows, operation p.1 = .jumpTo p.2 := by
  simp [jmpdRows, operation]

theorem exec_of_mem_jmpiRows {i : Instr} {r : Reg} (h : (i, r) ∈ jmpiRows) (s : State) : exec i s = jumpThrough r s := by
  rw [exec_eq_run, operation_of_mem_jmpiRows _ h]; rfl

theorem exec_of_mem_jmpdRows {i : Instr} {r : Reg} (h : (i, r) ∈ jmpdRows) (s : State) : exec i s = jumpTo r s := by
  rw [exec_eq_run, operation_of_mem_jmpdRows _ h]; rfl

/-! ## The shapes of a jump (R190, R199, R209, R210) -/

/-- A register in range: the word of MAIN there becomes `pc`. -/
theorem jumpThrough_of_fits {r : Reg} {s : State} (h : (s.get r).toNat + 4 ≤ 32768) :
    jumpThrough r s = success { s with pc := word32 s .main (s.get r).toNat } := by
  rw [← State.valueAt_four]
  exact memReadIn_of_fits (g := .main) h

/-- A register out of range: the fault, and `pc` is not written. -/
theorem jumpThrough_of_exceeds {r : Reg} {s : State} (h : 32768 < (s.get r).toNat + 4) :
    jumpThrough r s = faultAt (s.get r) 32768 s :=
  memReadIn_of_not_fits (g := .main) h

/-- A jump on a condition changes `pc` alone, and that only where the condition holds. -/
theorem succeed_ite_set_pc (c : Prop) [Decidable c] (target : Word) (s : State) :
    succeed (if c then s.set .pc target else s) = success { s with pc := if c then target else s.pc } := by
  split <;> rfl

/-! ## The step at an opcode with a 32-bit immediate (R92, R122) -/

/-- Where the five bytes fit, a step runs the instruction whose immediate is the word after the opcode. -/
theorem step_of_immediate_of_fits {s : State} {build : Word → Instr}
    (hrow : opcodeMap (s.byteAt .main s.pc.toNat) = some ⟨.FI, build⟩) (hfit : s.pc.toNat + 5 ≤ 32768) :
    step s = exec (build (word32 s .main (s.pc.toNat + 1))) (s.set .pc (s.pc + 5)) := by
  have himm : leWord (s.main.readBytes (s.pc.toNat + 1) 4) = word32 s .main (s.pc.toNat + 1) := leWord_four _ _ _ _
  rw [← himm]
  exact step_of_decodeAt (decodeAt_of_fits hrow hfit)

/-- Where they do not fit, a step faults at the operand fetch, `pc` past the opcode byte. -/
theorem step_of_immediate_of_exceeds {s : State} {build : Word → Instr} (hpc : s.pc.toNat < 32768)
    (hrow : opcodeMap (s.byteAt .main s.pc.toNat) = some ⟨.FI, build⟩) (hlong : 32768 < s.pc.toNat + 5) :
    step s = faultAt (s.pc + 1) 32768 { s with pc := s.pc + 1 } :=
  step_of_decodeAt_memFault (decodeAt_of_exceeds hpc hrow hlong)

/-! ## The step at `67`, `jmp [%pc]` (R198) -/

/-- The fetch of `jmp [%pc]` is its opcode byte, so its jump reads through the address after that byte. -/
theorem step_of_jmpiPc {s : State} (hpc : s.pc.toNat < 32768) (hbyte : s.byteAt .main s.pc.toNat = 0x67) :
    step s = jumpThrough .pc (s.set .pc (s.pc + 1)) :=
  step_of_decodeAt (decodeAt_of_fits (row := ⟨.FR, fun _ => .jmpiPc⟩) (congrArg opcodeMap hbyte) hpc)

/-- `jmp [%pc]` takes the word after its opcode byte where that word fits. -/
theorem step_of_jmpiPc_of_fits {s : State} (hbyte : s.byteAt .main s.pc.toNat = 0x67) (hfit : s.pc.toNat + 5 ≤ 32768) :
    step s = success { s with pc := word32 s .main (s.pc.toNat + 1) } := by
  have hpc : s.pc.toNat < 32768 := by omega
  have hnext := toNat_add_one hpc
  rw [step_of_jmpiPc hpc hbyte, ← hnext]
  exact jumpThrough_of_fits (by rw [State.get_set_self]; omega)

/-- `jmp [%pc]` faults at the word after its opcode byte where that word does not fit. -/
theorem step_of_jmpiPc_of_exceeds {s : State} (hpc : s.pc.toNat < 32768) (hbyte : s.byteAt .main s.pc.toNat = 0x67)
    (hlong : 32768 < s.pc.toNat + 5) : step s = faultAt (s.pc + 1) 32768 { s with pc := s.pc + 1 } := by
  have hnext := toNat_add_one hpc
  rw [step_of_jmpiPc hpc hbyte]
  exact jumpThrough_of_exceeds (by rw [State.get_set_self]; omega)

/-! ## The obligations -/

/-- Settles O45: the eight rows run one jump through the register they name. -/
theorem indirectJumpsReadTheirCell : Obligations.IndirectJumpsReadTheirCell := by
  intro i r h
  refine ⟨encodedAs_of_mem_rows (by decide) h, fun s => ?_⟩
  rw [exec_of_mem_jmpiRows h]
  exact ⟨jumpThrough_of_fits, jumpThrough_of_exceeds⟩

/-- Settles O47: the word that `jmp [%pc]` reads through `pc` and the operand that `jmp` fetches are the same four bytes. -/
theorem jumpThroughPcIsJumpImmediate : Obligations.JumpThroughPcIsJumpImmediate := by
  refine ⟨encodedAs_of_wf rfl rfl rfl rfl, rfl, fun s hpc hop => ?_⟩
  rcases hop with hbyte | hbyte
  · exact ⟨step_of_jmpiPc_of_fits hbyte, step_of_jmpiPc_of_exceeds hpc hbyte⟩
  · have hrow : opcodeMap (s.byteAt .main s.pc.toNat) = some ⟨.FI, .jmp⟩ := congrArg opcodeMap hbyte
    exact ⟨step_of_immediate_of_fits hrow, step_of_immediate_of_exceeds hpc hrow⟩

/-- Settles O49: `pc` is past the call when `ret` is written, and at a step that is the address plus 5. -/
theorem callSavesReturnAddress : Obligations.CallSavesReturnAddress := by
  refine ⟨fun _ _ => ⟨encodedAs_of_wf rfl rfl rfl rfl, rfl, rfl⟩, fun s hfit hbyte => ?_⟩
  have hrow : opcodeMap (s.byteAt .main s.pc.toNat) = some ⟨.FI, .call⟩ := congrArg opcodeMap hbyte
  exact step_of_immediate_of_fits hrow hfit

/-- Settles O46: the eight rows run one jump to the value of the register they name. -/
theorem directJumpsTakeRegister : Obligations.DirectJumpsTakeRegister := fun _ _ h =>
  ⟨encodedAs_of_mem_rows (by decide) h, exec_of_mem_jmpdRows h⟩

/-- Settles O48: `jmp` writes `pc`, the other two on their condition. -/
theorem immediateJumps : Obligations.ImmediateJumps := fun imm s =>
  ⟨⟨encodedAs_of_wf rfl rfl rfl rfl, rfl⟩,
    ⟨encodedAs_of_wf rfl rfl rfl rfl, succeed_ite_set_pc (s.acc1 = 0) imm s⟩,
    ⟨encodedAs_of_wf rfl rfl rfl rfl, succeed_ite_set_pc (s.carry = true) imm s⟩⟩

end Sys2Proof.Machine
end

section
/-! # The stacks (44_stack.md) -/

namespace Sys2Proof.Machine

open Sys2Proof.Claims

/-! ## A push (R230, R232) and a pop (R231, R233) on either stack -/

section
variable {g : Region} {sp r : Reg} {s : State}

/-- A push in range: the register's old value stored at the pointer, and the pointer grown. -/
theorem push_of_fits (h : (s.get sp).toNat + 4 ≤ 32768) :
    push g sp r s = .next (((s.set sp (s.get sp + 4)).setOutcome .success).storeAt g (s.get sp) 4 (s.get r)) := by
  unfold push
  rw [memWriteIn_of_fits (by rwa [g.cap_eq]), State.storeAt_get, ← State.storeAt_set]
  cases g <;> rfl

/-- A push out of range: the fault, with nothing changed. -/
theorem push_of_exceeds (h : 32768 < (s.get sp).toNat + 4) : push g sp r s = faultAt (s.get sp) 32768 s := by
  unfold push
  rw [memWriteIn_of_not_fits (by rwa [g.cap_eq]), g.cap_eq]
  rfl

/-- What a push in range stores, and what it leaves unchanged. -/
theorem push_stores (h : (s.get sp).toNat + 4 ≤ 32768) :
    ∃ u, push g sp r s = .next u ∧ Stored s u g (s.get sp).toNat 4 (s.get r) ∧
      SameButMemory ((s.set sp (s.get sp + 4)).setOutcome .success) u := by
  obtain ⟨hin, hout⟩ := stored_storeAt ((s.set sp (s.get sp + 4)).setOutcome .success) g (s.get sp) 4 (s.get r)
  refine ⟨_, push_of_fits h, ⟨hin, fun k x hx => ?_⟩, sameButMemory_storeAt _ _ _ _ _⟩
  rw [hout k x hx, State.setOutcome_byteAt, State.set_byteAt]

theorem pop_of_empty (h : s.get sp = 0) : pop g sp r s = .next { s with outcome := .error } := if_pos h

/-- A pop in range: the pointer shrunk, and then the word there in the register. -/
theorem pop_of_fits (hne : s.get sp ≠ 0) (h : (s.get sp - 4).toNat + 4 ≤ 32768) :
    pop g sp r s = success ((s.set sp (s.get sp - 4)).set r (word32 s g (s.get sp - 4).toNat)) := by
  unfold pop
  simp only [if_neg hne, State.get_set_self]
  rw [memReadIn_of_fits (by rwa [g.cap_eq]), State.set_valueAt, State.valueAt_four]
  rfl

/-- A pop out of range: the fault, with the pointer already shrunk (D9). -/
theorem pop_of_exceeds (hne : s.get sp ≠ 0) (h : 32768 < (s.get sp - 4).toNat + 4) :
    pop g sp r s = faultAt (s.get sp - 4) 32768 (s.set sp (s.get sp - 4)) := by
  unfold pop
  simp only [if_neg hne, State.get_set_self]
  rw [memReadIn_of_not_fits (by rwa [g.cap_eq]), g.cap_eq]
  rfl

/-! ## A pop after a push (R266) -/

/-- A pointer with room above it for a word is not zero once it has grown by a word. -/
theorem add_four_ne_zero {a : Word} (h : a.toNat + 4 ≤ 32768) : a + 4 ≠ 0 := by bv_omega

/-- What a push in range leaves for a later pop: the pointer a word on, and the value pushed below it. -/
theorem push_leaves_word (h : (s.get sp).toNat + 4 ≤ 32768) :
    ∃ u, push g sp r s = .next u ∧ u.get sp = s.get sp + 4 ∧ word32 u g (s.get sp).toNat = s.get r := by
  refine ⟨_, push_of_fits h, ?_, ?_⟩
  · rw [State.storeAt_get, State.setOutcome_get, State.get_set_self]
  · rw [← State.valueAt_four, State.valueAt_storeAt_self]

/-- The pop reads where the push wrote, since taking the word off undoes the growth of the pointer. -/
theorem pop_after_push (q : Reg) (h : (s.get sp).toNat + 4 ≤ 32768) :
    ∃ u w, push g sp r s = .next u ∧ pop g sp q u = success w ∧ w.get q = s.get r ∧
      (q ≠ sp → w.get sp = s.get sp) := by
  obtain ⟨u, hpush, hsp, hword⟩ := push_leaves_word (g := g) (r := r) h
  have hback : u.get sp - 4 = s.get sp := by rw [hsp, BitVec.add_sub_cancel]
  have hpop := pop_of_fits (g := g) (r := q) (hsp ▸ add_four_ne_zero h) (by rwa [hback])
  rw [hback, hword] at hpop
  refine ⟨u, _, hpush, hpop, State.get_set_self _ _ _, fun hq => ?_⟩
  rw [State.get_set_ne _ _ hq.symm, State.get_set_self]

end

/-! ## The four families -/

theorem operation_of_mem_dpushRows : ∀ p ∈ dpushRows, operation p.1 = .push .dstack .dsp p.2 := by
  simp [dpushRows, operation]

theorem operation_of_mem_dpopRows : ∀ p ∈ dpopRows, operation p.1 = .pop .dstack .dsp p.2 := by
  simp [dpopRows, operation]

theorem operation_of_mem_rpushRows : ∀ p ∈ rpushRows, operation p.1 = .push .rstack .rsp p.2 := by
  simp [rpushRows, operation]

theorem operation_of_mem_rpopRows : ∀ p ∈ rpopRows, operation p.1 = .pop .rstack .rsp p.2 := by
  simp [rpopRows, operation]

theorem exec_of_operation {i : Instr} {op : Operation} (h : operation i = op) (s : State) : exec i s = op.run s :=
  h ▸ exec_eq_run i s

theorem exec_of_mem_dpushRows {i : Instr} {r : Reg} (h : (i, r) ∈ dpushRows) (s : State) :
    exec i s = push .dstack .dsp r s := exec_of_operation (operation_of_mem_dpushRows _ h) s

theorem exec_of_mem_dpopRows {i : Instr} {r : Reg} (h : (i, r) ∈ dpopRows) (s : State) :
    exec i s = pop .dstack .dsp r s := exec_of_operation (operation_of_mem_dpopRows _ h) s

theorem exec_of_mem_rpushRows {i : Instr} {r : Reg} (h : (i, r) ∈ rpushRows) (s : State) :
    exec i s = push .rstack .rsp r s := exec_of_operation (operation_of_mem_rpushRows _ h) s

theorem exec_of_mem_rpopRows {i : Instr} {r : Reg} (h : (i, r) ∈ rpopRows) (s : State) :
    exec i s = pop .rstack .rsp r s := exec_of_operation (operation_of_mem_rpopRows _ h) s

/-- Settles O50: the eight rows push the register they name on DSTACK. -/
theorem dataPushes : Obligations.DataPushes := by
  refine fun i r h => ⟨encodedAs_of_mem_rows (by decide) h, fun s => ?_⟩
  rw [exec_of_mem_dpushRows h]
  exact ⟨push_stores (sp := .dsp), push_of_exceeds (sp := .dsp)⟩

/-- Settles O51: the eight rows pop DSTACK into the register they name. -/
theorem dataPops : Obligations.DataPops := by
  refine fun i r h => ⟨encodedAs_of_mem_rows (by decide) h, fun s => ?_⟩
  rw [exec_of_mem_dpopRows h]
  exact ⟨pop_of_empty (sp := .dsp), pop_of_fits (sp := .dsp), pop_of_exceeds (sp := .dsp)⟩

/-- Settles O52: the eight rows push the register they name on RSTACK. -/
theorem returnPushes : Obligations.ReturnPushes := by
  refine fun i r h => ⟨encodedAs_of_mem_rows (by decide) h, fun s => ?_⟩
  rw [exec_of_mem_rpushRows h]
  exact ⟨push_stores (sp := .rsp), push_of_exceeds (sp := .rsp)⟩

/-- Settles O53: the eight rows pop RSTACK into the register they name. -/
theorem returnPops : Obligations.ReturnPops := by
  refine fun i r h => ⟨encodedAs_of_mem_rows (by decide) h, fun s => ?_⟩
  rw [exec_of_mem_rpopRows h]
  exact ⟨pop_of_empty (sp := .rsp), pop_of_fits (sp := .rsp), pop_of_exceeds (sp := .rsp)⟩

/-- Settles O54: on either stack a pop runs after a push of the same stack. -/
theorem pushThenPopReturnsWord : Obligations.PushThenPopReturnsWord := by
  refine ⟨fun i r j q hi hj s h => ?_, fun i r j q hi hj s h => ?_⟩
  · simp only [exec_of_mem_dpushRows hi, exec_of_mem_dpopRows hj]
    exact pop_after_push q h
  · simp only [exec_of_mem_rpushRows hi, exec_of_mem_rpopRows hj]
    exact pop_after_push q h

/-! ## What the families leave to the other stack and to MAIN (R266) -/

/-- The instructions of one stack keep every register but its pointer, save a pop the register it names. -/
theorem get_eq_of_stack_instruction {pushes pops : List (Instr × Reg)} {g : Region} {sp q : Reg} {i : Instr}
    {s t : State}
    (hpushes : ∀ p ∈ pushes, operation p.1 = .push g sp p.2) (hpops : ∀ p ∈ pops, operation p.1 = .pop g sp p.2)
    (hi : i ∈ (pushes ++ pops).map Prod.fst) (hsp : q ≠ sp) (hq : (i, q) ∉ pops)
    (ht : stateLeft (exec i s) = some t) : t.get q = s.get q := by
  refine (exec_within i s t ht).get_eq ?_
  obtain ⟨⟨i, r⟩, hmem, rfl⟩ := List.mem_map.1 hi
  rcases List.mem_append.1 hmem with hpush | hpop
  · rw [hpushes _ hpush]
    exact hsp
  · have hr : q ≠ r := fun e => hq (e ▸ hpop)
    rw [hpops _ hpop]
    exact fun hw => hw.elim hsp hr

theorem mem_dpopRows_rsp_iff (i : Instr) : (i, Reg.rsp) ∈ dpopRows ↔ i = .dpopRsp := by simp [dpopRows]

theorem mem_rpopRows_dsp_iff (i : Instr) : (i, Reg.dsp) ∈ rpopRows ↔ i = .rpopDsp := by simp [rpopRows]

theorem not_rpush_and_not_storesToMain_of_data_stack :
    ∀ i ∈ (dpushRows ++ dpopRows).map Prod.fst, i ∉ rpushRows.map Prod.fst ∧ storesToMain i = false := by decide

theorem not_dpush_and_not_storesToMain_of_return_stack :
    ∀ i ∈ (rpushRows ++ rpopRows).map Prod.fst, i ∉ dpushRows.map Prod.fst ∧ storesToMain i = false := by decide

/-- Settles O55: the other pointer is outside the footprint, and the other regions are written by other instructions. -/
theorem stacksAreIndependent : Obligations.StacksAreIndependent := by
  intro i s t ht
  obtain ⟨hmain, hdstack, hrstack⟩ := regionsChangeOnlyByTheirInstructions i s t ht
  refine ⟨fun hi => ?_, fun hi => ?_⟩
  · obtain ⟨hpush, hstore⟩ := not_rpush_and_not_storesToMain_of_data_stack i hi
    refine ⟨fun hne => ?_, hrstack hpush, hmain hstore⟩
    exact get_eq_of_stack_instruction (q := .rsp) operation_of_mem_dpushRows operation_of_mem_dpopRows hi (by decide)
      (mt (mem_dpopRows_rsp_iff i).1 hne) ht
  · obtain ⟨hpush, hstore⟩ := not_dpush_and_not_storesToMain_of_return_stack i hi
    refine ⟨fun hne => ?_, hdstack hpush, hmain hstore⟩
    exact get_eq_of_stack_instruction (q := .dsp) operation_of_mem_rpushRows operation_of_mem_rpopRows hi (by decide)
      (mt (mem_rpopRows_dsp_iff i).1 hne) ht

end Sys2Proof.Machine
end

section
/-! # `ifkt` (45_ifkt.md) -/

namespace Sys2Proof.Machine

open Sys2Proof.Claims

/-- Every function code has the one encoding (R280). -/
theorem encodedAs_ifkt (code : Half) : EncodedAs (.ifkt code) 0xfe .FK 3 := encodedAs_of_wf rfl rfl rfl rfl

theorem exec_ifkt (code : Half) (s : State) : exec (.ifkt code) s = execIfkt code s := exec_of_operation rfl s

/-! ## Character input (R282) -/

section
variable {s t : State}

theorem State.consoleAnswer_of_cons {a : ConsoleAnswer} {rest : List ConsoleAnswer} (h : s.consoleIn = a :: rest) :
    s.consoleAnswer = (a, { s with consoleIn := rest }) := by
  unfold State.consoleAnswer
  rw [h]

theorem State.consoleAnswer_of_nil (h : s.consoleIn = []) :
    s.consoleAnswer = (Config.consoleAnswer s.consoleAsked, { s with consoleAsked := s.consoleAsked + 1 }) := by
  unfold State.consoleAnswer
  rw [h]

/-- An answered byte goes to `acc1` and is echoed, on the state the request left. -/
theorem ifktInput_of_char {b : Byte} (h : s.consoleAnswer = (.char b, t)) :
    ifktInput s = success { t with acc1 := b.setWidth 32, emitted := t.emitted ++ [.console b] } := by
  unfold ifktInput
  rw [h]
  rfl

/-- An interrupted request gives the state it left the outcome `Error`, and nothing else happens (D15). -/
theorem ifktInput_of_interrupted (h : s.consoleAnswer = (.interrupted, t)) :
    ifktInput s = .next { t with outcome := .error } := by
  unfold ifktInput
  rw [h]
  rfl

end

/-! ## The dump of a word (R285) -/

section
variable {s : State}

theorem ifktDumpWord_of_fits (h : s.dsp.toNat + 4 ≤ 32768) :
    ifktDumpWord s =
      success { s with emitted := s.emitted ++ [.diag (.dumpWord s.dsp (word32 s .main s.dsp.toNat))] } := by
  rw [← State.valueAt_four]
  exact memReadIn_of_fits (g := .main) h

theorem ifktDumpWord_of_exceeds (h : 32768 < s.dsp.toNat + 4) : ifktDumpWord s = faultAt s.dsp 32768 s :=
  memReadIn_of_not_fits (g := .main) h

end

/-! ## The loop of the range dump (R286) -/

/-- The bytes read from an address up are the bytes at its offsets. -/
theorem Memory.readBytes_eq_map_range (m : Memory) (a n : Nat) :
    m.readBytes a n = (List.range n).map fun k => m.read (a + k) := by
  refine List.ext_getElem? fun k => ?_
  rcases Nat.lt_or_ge k n with hk | hk
  · rw [Memory.readBytes_getElem? _ _ _ _ hk, List.getElem?_map, List.getElem?_range hk]; rfl
  · rw [List.getElem?_eq_none (by rwa [Memory.length_readBytes]), List.getElem?_eq_none (by simpa using hk)]

section
variable {addr : Word} {s : State} {rest : List Byte → Result}

/-- An address in MAIN: the loop reads the byte there and goes on at the next address. -/
theorem readRange_succ_of_fits (count : Nat) (h : addr.toNat < 32768) :
    readRange (count + 1) addr s rest =
      readRange count (addr + 1) s fun bs => rest (s.main.read addr.toNat :: bs) := by
  have hread := memReadIn_of_fits (g := .main) (n := 1) (s := s)
    (rest := fun v => readRange count (addr + 1) s fun bs => rest (v.setWidth 8 :: bs)) h
  rw [← leWord_readBytes_one s.main addr.toNat]
  exact hread

/-- An address past MAIN, and a byte still to be read: the fault is there. -/
theorem readRange_of_outside {count : Nat} (hcount : 0 < count) (h : 32768 ≤ addr.toNat) :
    readRange count addr s rest = faultAt addr 32768 s := by
  cases count with
  | zero => omega
  | succ n => exact memReadIn_of_not_fits (g := .main) (Nat.lt_succ_of_le h)

/-- An empty range is never out of range; a range that fits gives its bytes. -/
theorem readRange_of_fits {count : Nat} (h : count = 0 ∨ addr.toNat + count ≤ 32768) :
    readRange count addr s rest = rest (s.main.readBytes addr.toNat count) := by
  induction count generalizing addr rest with
  | zero => rfl
  | succ n ih =>
    have haddr : addr.toNat < 32768 := by omega
    have hnext := toNat_add_one haddr
    rw [readRange_succ_of_fits n haddr, ih (by omega), hnext]
    rfl

/-- A range that starts in MAIN and leaves it faults at the capacity, the first address past MAIN. -/
theorem readRange_of_crosses {count : Nat} (haddr : addr.toNat < 32768) (h : 32768 < addr.toNat + count) :
    readRange count addr s rest = faultAt 0x8000 32768 s := by
  induction count generalizing addr rest with
  | zero => omega
  | succ n ih =>
    have hnext := toNat_add_one haddr
    rw [readRange_succ_of_fits n haddr]
    rcases Nat.lt_or_ge (addr + 1).toNat 32768 with hin | hout
    · exact ih hin (by omega)
    · have hcap : addr + 1 = 0x8000 := BitVec.eq_of_toNat_eq (show (addr + 1).toNat = 32768 by omega)
      rw [readRange_of_outside (by omega) hout, hcap]

end

/-! ## The dump of a range (R286) -/

section
variable {s : State}

/-- The bounds of the rule are the smaller and the larger of `acc1` and `acc2`. -/
theorem ifktDumpRange_eq (s : State) :
    ifktDumpRange s = readRange ((highBound s).toNat - (lowBound s).toNat) (lowBound s) s
      fun bytes => succeed (s.emitDiag (.dumpRange (lowBound s) (highBound s) bytes)) := by
  unfold ifktDumpRange lowBound highBound
  rcases Nat.lt_or_ge s.acc2.toNat s.acc1.toNat with h | h
  · simp only [if_pos h, if_neg (Nat.not_le.2 h)]
  · simp only [if_pos h, if_neg (Nat.not_lt.2 h)]

theorem lowBound_le_highBound (s : State) : (lowBound s).toNat ≤ (highBound s).toNat := by
  unfold lowBound highBound
  split <;> omega

/-- An empty range, or one that ends in MAIN, is dumped. -/
theorem ifktDumpRange_of_fits (h : lowBound s = highBound s ∨ (highBound s).toNat ≤ 32768) :
    ifktDumpRange s =
      success { s with
        emitted := s.emitted ++ [.diag (.dumpRange (lowBound s) (highBound s)
          ((List.range ((highBound s).toNat - (lowBound s).toNat)).map
            fun k => s.byteAt .main ((lowBound s).toNat + k)))] } := by
  have hle := lowBound_le_highBound s
  have hfit : (highBound s).toNat - (lowBound s).toNat = 0 ∨
      (lowBound s).toNat + ((highBound s).toNat - (lowBound s).toNat) ≤ 32768 := by
    rcases h with heq | hmain
    · exact .inl (by rw [heq, Nat.sub_self])
    · exact .inr (by omega)
  rw [ifktDumpRange_eq, readRange_of_fits hfit, Memory.readBytes_eq_map_range]
  rfl

/-- A nonempty range that leaves MAIN faults at the capacity, or where it starts if that is past MAIN already. -/
theorem ifktDumpRange_of_exceeds (hne : lowBound s ≠ highBound s) (h : 32768 < (highBound s).toNat) :
    ifktDumpRange s = faultAt (if (lowBound s).toNat < 32768 then 0x8000 else lowBound s) 32768 s := by
  have hlt : (lowBound s).toNat < (highBound s).toNat :=
    Nat.lt_of_le_of_ne (lowBound_le_highBound s) (mt BitVec.eq_of_toNat_eq hne)
  rw [ifktDumpRange_eq]
  split
  next hin => exact readRange_of_crosses hin (by omega)
  next hout => exact readRange_of_outside (by omega) (Nat.not_lt.1 hout)

end

/-! ## An unrecognised code (R287) -/

theorem execIfkt_of_unrecognised {code : Half} (h : code.toNat = 0 ∨ 6 ≤ code.toNat) (s : State) :
    execIfkt code s = .next { s with outcome := .illegalInstruction } := by
  unfold execIfkt
  split
  case h_6 => rfl
  all_goals omega

/-! ## The obligations -/

/-- Settles O58: the word read at `dsp` goes into the record. -/
theorem ifktDumpsWordAtDsp : Obligations.IfktDumpsWordAtDsp :=
  ⟨encodedAs_ifkt 4, fun _ => ⟨ifktDumpWord_of_fits, ifktDumpWord_of_exceeds⟩⟩

/-- Settles O59: the loop reads every byte of a range that fits, and else reaches the first address past MAIN. -/
theorem ifktDumpsRange : Obligations.IfktDumpsRange :=
  ⟨encodedAs_ifkt 5, fun _ => ⟨ifktDumpRange_of_fits, ifktDumpRange_of_exceeds⟩⟩

/-- Settles O56: the answer is the next one lined up, or the free one, and is a byte or an interruption. -/
theorem ifktInputEchoesCharacter : Obligations.IfktInputEchoesCharacter := by
  refine ⟨encodedAs_ifkt 1, fun s b rest h => ?_, fun s rest h => ?_, fun s h => ?_⟩
  · exact ifktInput_of_char (State.consoleAnswer_of_cons h)
  · exact ifktInput_of_interrupted (State.consoleAnswer_of_cons h)
  · have hanswer := State.consoleAnswer_of_nil h
    cases hfree : Config.consoleAnswer s.consoleAsked with
    | char b => exact ifktInput_of_char (hfree ▸ hanswer)
    | interrupted => exact ifktInput_of_interrupted (hfree ▸ hanswer)

/-- Settles O57: the low byte of `acc1` is emitted, or the outcome is recorded, and that is all. -/
theorem ifktOutputAndTerminate : Obligations.IfktOutputAndTerminate := by
  refine ⟨⟨encodedAs_ifkt 2, fun s => ?_⟩, encodedAs_ifkt 3, fun _ => rfl⟩
  rw [← BitVec.setWidth_eq_extractLsb' (by decide)]
  rfl

/-- Settles O60: the dispatch has an arm for the codes 1 to 5 only, and the text takes any code. -/
theorem ifktUnrecognisedCodeIsIllegal : Obligations.IfktUnrecognisedCodeIsIllegal := fun code s h =>
  ⟨encodedAs_ifkt code, rfl, (exec_ifkt code s).trans (execIfkt_of_unrecognised h s)⟩

end Sys2Proof.Machine
end

section
/-! # The disassembler and the assembler (46_disassembler.md)

Every disassembly text is a line of the grammar of R330: a mnemonic and its operands. `IsLine` says which line an
instruction's text is; that a line is read back is proved for all lines at once. -/

namespace Sys2Proof.Machine

/-! ## Hexadecimal numbers (R301) -/

theorem hexDigitValue_hexDigit : ∀ d < 16, hexDigitValue (hexDigit d) = some d := by decide

theorem hexDigit_inj {d e : Nat} (hd : d < 16) (he : e < 16) (h : hexDigit d = hexDigit e) : d = e := by
  have hvalue := congrArg hexDigitValue h
  rwa [hexDigitValue_hexDigit d hd, hexDigitValue_hexDigit e he, Option.some_inj] at hvalue

theorem hexDigit_ne_comma : ∀ d < 16, hexDigit d ≠ ',' := by decide

/-- One more digit multiplies the value of those before it by 16. -/
theorem hexValue_append_hexDigit {acc n d : Nat} {ds : Text} (h : hexValue acc ds = some n) (hd : d < 16) :
    hexValue acc (ds ++ [hexDigit d]) = some (16 * n + d) := by
  induction ds generalizing acc with
  | nil =>
    cases h
    simp only [List.nil_append, hexValue, hexDigitValue_hexDigit d hd]
  | cons c cs ih =>
    rw [hexValue] at h
    rw [List.cons_append, hexValue]
    cases hc : hexDigitValue c with
    | none => simp [hc] at h
    | some e => exact ih (by simpa only [hc] using h)

/-- The digits of a number that has at most as many as are written. -/
theorem hexValue_hexDigits {fuel v : Nat} (h : v < 16 ^ (fuel + 1)) : hexValue 0 (hexDigits fuel v) = some v := by
  have hone {d : Nat} (hd : d < 16) : hexValue 0 [hexDigit d] = some d := by
    simpa using hexValue_append_hexDigit (acc := 0) (ds := []) rfl hd
  induction fuel generalizing v with
  | zero => rw [hexDigits, Nat.mod_eq_of_lt (by simpa using h), hone (by simpa using h)]
  | succ fuel ih =>
    rw [hexDigits]
    split
    next hlt => exact hone hlt
    next =>
      have hquot : v / 16 < 16 ^ (fuel + 1) := Nat.div_lt_of_lt_mul (by rwa [← Nat.pow_succ'])
      rw [hexValue_append_hexDigit (ih hquot) (Nat.mod_lt _ (by decide)), Nat.div_add_mod]

theorem comma_notMem_hexDigits (fuel v : Nat) : ',' ∉ hexDigits fuel v := by
  have hdigit {d : Nat} (hd : d < 16) : ',' ∉ [hexDigit d] := by
    simpa using (hexDigit_ne_comma d hd).symm
  induction fuel generalizing v with
  | zero => exact hdigit (Nat.mod_lt _ (by decide))
  | succ fuel ih =>
    rw [hexDigits]
    split
    next hlt => exact hdigit hlt
    next => exact List.mem_append.not.2 (not_or.2 ⟨ih _, hdigit (Nat.mod_lt _ (by decide))⟩)

/-! ## One operand (R330) -/

/-- A number has at most the eight digits that are written; the other operands have no condition. -/
def Token.inRange : Token → Bool
  | .num n => decide (n < 16 ^ 8)
  | _ => true

theorem tokensOf_subset_registerTokens (r : Reg) : ∀ k ∈ tokensOf r, k ∈ registerTokens := by
  cases r <;> decide

/-- A token is a number or one of those that `registerTokens` lists. -/
theorem Token.num_or_mem_registerTokens (k : Token) : (∃ n, k = .num n) ∨ k ∈ registerTokens := by
  cases k with
  | num n => exact .inl ⟨n, rfl⟩
  | reg r | cell r => exact .inr (tokensOf_subset_registerTokens r _ (by simp [tokensOf]))
  | adj m r => exact .inr (tokensOf_subset_registerTokens r _ (by cases m <;> simp [tokensOf]))

/-- The texts of the register tokens are distinct, so the first one with a given text is the token itself. -/
theorem parseToken_of_mem_registerTokens : ∀ k ∈ registerTokens, parseToken (tokenText k) = some k := by decide

theorem comma_notMem_of_mem_registerTokens : ∀ k ∈ registerTokens, ',' ∉ tokenText k := by decide

theorem head_ne_zero_of_mem_registerTokens : ∀ k ∈ registerTokens, (tokenText k).head? ≠ some '0' := by decide

/-- No register token is written like a number. -/
theorem find_registerTokens_hexText (n : Nat) :
    registerTokens.find? (fun k => decide (tokenText k = hexText n)) = none := by
  refine List.find?_eq_none.2 fun k hk htext => ?_
  exact head_ne_zero_of_mem_registerTokens k hk (by rw [of_decide_eq_true htext]; rfl)

theorem parseToken_hexText {n : Nat} (h : n < 16 ^ 8) : parseToken (hexText n) = some (.num n) := by
  have hvalue : (hexValue 0 (hexDigits 7 n)).map Token.num = some (.num n) := by
    rw [hexValue_hexDigits h, Option.map_some]
  unfold parseToken
  rw [find_registerTokens_hexText]
  exact hvalue

/-- A token is read back from its text. -/
theorem parseToken_tokenText {k : Token} (h : k.inRange = true) : parseToken (tokenText k) = some k := by
  rcases k.num_or_mem_registerTokens with ⟨n, rfl⟩ | hk
  · exact parseToken_hexText (of_decide_eq_true h)
  · exact parseToken_of_mem_registerTokens k hk

theorem comma_notMem_tokenText (k : Token) : ',' ∉ tokenText k := by
  rcases k.num_or_mem_registerTokens with ⟨n, rfl⟩ | hk
  · simpa [tokenText, hexText] using comma_notMem_hexDigits 7 n
  · exact comma_notMem_of_mem_registerTokens k hk

/-! ## A line: a mnemonic and its operands (R301, R330) -/

/-- Operands, separated by a comma and one space. -/
def operandsText : List Token → Text
  | [] => []
  | [k] => tokenText k
  | k :: ks => tokenText k ++ ',' :: ' ' :: operandsText ks

/-- A line of the grammar. -/
def lineText (m : String) : List Token → Text
  | [] => m.toList
  | ks => m.toList ++ ' ' :: operandsText ks

theorem splitMnemonic_of_notMem {m : Text} (h : ' ' ∉ m) : splitMnemonic m = (m, none) := by
  induction m with
  | nil => rfl
  | cons c cs ih =>
    obtain ⟨hc, hcs⟩ := List.ne_and_not_mem_of_not_mem_cons h
    rw [splitMnemonic, if_neg (Ne.symm hc), ih hcs]

/-- The mnemonic ends at the first space. -/
theorem splitMnemonic_append {m : Text} (h : ' ' ∉ m) (x : Text) : splitMnemonic (m ++ ' ' :: x) = (m, some x) := by
  induction m with
  | nil => rfl
  | cons c cs ih =>
    obtain ⟨hc, hcs⟩ := List.ne_and_not_mem_of_not_mem_cons h
    rw [List.cons_append, splitMnemonic, if_neg (Ne.symm hc), ih hcs]

theorem splitOperands_ne_nil (t : Text) : splitOperands t ≠ [] := by
  cases t with
  | nil => exact List.cons_ne_nil _ _
  | cons c cs =>
    rw [splitOperands]
    split
    · exact List.cons_ne_nil _ _
    · split <;> exact List.cons_ne_nil _ _

/-- Text without a comma stays in the operand in front of which it stands. -/
theorem splitOperands_append {x : Text} (hx : ',' ∉ x) {t y : Text} {ys : List Text} (h : splitOperands t = y :: ys) :
    splitOperands (x ++ t) = (x ++ y) :: ys := by
  induction x with
  | nil => exact h
  | cons c cs ih =>
    obtain ⟨hc, hcs⟩ := List.ne_and_not_mem_of_not_mem_cons hx
    rw [List.cons_append, splitOperands, ih hcs]
    exact if_neg fun hsep => hc hsep.1.symm

/-- A comma and a space end an operand. -/
theorem splitOperands_separator (t : Text) : splitOperands (',' :: ' ' :: t) = [] :: splitOperands t := by
  obtain ⟨y, ys, h⟩ := List.exists_cons_of_ne_nil (splitOperands_ne_nil t)
  have hspace : splitOperands (' ' :: t) = (' ' :: y) :: ys := splitOperands_append (x := [' ']) (by decide) h
  rw [splitOperands, hspace, h]
  rfl

theorem splitOperands_operandsText (k : Token) (ks : List Token) :
    splitOperands (operandsText (k :: ks)) = (k :: ks).map tokenText := by
  induction ks generalizing k with
  | nil => simpa [operandsText] using splitOperands_append (comma_notMem_tokenText k) (t := []) rfl
  | cons k' ks ih =>
    rw [operandsText, splitOperands_append (comma_notMem_tokenText k) (splitOperands_separator _), ih,
      List.append_nil]
    · rfl
    · exact List.cons_ne_nil _ _

theorem parseTokens_map_tokenText {ks : List Token} (h : ks.all Token.inRange = true) :
    parseTokens (ks.map tokenText) = some ks := by
  induction ks with
  | nil => rfl
  | cons k ks ih =>
    obtain ⟨hk, hks⟩ := (Bool.and_eq_true _ _).mp h
    rw [List.map_cons, parseTokens, parseToken_tokenText hk, ih hks]

/-- A line is taken apart into its mnemonic and its operands. -/
theorem parseLine_lineText {m : String} (hm : ' ' ∉ m.toList) {ks : List Token} (hks : ks.all Token.inRange = true) :
    parseLine (lineText m ks) = buildInstr m.toList ks := by
  cases ks with
  | nil => rw [parseLine, lineText, splitMnemonic_of_notMem hm]; rfl
  | cons k ks =>
    rw [parseLine, lineText, splitMnemonic_append hm, lineTokens, splitOperands_operandsText,
      parseTokens_map_tokenText hks]
    exact List.cons_ne_nil _ _

/-! ## The line of each instruction (R302 to R326) -/

/-- The mnemonics of the grammar (R330). -/
def mnemonics : List String :=
  ["nop", "illegal", "mov.w", "mov.b", "movi", "add.w", "sub.w", "or.w", "and.w", "xor.w", "sra.w", "jmp", "jz", "jc",
    "call", "dpush", "dpop", "rpush", "rpop", "ifkt"]

theorem space_notMem_of_mem_mnemonics : ∀ m ∈ mnemonics, ' ' ∉ m.toList := by decide

/-- The text of the instruction is the line of `m` and `ks`, and that line stands for the instruction. -/
structure IsLine (i : Instr) (m : String) (ks : List Token) : Prop where
  mnemonic : m ∈ mnemonics
  text : instrText i = lineText m ks
  inRange : i.wf = true → ks.all Token.inRange = true
  build : buildInstr m.toList ks = some i

/-- The token of an operand of the register move. -/
def Token.ofOperand : Operand → Token
  | .direct r => .reg r
  | .indirect r => .cell r

theorem tokenText_ofOperand (o : Operand) : tokenText (.ofOperand o) = operandText o := by cases o <;> rfl

theorem inRange_ofOperand (o : Operand) : (Token.ofOperand o).inRange = true := by cases o <;> rfl

theorem buildMov_ofOperand (move : Operand → Operand → Instr) (store : Adjust → Reg → Reg → Instr)
    (load : Reg → Adjust → Reg → Instr) (t s : Operand) :
    buildMov move store load [.ofOperand t, .ofOperand s] = some (move t s) := by
  cases t <;> cases s <;> rfl

/-- An immediate has at most eight hexadecimal digits. -/
theorem toNat_lt_of_width_le {w : Nat} (hw : w ≤ 32) (v : BitVec w) : v.toNat < 16 ^ 8 :=
  Nat.lt_of_lt_of_le v.isLt (Nat.pow_le_pow_right Nat.two_pos hw)

theorem all_inRange_num {n : Nat} (h : n < 16 ^ 8) : [Token.num n].all Token.inRange = true :=
  (Bool.and_true _).trans (decide_eq_true h)

/-! The shapes of line that several instructions share. -/

section
variable {i : Instr} {m : String}

theorem exists_isLine_of_register {r : Reg} (htext : instrText i = line1 m (regText r))
    (hbuild : buildInstr m.toList [.reg r] = some i) (hm : m ∈ mnemonics) : ∃ m ks, IsLine i m ks :=
  ⟨m, [.reg r], hm, htext, fun _ => rfl, hbuild⟩

theorem exists_isLine_of_cell {r : Reg} (htext : instrText i = line1 m (bracketed r))
    (hbuild : buildInstr m.toList [.cell r] = some i) (hm : m ∈ mnemonics) : ∃ m ks, IsLine i m ks :=
  ⟨m, [.cell r], hm, htext, fun _ => rfl, hbuild⟩

theorem exists_isLine_of_three_registers {t a b : Reg}
    (htext : instrText i = line3 m (regText t) (regText a) (regText b))
    (hbuild : buildInstr m.toList [.reg t, .reg a, .reg b] = some i) (hm : m ∈ mnemonics) : ∃ m ks, IsLine i m ks :=
  ⟨m, [.reg t, .reg a, .reg b], hm, htext, fun _ => rfl, hbuild⟩

theorem exists_isLine_of_move {t s : Operand} (htext : instrText i = line2 m (operandText t) (operandText s))
    (hbuild : buildInstr m.toList [.ofOperand t, .ofOperand s] = some i) (hm : m ∈ mnemonics) :
    ∃ m ks, IsLine i m ks := by
  refine ⟨m, [.ofOperand t, .ofOperand s], hm, ?_, fun _ => ?_, hbuild⟩
  · rw [htext, ← tokenText_ofOperand, ← tokenText_ofOperand]; rfl
  · simp [inRange_ofOperand]

theorem exists_isLine_of_number {w : Nat} {v : BitVec w} {f : BitVec w → Instr} (hw : w ≤ 32)
    (htext : instrText (f v) = line1 m (hexText v.toNat))
    (hbuild : buildInstr m.toList [.num v.toNat] = some (f (BitVec.ofNat w v.toNat))) (hm : m ∈ mnemonics) :
    ∃ m ks, IsLine (f v) m ks :=
  ⟨m, [.num v.toNat], hm, htext, fun _ => all_inRange_num (toNat_lt_of_width_le hw v),
    by rw [hbuild, BitVec.ofNat_toNat, BitVec.setWidth_eq]⟩

theorem exists_isLine_of_literal {r : Reg} {v : Word} {f : Word → Instr}
    (htext : instrText (f v) = line2 m (regText r) (hexText v.toNat))
    (hbuild : buildInstr m.toList [.reg r, .num v.toNat] = some (f (BitVec.ofNat 32 v.toNat))) (hm : m ∈ mnemonics) :
    ∃ m ks, IsLine (f v) m ks :=
  ⟨m, [.reg r, .num v.toNat], hm, htext, fun _ => all_inRange_num (toNat_lt_of_width_le (Nat.le_refl 32) v),
    by rw [hbuild, BitVec.ofNat_toNat, BitVec.setWidth_eq]⟩

end

/-- Every disassembly text is a line of the grammar. -/
theorem exists_isLine (i : Instr) : ∃ m ks, IsLine i m ks := by
  cases i with
  | nop => exact ⟨"nop", [], by decide, rfl, fun _ => rfl, rfl⟩
  | illegal => exact ⟨"illegal", [], by decide, rfl, fun _ => rfl, rfl⟩
  | movrW t s | movrB t s => exact exists_isLine_of_move rfl (buildMov_ofOperand _ _ _ t s) (by decide)
  | movsStW m p v => exact ⟨"mov.w", [.adj m p, .reg v], by decide, rfl, fun _ => rfl, rfl⟩
  | movsStB m p v => exact ⟨"mov.b", [.adj m p, .reg v], by decide, rfl, fun _ => rfl, rfl⟩
  | movsLdW v m p => exact ⟨"mov.w", [.reg v, .adj m p], by decide, rfl, fun _ => rfl, rfl⟩
  | movsLdB v m p => exact ⟨"mov.b", [.reg v, .adj m p], by decide, rfl, fun _ => rfl, rfl⟩
  | moviAcc1 imm => exact exists_isLine_of_literal (f := .moviAcc1) rfl rfl (by decide)
  | moviAcc2 imm => exact exists_isLine_of_literal (f := .moviAcc2) rfl rfl (by decide)
  | addW t a b | subW t a b | orW t a b | andW t a b | xorW t a b =>
    exact exists_isLine_of_three_registers rfl rfl (by decide)
  | sraW r n =>
    have hrange (hwf : (Instr.sraW r n).wf = true) : n < 16 ^ 8 :=
      Nat.lt_of_le_of_lt (of_decide_eq_true hwf) (by decide)
    exact ⟨"sra.w", [.reg r, .num n], by decide, rfl, fun hwf => all_inRange_num (hrange hwf), rfl⟩
  | jmpiIp | jmpiWp | jmpiRsp | jmpiDsp | jmpiAcc1 | jmpiAcc2 | jmpiRet | jmpiPc =>
    exact exists_isLine_of_cell rfl rfl (by decide)
  | jmp imm => exact exists_isLine_of_number (f := .jmp) (Nat.le_refl 32) rfl rfl (by decide)
  | jz imm => exact exists_isLine_of_number (f := .jz) (Nat.le_refl 32) rfl rfl (by decide)
  | jc imm => exact exists_isLine_of_number (f := .jc) (Nat.le_refl 32) rfl rfl (by decide)
  | call imm => exact exists_isLine_of_number (f := .call) (Nat.le_refl 32) rfl rfl (by decide)
  | ifkt code => exact exists_isLine_of_number (f := .ifkt) (by decide) rfl rfl (by decide)
  | jmpdIp | jmpdWp | jmpdRsp | jmpdDsp | jmpdAcc1 | jmpdAcc2 | jmpdRet | jmpdPc
  | dpushIp | dpushWp | dpushRsp | dpushDsp | dpushAcc1 | dpushAcc2 | dpushRet | dpushPc
  | dpopIp | dpopWp | dpopRsp | dpopDsp | dpopAcc1 | dpopAcc2 | dpopRet | dpopPc
  | rpushIp | rpushWp | rpushRsp | rpushDsp | rpushAcc1 | rpushAcc2 | rpushRet | rpushPc
  | rpopIp | rpopWp | rpopRsp | rpopDsp | rpopAcc1 | rpopAcc2 | rpopRet | rpopPc =>
    exact exists_isLine_of_register rfl rfl (by decide)

/-- The text of a well-formed instruction is read back as that instruction. -/
theorem parseLine_instrText {i : Instr} (hwf : i.wf = true) : parseLine (instrText i) = some i := by
  obtain ⟨m, ks, h⟩ := exists_isLine i
  rw [h.text, parseLine_lineText (space_notMem_of_mem_mnemonics m h.mnemonic) (h.inRange hwf), h.build]

theorem instrText_inj {i j : Instr} (hi : i.wf = true) (hj : j.wf = true) (h : instrText i = instrText j) : i = j := by
  have hparse := parseLine_instrText hi
  rw [h, parseLine_instrText hj] at hparse
  exact (Option.some_inj.1 hparse).symm

/-- Settles O4: the assembler checks that it accepts only texts, and each text is read back. -/
theorem assemblyIsDisassemblyText : Obligations.AssemblyIsDisassemblyText := by
  intro t i
  constructor
  · intro h
    unfold assemble at h
    split at h
    next j _ =>
      split at h
      next hj => cases h; exact hj
      next => cases h
    next => cases h
  · rintro ⟨hwf, rfl⟩
    rw [assemble, parseLine_instrText hwf]
    exact if_pos ⟨hwf, rfl⟩

/-! ## What the text determines (R327) -/

/-- The bytes of an instruction decode to a well-formed one, and its encoding is those bytes without the ignored bits. -/
theorem encode_of_decode {bs : List Byte} {i : Instr} (h : decode bs = .instr i []) :
    i.wf = true ∧ encode i = clearIgnored bs := by
  obtain ⟨hwf, used, hbs, henc⟩ := encodeAndDecodeAreInverse.2 bs i [] h
  rw [List.append_nil] at hbs
  exact ⟨hwf, by rw [henc, hbs]⟩

theorem encode_inj {i j : Instr} (hi : i.wf = true) (hj : j.wf = true) (h : encode i = encode j) : i = j := by
  have hdec := encodeAndDecodeAreInverse.1 i [] hi
  rw [h, encodeAndDecodeAreInverse.1 j [] hj] at hdec
  cases hdec
  rfl

theorem instrText_eq_iff_clearIgnored_eq {bs bs' : List Byte} {i j : Instr} (hi : decode bs = .instr i [])
    (hj : decode bs' = .instr j []) : instrText i = instrText j ↔ clearIgnored bs = clearIgnored bs' := by
  obtain ⟨hwfi, henci⟩ := encode_of_decode hi
  obtain ⟨hwfj, hencj⟩ := encode_of_decode hj
  rw [← henci, ← hencj]
  exact ⟨fun h => congrArg encode (instrText_inj hwfi hwfj h), fun h => congrArg instrText (encode_inj hwfi hwfj h)⟩

/-- `Decode(a)` reads the opcode and at most four operand bytes. -/
theorem decodeAt_congr {m m' : Memory} {a : Word} (h : ∀ k, k < 5 → m.read (a.toNat + k) = m'.read (a.toNat + k)) :
    decodeAt m a = decodeAt m' a := by
  rcases Nat.lt_or_ge a.toNat 32768 with hop | hout
  · have hread : m.read a.toNat = m'.read a.toNat := h 0 (by decide)
    cases hrow : opcodeMap (m.read a.toNat) with
    | none => rw [decodeAt_of_unmapped hop hrow, decodeAt_of_unmapped hop (hread ▸ hrow), hread]
    | some row =>
      rcases Nat.lt_or_ge 32768 (a.toNat + (1 + row.format.operandLength)) with hexceeds | hfits
      · rw [decodeAt_of_exceeds hop hrow hexceeds, decodeAt_of_exceeds hop (hread ▸ hrow) hexceeds]
      · have hops : m.readBytes (a.toNat + 1) row.format.operandLength =
            m'.readBytes (a.toNat + 1) row.format.operandLength := by
          refine Memory.readBytes_congr m m' _ _ fun x hlo hhi => ?_
          have hfour := operandLength_le_four row.format
          obtain ⟨k, rfl⟩ := Nat.exists_eq_add_of_le (show a.toNat ≤ x by omega)
          exact h k (by omega)
        rw [decodeAt_of_fits hrow hfits, decodeAt_of_fits (hread ▸ hrow) hfits, hops]
  · rw [decodeAt_of_opcode_exceeds m hout, decodeAt_of_opcode_exceeds m' hout]

theorem head_ne_angle_of_mem_mnemonics : ∀ m ∈ mnemonics, m.toList ≠ [] ∧ m.toList.head? ≠ some '<' := by decide

theorem head_lineText {m : String} (hm : m.toList ≠ []) (ks : List Token) :
    (lineText m ks).head? = m.toList.head? := by
  cases ks with
  | nil => rfl
  | cons k ks => exact List.head?_append_of_ne_nil _ hm

/-- No mnemonic starts with the angle bracket of an unmapped byte's text (R303). -/
theorem unknownText_ne_instrText (op : Byte) (i : Instr) : unknownText op ≠ instrText i := by
  intro h
  obtain ⟨m, ks, hline⟩ := exists_isLine i
  obtain ⟨hne, hhead⟩ := head_ne_angle_of_mem_mnemonics m hline.mnemonic
  refine hhead ?_
  rw [← head_lineText hne ks, ← hline.text, ← h]
  rfl

/-- The two digits are those of the byte. -/
theorem unknownText_inj {op op' : Byte} (h : unknownText op = unknownText op') : op = op' := by
  have hop := op.isLt
  have hop' := op'.isLt
  have hdigits := List.append_cancel_left h
  simp only [List.cons.injEq, and_true] at hdigits
  obtain ⟨hhigh, hlow⟩ := hdigits
  have hquot := hexDigit_inj (by omega) (by omega) hhigh
  have hrem := hexDigit_inj (by omega) (by omega) hlow
  exact BitVec.eq_of_toNat_eq (by omega)

/-- Settles O5: an instruction's text and its canonical bytes both determine it, and `Decode(a)` reads no other bytes. -/
theorem textDeterminesCanonicalBytes : Obligations.TextDeterminesCanonicalBytes :=
  ⟨fun _ _ _ h => congrArg decodedText (decodeAt_congr h), fun _ _ _ _ => instrText_eq_iff_clearIgnored_eq,
    unknownText_ne_instrText, fun _ _ => unknownText_inj⟩

end Sys2Proof.Machine
end

section
/-! # The exceptions (60_exceptions.md)

`Terminates` lists the causes of `Finished`, `Error` and `IllegalInstruction` among the instructions. An instruction ends
by one of them, with `Success`, or with the fault of an access (`exec_ends`), and a step ends as its instruction does, at an
unmapped opcode, or with the fault of its fetch. -/

namespace Sys2Proof.Machine

open Sys2Proof.Claims

/-! ## The recorded outcome is not read (R34, R361) -/

section
variable (s : State) (o : StepOutcome)

@[simp] theorem State.setOutcome_setOutcome (o' : StepOutcome) : (s.setOutcome o).setOutcome o' = s.setOutcome o' := rfl

@[simp] theorem State.set_of_setOutcome (r : Reg) (v : Word) :
    (s.setOutcome o).set r v = (s.set r v).setOutcome o := by cases r <;> rfl

@[simp] theorem State.setCarry_of_setOutcome (b : Bool) :
    (s.setOutcome o).setCarry b = (s.setCarry b).setOutcome o := rfl

@[simp] theorem State.emitByte_of_setOutcome (b : Byte) :
    (s.setOutcome o).emitByte b = (s.emitByte b).setOutcome o := rfl

@[simp] theorem State.emitDiag_of_setOutcome (d : DiagRecord) :
    (s.setOutcome o).emitDiag d = (s.emitDiag d).setOutcome o := rfl

@[simp] theorem State.valueAt_of_setOutcome (g : Region) (addr : Word) (n : Nat) :
    (s.setOutcome o).valueAt g addr n = s.valueAt g addr n := by rw [State.valueAt, State.setOutcome_region]; rfl

@[simp] theorem State.storeAt_of_setOutcome (g : Region) (addr : Word) (n : Nat) (v : Word) :
    (s.setOutcome o).storeAt g addr n v = (s.storeAt g addr n v).setOutcome o := by cases g <;> rfl

theorem State.consoleAnswer_of_setOutcome :
    (s.setOutcome o).consoleAnswer = (s.consoleAnswer.1, s.consoleAnswer.2.setOutcome o) := by
  rcases s.consoleAnswer_cases with ⟨a, rest, h, e⟩ | ⟨h, e⟩ <;> rw [e]
  · exact State.consoleAnswer_of_cons (s := s.setOutcome o) h
  · exact State.consoleAnswer_of_nil (s := s.setOutcome o) h

@[simp] theorem adjustPre_of_setOutcome (w : Width) (m : Adjust) (p : Reg) :
    adjustPre w m p (s.setOutcome o) = (adjustPre w m p s).setOutcome o := by
  cases h : adjustsBefore m <;> simp [adjustPre, adjustPointer, h]

@[simp] theorem adjustPost_of_setOutcome (w : Width) (m : Adjust) (p : Reg) :
    adjustPost w m p (s.setOutcome o) = (adjustPost w m p s).setOutcome o := by
  cases h : adjustsBefore m <;> simp [adjustPost, adjustPointer, h]

/-- A read does not read the outcome, and its fault writes over it. -/
@[simp] theorem memReadIn_of_setOutcome (g : Region) (addr : Word) (n : Nat) (rest : Word → Result) :
    memReadIn g addr n (s.setOutcome o) rest = memReadIn g addr n s rest := by
  simp [memReadIn]

/-- A write hands the outcome on to the rest of the rule, and its fault writes over it. -/
@[simp] theorem memWriteIn_of_setOutcome (g : Region) (addr : Word) (n : Nat) (v : Word) (rest : State → Result) :
    memWriteIn g addr n v (s.setOutcome o) rest = memWriteIn g addr n v s fun t => rest (t.setOutcome o) := by
  simp [memWriteIn]

theorem readRange_of_setOutcome (count : Nat) (addr : Word) (rest : List Byte → Result) :
    readRange count addr (s.setOutcome o) rest = readRange count addr s rest := by
  induction count generalizing addr rest with
  | zero => rfl
  | succ n ih => simp only [readRange, memReadIn_of_setOutcome, ih]

@[simp] theorem readOperand_of_setOutcome (w : Width) (src : Operand) (rest : Word → Result) :
    readOperand w src (s.setOutcome o) rest = readOperand w src s rest := by
  cases src <;> simp [readOperand]

@[simp] theorem writeOperand_of_setOutcome (w : Width) (t : Operand) (v : Word) :
    writeOperand w t v (s.setOutcome o) = writeOperand w t v s := by
  cases t with
  | direct r => simp [writeOperand]
  | indirect r =>
    rw [writeOperand, State.setOutcome_get, memWriteIn_of_setOutcome]
    rfl

theorem execIfkt_of_setOutcome (code : Half) : execIfkt code (s.setOutcome o) = execIfkt code s := by
  unfold execIfkt
  split
  · unfold ifktInput
    rw [State.consoleAnswer_of_setOutcome]
    rcases s.consoleAnswer with ⟨_ | _, s1⟩ <;> simp
  · simp [ifktOutput]
  · rfl
  · simp [ifktDumpWord]
  · exact readRange_of_setOutcome s o _ _ _
  · rfl

/-- Every operation ends by recording an outcome of its own, and none reads the one recorded before. -/
theorem Operation.run_of_setOutcome (op : Operation) : op.run (s.setOutcome o) = op.run s := by
  cases op with
  | quiet | call => rfl
  | move w t src => simp [Operation.run, moveRegister]
  | adjustingStore w m p v => simp [Operation.run, Machine.adjustingStore]
  | adjustingLoad w v m p => simp [Operation.run, Machine.adjustingLoad]
  | literal r imm => simp [Operation.run]
  | arithmetic f c t a b => simp [Operation.run, Machine.arithmetic]
  | bitwise f t a b => simp [Operation.run, Machine.bitwise]
  | shift r n => simp [Operation.run, execSraW]
  | jumpThrough r => simp [Operation.run, Machine.jumpThrough]
  | jumpTo r => simp [Operation.run, Machine.jumpTo]
  | jz imm => exact (succeed_ite_set_pc _ imm _).trans (succeed_ite_set_pc (s.acc1 = 0) imm s).symm
  | jc imm => exact (succeed_ite_set_pc _ imm _).trans (succeed_ite_set_pc (s.carry = true) imm s).symm
  | push g sp r => simp [Operation.run, Machine.push]
  | pop g sp r => simp [Operation.run, Machine.pop]
  | ifkt code => exact execIfkt_of_setOutcome s o code

end

/-- Settles O10: `Decode(pc)` does not read the outcome, and neither does what a step does with its result. -/
theorem stepIgnoresLastOutcome : Obligations.StepIgnoresLastOutcome := by
  intro s o
  show step (s.setOutcome o) = step s
  rcases step_cases s with ⟨i, len, hdec, e⟩ | ⟨op, hdec, e⟩ | ⟨addr, cap, hdec, e⟩ <;> rw [e]
  · rw [step_of_decodeAt (s := s.setOutcome o) hdec, State.set_of_setOutcome, exec_eq_run, exec_eq_run]
    exact (operation i).run_of_setOutcome _ o
  · exact step_of_decodeAt_unknown (s := s.setOutcome o) hdec
  · exact step_of_decodeAt_memFault (s := s.setOutcome o) hdec

/-! ## How an instruction ends (R350 to R356) -/

/-- Instruction `i` in state `s` ends with the outcome, neither `Success` nor a fault, and leaves the state but for the
outcome: R352, the three causes of R353, and those of R355 that are instructions. -/
inductive Terminates : Instr → State → StepOutcome → State → Prop where
  /-- R352 -/
  | terminate (s : State) : Terminates (.ifkt 3) s .finished s
  /-- R353, a pop of the empty data stack -/
  | emptyData {i : Instr} {s : State} (hi : i ∈ dpopRows.map Prod.fst) (hsp : s.dsp = 0) : Terminates i s .error s
  /-- R353, a pop of the empty return stack -/
  | emptyReturn {i : Instr} {s : State} (hi : i ∈ rpopRows.map Prod.fst) (hsp : s.rsp = 0) : Terminates i s .error s
  /-- R353, interrupted console input, with the request made -/
  | interrupted {s : State} (h : s.consoleAnswer.1 = .interrupted) : Terminates (.ifkt 1) s .error s.consoleAnswer.2
  /-- R355, the instruction `illegal` -/
  | illegal (s : State) : Terminates .illegal s .illegalInstruction s
  /-- R355, an `ifkt` with an unrecognised code -/
  | unrecognised {code : Half} (s : State) (h : code.toNat = 0 ∨ 5 < code.toNat) :
      Terminates (.ifkt code) s .illegalInstruction s

/-- The result is one of the three ends of instruction `i` in state `s`: `Success`, the fault of an access with the pointer
changed where the rule changes it first, or another outcome. -/
inductive Ends (i : Instr) (s : State) : Result → Prop where
  | completes (t : State) : Ends i s (succeed t)
  | faults (addr : Word) (cap : Nat) : Ends i s (raiseMemFault addr cap (whenAccessFaults i s))
  | terminates {o : StepOutcome} {t : State} (h : Terminates i s o t) : Ends i s (endStep o t)

section
variable {i : Instr} {s t : State}

theorem ends_raiseMemFault (addr : Word) (cap : Nat) (h : whenAccessFaults i s = t) :
    Ends i s (raiseMemFault addr cap t) := h ▸ .faults addr cap

theorem ends_memReadIn (g : Region) (addr : Word) (n : Nat) {rest : Word → Result} (h : whenAccessFaults i s = t)
    (hrest : ∀ v, Ends i s (rest v)) : Ends i s (memReadIn g addr n t rest) := by
  rcases memReadIn_cases g addr n t rest with ⟨_, e⟩ | ⟨_, e⟩ <;> rw [e]
  · exact hrest _
  · exact ends_raiseMemFault _ _ h

theorem ends_memWriteIn (g : Region) (addr : Word) (n : Nat) (v : Word) {rest : State → Result}
    (h : whenAccessFaults i s = t) (hrest : ∀ u, Ends i s (rest u)) : Ends i s (memWriteIn g addr n v t rest) := by
  rcases memWriteIn_cases g addr n v t rest with ⟨_, e⟩ | ⟨_, e⟩ <;> rw [e]
  · exact hrest _
  · exact ends_raiseMemFault _ _ h

theorem ends_moveRegister (w : Width) (t src : Operand) (h : whenAccessFaults i s = s) :
    Ends i s (moveRegister w t src s) := by
  rcases moveRegister_cases w t src s with ⟨v, e⟩ | ⟨r, _, _, e⟩ <;> rw [e]
  · cases t with
    | direct r => exact .completes _
    | indirect r => exact ends_memWriteIn _ _ _ _ h .completes
  · exact ends_raiseMemFault _ _ h

theorem ends_adjustingStore (w : Width) (m : Adjust) (p v : Reg) (h : whenAccessFaults i s = adjustPre w m p s) :
    Ends i s (adjustingStore w m p v s) := ends_memWriteIn _ _ _ _ h fun _ => .completes _

theorem ends_adjustingLoad (w : Width) (v : Reg) (m : Adjust) (p : Reg) (h : whenAccessFaults i s = adjustPre w m p s) :
    Ends i s (adjustingLoad w v m p s) := ends_memReadIn _ _ _ h fun _ => .completes _

theorem ends_push (g : Region) (sp r : Reg) (h : whenAccessFaults i s = s) : Ends i s (push g sp r s) :=
  ends_memWriteIn _ _ _ _ h fun _ => .completes _

theorem ends_pop (g : Region) (sp r : Reg) (hempty : s.get sp = 0 → Terminates i s .error s)
    (h : whenAccessFaults i s = s.set sp (s.get sp - 4)) : Ends i s (pop g sp r s) := by
  rcases pop_cases g sp r s with ⟨hsp, e⟩ | ⟨_, _, e⟩ | ⟨_, _, e⟩ <;> rw [e]
  · exact .terminates (hempty hsp)
  · exact .completes _
  · exact ends_raiseMemFault _ _ h

theorem changedBeforeAccess_of_mem_dpopRows :
    ∀ i ∈ dpopRows.map Prod.fst, changedBeforeAccess i = some (.dsp, -4) := by decide

theorem changedBeforeAccess_of_mem_rpopRows :
    ∀ i ∈ rpopRows.map Prod.fst, changedBeforeAccess i = some (.rsp, -4) := by decide

/-- Taking a word off the pointer is the change the claims write as an addition. -/
theorem whenAccessFaults_of_pop {sp : Reg} (h : changedBeforeAccess i = some (sp, -4)) :
    whenAccessFaults i s = s.set sp (s.get sp - 4) := by
  rw [whenAccessFaults, h, BitVec.sub_eq_add_neg]

theorem ends_of_mem_dpopRows (hi : i ∈ dpopRows.map Prod.fst) : Ends i s (exec i s) := by
  obtain ⟨⟨i, r⟩, hrow, rfl⟩ := List.mem_map.1 hi
  rw [exec_of_mem_dpopRows hrow]
  exact ends_pop .dstack .dsp r (.emptyData hi) (whenAccessFaults_of_pop (changedBeforeAccess_of_mem_dpopRows _ hi))

theorem ends_of_mem_rpopRows (hi : i ∈ rpopRows.map Prod.fst) : Ends i s (exec i s) := by
  obtain ⟨⟨i, r⟩, hrow, rfl⟩ := List.mem_map.1 hi
  rw [exec_of_mem_rpopRows hrow]
  exact ends_pop .rstack .rsp r (.emptyReturn hi) (whenAccessFaults_of_pop (changedBeforeAccess_of_mem_rpopRows _ hi))

end

/-- The codes 1 and 3 and the unrecognised ones may end with another outcome, the two dumps with a fault. -/
theorem ends_execIfkt (code : Half) (s : State) : Ends (.ifkt code) s (execIfkt code s) := by
  unfold execIfkt
  split
  case h_1 hcode =>
    obtain rfl : code = 1 := BitVec.eq_of_toNat_eq hcode
    unfold ifktInput
    split
    next => exact .completes _
    next h =>
      have hint := Terminates.interrupted (congrArg Prod.fst h)
      rw [h] at hint
      exact .terminates hint
  case h_2 => exact .completes _
  case h_3 hcode =>
    obtain rfl : code = 3 := BitVec.eq_of_toNat_eq hcode
    exact .terminates (.terminate s)
  case h_4 => exact ends_memReadIn _ _ _ rfl fun _ => .completes _
  case h_5 =>
    rw [ifktDumpRange_eq]
    rcases readRange_cases _ _ s _ with ⟨bs, _, e⟩ | ⟨a, _, e⟩ <;> rw [e]
    · exact .completes _
    · exact ends_raiseMemFault _ _ rfl
  case h_6 => exact .terminates (.unrecognised s (by grind))

/-- Every instruction has one of its three ends, and none is refused. -/
theorem exec_ends (i : Instr) (s : State) : Ends i s (exec i s) := by
  cases i with
  | movrW t src | movrB t src => exact ends_moveRegister _ t src rfl
  | movsStW m p v | movsStB m p v => exact ends_adjustingStore _ m p v (by cases m <;> rfl)
  | movsLdW v m p | movsLdB v m p => exact ends_adjustingLoad _ v m p (by cases m <;> rfl)
  | nop | moviAcc1 | moviAcc2 | addW | subW | orW | andW | xorW | sraW | jmp | jz | jc | call
  | jmpdIp | jmpdWp | jmpdRsp | jmpdDsp | jmpdAcc1 | jmpdAcc2 | jmpdRet | jmpdPc => exact .completes _
  | jmpiIp | jmpiWp | jmpiRsp | jmpiDsp | jmpiAcc1 | jmpiAcc2 | jmpiRet | jmpiPc =>
    exact ends_memReadIn _ _ _ rfl fun _ => .completes _
  | dpushIp | dpushWp | dpushRsp | dpushDsp | dpushAcc1 | dpushAcc2 | dpushRet | dpushPc
  | rpushIp | rpushWp | rpushRsp | rpushDsp | rpushAcc1 | rpushAcc2 | rpushRet | rpushPc =>
    exact ends_push _ _ _ rfl
  | dpopIp | dpopWp | dpopRsp | dpopDsp | dpopAcc1 | dpopAcc2 | dpopRet | dpopPc =>
    exact ends_of_mem_dpopRows (by decide)
  | rpopIp | rpopWp | rpopRsp | rpopDsp | rpopAcc1 | rpopAcc2 | rpopRet | rpopPc =>
    exact ends_of_mem_rpopRows (by decide)
  | ifkt code => exact ends_execIfkt code s
  | illegal => exact .terminates (.illegal s)

section
variable {i : Instr} {s t : State} {o : StepOutcome}

/-- An instruction with a cause of another outcome has that outcome. -/
theorem Terminates.exec_eq (h : Terminates i s o t) : exec i s = endStep o t := by
  cases h with
  | terminate | illegal => rfl
  | emptyData hi hsp =>
    obtain ⟨⟨i, r⟩, hrow, rfl⟩ := List.mem_map.1 hi
    rw [exec_of_mem_dpopRows hrow]
    exact pop_of_empty (sp := .dsp) hsp
  | emptyReturn hi hsp =>
    obtain ⟨⟨i, r⟩, hrow, rfl⟩ := List.mem_map.1 hi
    rw [exec_of_mem_rpopRows hrow]
    exact pop_of_empty (sp := .rsp) hsp
  | interrupted hint => exact ifktInput_of_interrupted (Prod.ext hint rfl)
  | unrecognised _ hcode => exact execIfkt_of_unrecognised hcode s

theorem Terminates.outcome_mem (h : Terminates i s o t) :
    o ∈ [StepOutcome.finished, .error, .illegalInstruction] := by
  cases h <;> decide

/-- A next state without `Success` comes from a cause of its outcome. -/
theorem terminates_of_exec (h : exec i s = .next t) (ho : t.outcome ≠ .success) :
    ∃ u, Terminates i s t.outcome u ∧ t = u.setOutcome t.outcome := by
  have hends := exec_ends i s
  rw [h] at hends
  cases hends with
  | completes => exact absurd rfl ho
  | terminates hterm => exact ⟨_, hterm, rfl⟩

/-- A fault leaves the pointer changed where the rule changes it before the access, and nothing else. -/
theorem left_of_exec_fault {addr : Word} {cap : Nat} (h : exec i s = .fault (.memFault addr cap t)) :
    t = (whenAccessFaults i s).setOutcome (.memFault addr cap) := by
  have hends := exec_ends i s
  rw [h] at hends
  cases hends
  rfl

end

/-! ## How a step ends (R350) -/

/-- Of the outcomes of a next state, one other than `Success` is caused by the instruction that `Decode(pc)` finds or by an
unmapped opcode. -/
theorem step_next_iff {s : State} {o : StepOutcome} (ho : o ≠ .success) :
    (∃ t, step s = .next t ∧ t.outcome = o) ↔
      (∃ i len u, decodeAt s.main s.pc = .instr i len ∧ Terminates i (s.set .pc (s.pc + BitVec.ofNat 32 len)) o u) ∨
      (o = .illegalInstruction ∧ ∃ op, decodeAt s.main s.pc = .unknown op) := by
  constructor
  · rintro ⟨t, hstep, rfl⟩
    rcases step_cases s with ⟨i, len, hdec, e⟩ | ⟨op, hdec, e⟩ | ⟨addr, cap, hdec, e⟩ <;> rw [e] at hstep
    · obtain ⟨u, hterm, _⟩ := terminates_of_exec hstep ho
      exact .inl ⟨i, len, u, hdec, hterm⟩
    · cases hstep
      exact .inr ⟨rfl, op, hdec⟩
    · cases hstep
  · rintro (⟨i, len, u, hdec, hterm⟩ | ⟨rfl, op, hdec⟩)
    · exact ⟨_, (step_of_decodeAt hdec).trans hterm.exec_eq, rfl⟩
    · exact ⟨_, step_of_decodeAt_unknown hdec, rfl⟩

/-- Settles O11: the three ends of an instruction, the unmapped opcode and the fault of a fetch. -/
theorem stepEndsInOneOfFiveWays : Obligations.StepEndsInOneOfFiveWays := by
  intro s
  rcases step_cases s with ⟨i, len, _, e⟩ | ⟨op, _, e⟩ | ⟨addr, cap, _, e⟩ <;> rw [e]
  · have hends := exec_ends i (s.set .pc (s.pc + BitVec.ofNat 32 len))
    generalize exec i _ = res at hends ⊢
    cases hends with
    | completes t => exact .inl ⟨_, rfl, by simp⟩
    | faults addr cap => exact .inr ⟨addr, cap, _, rfl, rfl⟩
    | terminates hterm => exact .inl ⟨_, rfl, List.mem_cons_of_mem _ hterm.outcome_mem⟩
  · exact .inl ⟨_, rfl, by simp⟩
  · exact .inr ⟨addr, cap, _, rfl, rfl⟩

/-- The length that `Decode(a)` returns follows from the instruction. -/
theorem decodeAt_eq_instr_iff_exists {m : Memory} {a : Word} {i : Instr} {len : Nat} (hlen : (encode i).length = len) :
    decodeAt m a = .instr i len ↔ ∃ n, decodeAt m a = .instr i n := by
  refine ⟨fun h => ⟨len, h⟩, fun ⟨n, h⟩ => ?_⟩
  rwa [(length_of_decodeAt h).1, hlen] at h

/-- Settles O12: the code 3 is the one cause of `Finished`. -/
theorem finishedOnlyByTerminate : Obligations.FinishedOnlyByTerminate := by
  intro s
  rw [step_next_iff (by decide), decodeAt_eq_instr_iff_exists (i := .ifkt 3) (len := 3) rfl]
  constructor
  · rintro (⟨i, len, u, hdec, ⟨⟩⟩ | ⟨⟨⟩, _⟩)
    exact ⟨len, hdec⟩
  · rintro ⟨len, hdec⟩
    exact .inl ⟨_, len, _, hdec, .terminate _⟩

/-- The answer to a request does not depend on a register. -/
theorem State.consoleAnswer_fst_set (s : State) (r : Reg) (v : Word) :
    (s.set r v).consoleAnswer.1 = s.consoleAnswer.1 := by
  simp only [State.consoleAnswer, State.set_consoleIn, State.set_consoleAsked]
  split <;> rfl

/-- The three causes of `Error`, in the words of R353. -/
theorem exists_terminates_error_iff (i : Instr) (s : State) :
    (∃ u, Terminates i s .error u) ↔
      (i ∈ dpopRows.map Prod.fst ∧ s.dsp = 0) ∨ (i ∈ rpopRows.map Prod.fst ∧ s.rsp = 0) ∨
        (i = .ifkt 1 ∧ s.consoleAnswer.1 = .interrupted) := by
  constructor
  · rintro ⟨u, hterm⟩
    cases hterm with
    | emptyData hi hsp => exact .inl ⟨hi, hsp⟩
    | emptyReturn hi hsp => exact .inr (.inl ⟨hi, hsp⟩)
    | interrupted h => exact .inr (.inr ⟨rfl, h⟩)
  · rintro (⟨hi, hsp⟩ | ⟨hi, hsp⟩ | ⟨rfl, h⟩)
    · exact ⟨_, .emptyData hi hsp⟩
    · exact ⟨_, .emptyReturn hi hsp⟩
    · exact ⟨_, .interrupted h⟩

/-- Settles O13: the fetch changes neither pointer and takes no console answer. -/
theorem errorHasThreeCauses : Obligations.ErrorHasThreeCauses := by
  intro s
  have hcauses (i : Instr) (len : Nat) :=
    exists_terminates_error_iff i (s.set .pc (s.pc + BitVec.ofNat 32 len))
  simp only [State.set_pc_dsp, State.set_pc_rsp, State.consoleAnswer_fst_set] at hcauses
  simp only [step_next_iff (o := .error) (by decide), exists_and_left, hcauses, reduceCtorEq, false_and, or_false]

/-- The causes of `IllegalInstruction` that are instructions, in the words of R355. -/
theorem terminates_illegalInstruction_iff (i : Instr) (s u : State) :
    Terminates i s .illegalInstruction u ↔
      u = s ∧ (i = .illegal ∨ ∃ code : Half, i = .ifkt code ∧ (code.toNat = 0 ∨ 5 < code.toNat)) := by
  constructor
  · intro hterm
    cases hterm with
    | illegal => exact ⟨rfl, .inl rfl⟩
    | unrecognised _ h => exact ⟨rfl, .inr ⟨_, rfl, h⟩⟩
  · rintro ⟨rfl, rfl | ⟨code, rfl, h⟩⟩
    · exact .illegal u
    · exact .unrecognised u h

/-- The causes of `IllegalInstruction` at `pc`. -/
theorem step_illegalInstruction_iff (s : State) :
    (∃ t, step s = .next t ∧ t.outcome = .illegalInstruction) ↔
      (decodeAt s.main s.pc = .instr .illegal 1 ∨ (∃ op, decodeAt s.main s.pc = .unknown op) ∨
        ∃ code, decodeAt s.main s.pc = .instr (.ifkt code) 3 ∧ (code.toNat = 0 ∨ 5 < code.toNat)) := by
  simp only [step_next_iff (o := .illegalInstruction) (by decide), terminates_illegalInstruction_iff,
    decodeAt_eq_instr_iff_exists (i := .illegal) (len := 1) rfl, true_and]
  constructor
  · rintro (⟨_, len, _, hdec, _, rfl | ⟨code, rfl, hcode⟩⟩ | hun)
    · exact .inl ⟨len, hdec⟩
    · exact .inr (.inr ⟨code, (decodeAt_eq_instr_iff_exists rfl).2 ⟨len, hdec⟩, hcode⟩)
    · exact .inr (.inl hun)
  · rintro (⟨len, hdec⟩ | hun | ⟨code, hdec, hcode⟩)
    · exact .inl ⟨_, len, _, hdec, rfl, .inl rfl⟩
    · exact .inr hun
    · exact .inl ⟨_, 3, _, hdec, rfl, .inr ⟨code, rfl, hcode⟩⟩

/-- Settles O14: the causes, and the length of each. -/
theorem illegalHasThreeCauses : Obligations.IllegalHasThreeCauses := by
  intro s
  refine ⟨step_illegalInstruction_iff s, fun t hstep ho => ?_⟩
  rcases (step_illegalInstruction_iff s).1 ⟨t, hstep, ho⟩ with hdec | ⟨op, hdec⟩ | ⟨code, hdec, hcode⟩
  · rw [step_of_decodeAt hdec] at hstep
    cases hstep
    exact ⟨fun ⟨_, hifkt⟩ => (nomatch hdec.symm.trans hifkt), fun _ => rfl⟩
  · rw [step_of_decodeAt_unknown hdec] at hstep
    cases hstep
    exact ⟨fun ⟨_, hifkt⟩ => (nomatch hdec.symm.trans hifkt), fun _ => rfl⟩
  · rw [step_of_decodeAt hdec, (Terminates.unrecognised _ hcode).exec_eq] at hstep
    cases hstep
    exact ⟨fun _ => rfl, fun h => absurd ⟨code, hdec⟩ h⟩

/-! ## What a terminal outcome leaves (R356) -/

/-- A request changes nothing but the streams of the console. -/
theorem State.consoleAnswer_snd_eq (s : State) :
    s.consoleAnswer.2 = { s with
      consoleIn := s.consoleAnswer.2.consoleIn, consoleAsked := s.consoleAnswer.2.consoleAsked } := by
  rcases s.consoleAnswer_cases with ⟨a, rest, _, e⟩ | ⟨_, e⟩ <;> rw [e]

/-- A cause of another outcome than `Success` changes nothing but the streams of the console, and those only where
`ifkt 0x1` asks for a character. -/
theorem Terminates.state_eq {i : Instr} {s t : State} {o : StepOutcome} (h : Terminates i s o t) :
    t = { s with consoleIn := t.consoleIn, consoleAsked := t.consoleAsked } ∧ (i ≠ .ifkt 1 → t = s) := by
  cases h with
  | interrupted => exact ⟨s.consoleAnswer_snd_eq, fun hi => absurd rfl hi⟩
  | terminate | emptyData | emptyReturn | illegal | unrecognised => exact ⟨rfl, fun _ => rfl⟩

/-- Settles O15: the cause of an outcome of the instruction, the one byte of an unmapped opcode, the fault of the fetch, and
the fault of the instruction's access. -/
theorem terminalOutcomesLeaveState : Obligations.TerminalOutcomesLeaveState := by
  refine ⟨fun s t i len hdec hstep ho => ?_, fun s t op hdec hstep => ?_, fun s addr cap left hdec hstep => ?_,
    fun s i len addr cap left hdec hstep => ?_⟩
  · rw [step_of_decodeAt hdec] at hstep
    obtain ⟨u, hterm, ht⟩ := terminates_of_exec hstep ho
    obtain ⟨hu, hsame⟩ := hterm.state_eq
    generalize t.outcome = o at ht
    subst ht
    refine ⟨congrArg (·.setOutcome o) hu, fun hi => ?_⟩
    rw [hsame hi]
    exact ⟨rfl, rfl⟩
  · rw [step_of_decodeAt_unknown hdec] at hstep
    cases hstep
    rfl
  · rw [step_of_decodeAt_memFault hdec] at hstep
    cases hstep
    rfl
  · rw [step_of_decodeAt hdec] at hstep
    exact left_of_exec_fault hstep

end Sys2Proof.Machine
end

section
/-! # Reset and the host's image (70_reset_and_hazards.md) -/

namespace Sys2Proof.Machine

open Sys2Proof.Claims

/-! ## The state after construction (R36, R380) -/

/-- The cells built from a byte function over consecutive addresses read as that function there, and as nothing listed
elsewhere: a byte left out of the cells is one that an unlisted address reads as anyway. -/
theorem Memory.read_filterMap_range' (f : Nat → Byte) (lo n x : Nat) :
    Memory.read ((List.range' lo n).filterMap fun a => if f a = Config.unlistedByte then none else some (a, f a)) x =
      if lo ≤ x ∧ x < lo + n then f x else Config.unlistedByte := by
  induction n generalizing lo with
  | zero => rw [if_neg (by omega)]; rfl
  | succ n ih =>
    have htail : x ≠ lo → ((lo + 1 ≤ x ∧ x < lo + 1 + n) ↔ (lo ≤ x ∧ x < lo + (n + 1))) := by omega
    rw [List.range'_succ]
    by_cases hz : f lo = Config.unlistedByte
    · simp only [List.filterMap_cons, if_pos hz, ih]
      by_cases hx : x = lo
      · rw [if_neg (by omega), if_pos (by omega), hx, hz]
      · rw [if_congr (htail hx) rfl rfl]
    · simp only [List.filterMap_cons, if_neg hz, Memory.read, ih]
      by_cases hx : x = lo
      · rw [if_pos hx, if_pos (by omega), hx]
      · rw [if_neg hx, if_congr (htail hx) rfl rfl]

/-- A region built from a byte function reads as that function below its capacity. -/
theorem Memory.read_ofBytes {cap a : Nat} (f : Nat → Byte) (ha : a < cap) : (Memory.ofBytes cap f).read a = f a := by
  rw [Memory.ofBytes, List.range_eq_range', Memory.read_filterMap_range', if_pos (by omega)]

@[simp] theorem State.powerOn_get (memInit : Region → Nat → Byte) (r : Reg) : (State.powerOn memInit).get r = 0 := by
  cases r <;> rfl

@[simp] theorem State.powerOn_carry (memInit : Region → Nat → Byte) : (State.powerOn memInit).carry = false := rfl

theorem State.powerOn_region (memInit : Region → Nat → Byte) (g : Region) :
    (State.powerOn memInit).region g = Memory.ofBytes g.cap (memInit g) := by
  cases g <;> simp only [State.powerOn, State.region, Region.cap]

/-- Settles O17: construction sets the registers and the flag, and each region reads as the bytes it was built from. -/
theorem powerOnState : Obligations.PowerOnState := by
  intro memInit g a r ha
  refine ⟨State.powerOn_get memInit r, State.powerOn_carry memInit, ?_⟩
  rw [State.byteAt, State.powerOn_region, Memory.read_ofBytes _ ha]

/-! ## `load_image` (R383) -/

/-- An image that fits replaces MAIN by its bytes written from address 0. -/
theorem loadImage_of_fits {image : List Byte} (s : State) (h : image.length ≤ Config.memCap) :
    loadImage image s = (.loaded, s.setRegion .main (s.main.writeBytes 0 image)) := if_pos h

theorem loadImage_of_exceeds {image : List Byte} (s : State) (h : Config.memCap < image.length) :
    loadImage image s = (.imageTooLarge, s) := if_neg (Nat.not_le.2 h)

/-- MAIN reads as the image up to its length and as before from there on. -/
theorem Memory.read_writeBytes_zero (m : Memory) (image : List Byte) (x : Nat) :
    (m.writeBytes 0 image).read x = (image[x]?).getD (m.read x) := by
  rw [Memory.read_writeBytes]
  by_cases hx : x < image.length
  · rw [if_pos (by omega), Nat.sub_zero, List.getD_eq_getElem _ _ hx, List.getElem?_eq_getElem hx, Option.getD_some]
  · rw [if_neg (by omega), List.getElem?_eq_none (by omega), Option.getD_none]

/-- Settles O20: the image that fits is one write to MAIN, whose reads are those of the image and then the old ones. -/
theorem loadImageIsAllOrNothing : Obligations.LoadImageIsAllOrNothing := by
  refine fun image s => ⟨fun hfit => ⟨_, loadImage_of_fits s hfit, rfl, fun k hk => ?_, fun x hx => ?_, fun g x hg => ?_⟩,
    loadImage_of_exceeds s⟩
  · rw [State.byteAt, State.region_setRegion_self, Memory.read_writeBytes_zero, List.getElem?_eq_getElem hk,
      Option.getD_some]
  · rw [State.byteAt, State.region_setRegion_self, Memory.read_writeBytes_zero, List.getElem?_eq_none hx]
    rfl
  · rw [State.byteAt, State.region_setRegion_ne s _ hg]
    rfl

end Sys2Proof.Machine
end
